-- ==== Sys2Proof/Word.lean ====
section
/-! DEFINITION. The two word types of the block: "all registers and memory cells are bytes"
(spec 10 R21) and 16-bit addresses and pairs (10 R23, R26, R29). -/

namespace Sys2Proof

/-- An 8-bit value. -/
abbrev Byte := BitVec 8

/-- A 16-bit value: an address, a register pair, SP or PC. -/
abbrev Word := BitVec 16

end Sys2Proof
end

