-- ==== Sys2Proof/Machine/Bits.lean ====
section
/-! DEFINITION. Byte order and bit helpers: the concatenation `hi:lo` of two bytes, its two halves,
and the number of 1 bits of a byte (spec 00 section 7, 20 R64, R65). -/

namespace Sys2Proof.Machine

/-- `hi:lo`, the 16-bit value `hi * 256 + lo` (00 section 7; 10 R23: the first-named register is the high byte). -/
def joinBytes (hi lo : Byte) : Word := hi ++ lo

/-- `v[15:8]`. -/
def hiByte (v : Word) : Byte := v.extractLsb' 8 8

/-- `v[7:0]`. -/
def loByte (v : Word) : Byte := v.extractLsb' 0 8

/-- `popcount(b)`: the number of 1 bits of the byte (00 section 7). -/
def popcount (b : Byte) : Nat :=
  (b.getLsbD 0).toNat + (b.getLsbD 1).toNat + (b.getLsbD 2).toNat + (b.getLsbD 3).toNat +
  (b.getLsbD 4).toNat + (b.getLsbD 5).toNat + (b.getLsbD 6).toNat + (b.getLsbD 7).toNat

end Sys2Proof.Machine
end

