-- ==== Sys2Proof/Config.lean ====
section
/-! DEFINITION. The implementation parameters of spec 00 R7 to R10, as plain data with the defaults of
92 "Open parameters". RESET_REGS is an argument of reset (Machine/State.lean), FRAME_BASE and
FRAME_LEN are arguments of the frame view (Machine/HostInterface.lean). -/

namespace Sys2Proof

/-- TOP_OF_SPACE_POLICY (10 R28, R30; D10). -/
inductive TopOfSpace where
  /-- 16-bit increments out of 0xFFFF give 0x0000. -/
  | wrap
  /-- The access that follows such an increment raises OutOfBounds at 0x10000. -/
  | fault
  deriving DecidableEq, Repr

/-- UNDOC_CALL_POLICY: the bytes 0xDD, 0xED, 0xFD (30 R111; D12). -/
inductive UndocCall where
  | aliasCall
  | fault
  deriving DecidableEq, Repr

/-- DAA_NO_HIGH_FIX_FLAGS: DAA's flags when its second stage does not run (40 R149; D9). -/
inductive DaaNoHighFix where
  | unchanged
  | setCarryClear
  deriving DecidableEq, Repr

/-- One entry of CYCLES: the cost on the taken path and on the not-taken path; the two differ for
conditional calls and returns only (70 R335, R336). -/
structure CycleCost where
  taken : Byte
  notTaken : Byte
  deriving DecidableEq, Repr

/-- The configuration. No step changes it (10 R20). -/
structure Config where
  /-- MEM_SIZE, 1 to 65536 (00 R7). -/
  memSize : Nat
  /-- N_PORTS, 1 to 256 (00 R8). -/
  nPorts : Nat
  /-- OUT_IGNORED_PORTS (00 R9). -/
  outIgnoredPorts : List Byte
  /-- The first bytes to which DISPATCH gives no entry, beside those of `undocCall` (30 R91, R112). -/
  unmappedOpcodes : List Byte
  undocCall : UndocCall
  /-- INR_DCR_WRITE_CARRY (40 R143). -/
  inrDcrWriteCarry : Bool
  daaNoHighFix : DaaNoHighFix
  topOfSpace : TopOfSpace
  /-- INT_GATED_BY_INTE (60 R292). -/
  intGatedByInte : Bool
  /-- CYCLES, as its departures from the default table of 70 R336, keyed by the first byte. -/
  cycleOverrides : List (Byte × CycleCost)
  /-- INT_CYCLES (70 R337). -/
  intCycles : Byte
  deriving DecidableEq, Repr

/-- The defaults of 92 "Open parameters, gathered". -/
def Config.default : Config where
  memSize := 65536
  nPorts := 8
  outIgnoredPorts := []
  unmappedOpcodes := []
  undocCall := .aliasCall
  inrDcrWriteCarry := false
  daaNoHighFix := .unchanged
  topOfSpace := .wrap
  intGatedByInte := true
  cycleOverrides := []
  intCycles := 11

/-- The ranges of 00 R7 and R8. -/
def Config.ok (c : Config) : Bool :=
  decide (1 ≤ c.memSize) && decide (c.memSize ≤ 65536) && decide (1 ≤ c.nPorts) && decide (c.nPorts ≤ 256)

end Sys2Proof
end

