-- ==== Sys2Proof/Machine/Memory.lean ====
section
/-! DEFINITION. A store of byte cells, as a list in one canonical form: keys strictly rising, no cell
holding the value an unlisted key reads as, which is 0 (assumption log 4: the spec's memory image is
"zero-padded"). The memory MEM and the port array PORT are both such stores (spec 10 R20, 20 R60). -/

namespace Sys2Proof.Machine

/-- A store of bytes by key: an address of MEM or a port number of PORT. -/
abbrev Cells := List Host.Cell

/-- What an unlisted cell reads as. -/
def unlistedByte : Byte := 0

/-- The byte at key `k`. -/
def Cells.read : Cells → Nat → Byte
  | [], _ => unlistedByte
  | (k, v) :: rest, a => if k = a then v else Cells.read rest a

/-- The store without the cell at key `a`. -/
def Cells.remove (m : Cells) (a : Nat) : Cells := m.filter (fun cell => cell.1 ≠ a)

/-- The store with a cell at key `a`, put before the first cell of a higher key. -/
def Cells.insert (a : Nat) (v : Byte) : Cells → Cells
  | [] => [(a, v)]
  | (k, x) :: rest => if a < k then (a, v) :: (k, x) :: rest else (k, x) :: Cells.insert a v rest

/-- The store with the byte at key `a` replaced. -/
def Cells.write (m : Cells) (a : Nat) (v : Byte) : Cells :=
  if v = unlistedByte then m.remove a else Cells.insert a v (m.remove a)

/-- The cells rise strictly from key `lo` on and none holds the unlisted value. -/
def Cells.risesFrom : Nat → Cells → Bool
  | _, [] => true
  | lo, (k, v) :: rest => decide (lo ≤ k) && decide (v ≠ unlistedByte) && Cells.risesFrom (k + 1) rest

/-- The canonical form. -/
def Cells.wf (m : Cells) : Bool := Cells.risesFrom 0 m

/-- Every listed key is below `n`. -/
def Cells.below (n : Nat) (m : Cells) : Bool := m.all (fun cell => decide (cell.1 < n))

/-- The store that holds the bytes of a list at keys `k`, `k + 1`, … -/
def Cells.ofBytesFrom : Nat → List Byte → Cells
  | _, [] => []
  | k, v :: rest => if v = unlistedByte then Cells.ofBytesFrom (k + 1) rest else (k, v) :: Cells.ofBytesFrom (k + 1) rest

/-- The store that holds an image from key 0 on (70 R322). -/
def Cells.ofBytes (image : List Byte) : Cells := Cells.ofBytesFrom 0 image

end Sys2Proof.Machine
end

