-- ==== Sys2Proof/Syntax.lean ====
section
/-! DEFINITION. The instruction set: one constructor per mnemonic of spec/opcode_table.json, with its
operands (spec 30 R101, R114). The twelve undefined bytes are other encodings of NOP, JMP, RET and
CALL (30 R108 to R111) and have no constructor of their own. -/

namespace Sys2Proof

/-- The 8-bit operand of a register field: seven registers and the pseudo-register M (30 R96). -/
inductive R8 where
  | b | c | d | e | h | l | m | a
  deriving DecidableEq, Repr

/-- The 16-bit pairs of LXI, INX, DCX and DAD (10 R23, 30 R97). -/
inductive Pair where
  | bc | de | hl | sp
  deriving DecidableEq, Repr

/-- The pairs of PUSH and POP, where code 3 is PSW and never SP (45 R240). -/
inductive StackPair where
  | bc | de | hl | psw
  deriving DecidableEq, Repr

/-- The two pairs LDAX and STAX take (43 R197, R198). -/
inductive IndexPair where
  | bc | de
  deriving DecidableEq, Repr

/-- The eight conditions of Jcc, Ccc and Rcc (44 R220). -/
inductive Cond where
  | nz | z | nc | c | po | pe | p | m
  deriving DecidableEq, Repr

/-- The document's operand variant {A,B,C,D,E,H,L,M,SP,PSW} (10 R24), used only to say which operand
an UnsupportedOperand fault names (60 R284). -/
inductive OperandName where
  | a | b | c | d | e | h | l | m | sp | psw
  deriving DecidableEq, Repr

/-- The instructions, in the order of the family table of 30 R101. -/
inductive Instr where
  -- Arithmetic (40)
  | add (src : R8)
  | adc (src : R8)
  | adi (d8 : Byte)
  | aci (d8 : Byte)
  | sub (src : R8)
  | sbb (src : R8)
  | sui (d8 : Byte)
  | sbi (d8 : Byte)
  | inr (dst : R8)
  | dcr (dst : R8)
  | dad (rp : Pair)
  | inx (rp : Pair)
  | dcx (rp : Pair)
  | daa
  -- Logical (41)
  | ana (src : R8)
  | ani (d8 : Byte)
  | xra (src : R8)
  | xri (d8 : Byte)
  | ora (src : R8)
  | ori (d8 : Byte)
  | cma
  | cmp (src : R8)
  | cpi (d8 : Byte)
  -- Rotate (42)
  | rlc
  | rrc
  | ral
  | rar
  -- Data movement (43)
  | mov (dst src : R8)
  | mvi (dst : R8) (d8 : Byte)
  | lxi (rp : Pair) (d16 : Word)
  | lda (a16 : Word)
  | sta (a16 : Word)
  | ldax (rp : IndexPair)
  | stax (rp : IndexPair)
  | lhld (a16 : Word)
  | shld (a16 : Word)
  | sphl
  | pchl
  | xchg
  | xthl
  -- Branch (44)
  | jmp (a16 : Word)
  | jnz (a16 : Word)
  | jz (a16 : Word)
  | jnc (a16 : Word)
  | jc (a16 : Word)
  | jpo (a16 : Word)
  | jpe (a16 : Word)
  | jp (a16 : Word)
  | jm (a16 : Word)
  | call (a16 : Word)
  | cnz (a16 : Word)
  | cz (a16 : Word)
  | cnc (a16 : Word)
  | cc (a16 : Word)
  | cpo (a16 : Word)
  | cpe (a16 : Word)
  | cp (a16 : Word)
  | cm (a16 : Word)
  | ret
  | rnz
  | rz
  | rnc
  | rc
  | rpo
  | rpe
  | rp
  | rm
  | rst (n : BitVec 3)
  -- Stack (45)
  | push (rp : StackPair)
  | pop (rp : StackPair)
  -- I/O (46)
  | inp (p8 : Byte)
  | out (p8 : Byte)
  -- Control (47)
  | nop
  | hlt
  | ei
  | di
  | stc
  | cmc
  deriving DecidableEq, Repr

end Sys2Proof
end

