-- ==== Sys2Proof/Machine/State.lean ====
section
/-! DEFINITION. The state of the block (spec 10 R20: "exactly this list, and nothing else", with the
latch MAR of R42), the model's own fields beside it, the faults and refusals, and reset. -/

namespace Sys2Proof.Machine

/-- The four flags (10 R32). There is no Auxiliary Carry. -/
structure Flags where
  /-- Zero. -/
  z : Bool
  /-- Sign. -/
  s : Bool
  /-- Parity: even. -/
  p : Bool
  /-- Carry. -/
  cy : Bool
  deriving DecidableEq, Repr

/-- What the last step or interrupt request reported to the host (30 R93; 60 R292, R293). -/
inductive Report where
  /-- Nothing has been reported since reset. -/
  | noneYet
  /-- `Continuing(cycles)`. -/
  | continuing (cycles : Byte)
  /-- `Halted`. -/
  | halted
  /-- `Accepted(cycles)`: the interrupt request was taken. -/
  | accepted (cycles : Byte)
  /-- `Ignored`: the interrupt request was lost. -/
  | ignored
  deriving DecidableEq, Repr

structure State where
  /-- The configuration, which no step changes (assumption log 1). -/
  cfg : Config
  /-- The accumulator (10 R22). -/
  a : Byte
  b : Byte
  c : Byte
  d : Byte
  e : Byte
  h : Byte
  l : Byte
  /-- The stack pointer (10 R29). -/
  sp : Word
  /-- The program counter (10 R26). -/
  pc : Word
  flags : Flags
  /-- The interrupt enable (10 R39). -/
  inte : Bool
  /-- The halt state (10 R40). -/
  halted : Bool
  /-- MEM (20 R60). -/
  mem : Cells
  /-- PORT (10 R41). -/
  ports : Cells
  /-- The memory address latch (10 R42). -/
  mar : Word
  /-- The model's own: PC was incremented out of 0xFFFF and not written since (10 R28; log 6). -/
  pcWrapped : Bool
  /-- The model's own: SP was incremented out of 0xFFFF by a pop and not written since (log 6). -/
  spWrapped : Bool
  /-- The model's own: the output lines of the last transaction (60 R300; log 7). -/
  report : Report
  deriving DecidableEq, Repr

/-- The kinds of access an OutOfBounds fault records (60 R282). -/
inductive AccessKind where
  | fetch | stackRead | dataRead | dataWrite
  deriving DecidableEq, Repr

/-- The faults of 60 R280. Each is fatal: the run is over. Each carries the info the spec records and
the state every statement before the raising one has left (60 R287), which no program observes (log 15). -/
inductive Fault where
  /-- Raised by PushByte when SP is 0: PUSH, CALL, a taken Ccc, RST, interrupt acceptance (60 R281).
  Safe: the spec's own fault, and the machine stops. -/
  | stackUnderflow (sp : Word) (left : State)
  /-- Raised by FetchByte, PopByte, MemRead and MemWrite at an address not below MEM_SIZE, or at
  0x10000 under TOP_OF_SPACE_POLICY = fault (60 R282). Safe: the spec's own fault. -/
  | outOfBounds (kind : AccessKind) (addr : Nat) (left : State)
  /-- Raised by the step when DISPATCH has no entry for the byte (60 R283); by no byte under the
  default configuration. Safe: the spec's own fault. -/
  | unknownOpcode (op : Byte) (addr : Word) (left : State)
  /-- Raised by the meaning of a term no byte decodes to, MOV M,M (60 R284). Safe: no step reaches it. -/
  | unsupportedOperand (op : Byte) (operand : OperandName) (left : State)
  /-- Raised by IN and OUT when the port number is N_PORTS or more (60 R285). Safe: the spec's own fault. -/
  | portOutOfRange (port : Byte) (left : State)
  deriving DecidableEq, Repr

/-- The fault codes of 60 R280. -/
def Fault.code : Fault → Nat
  | .stackUnderflow _ _ => 1
  | .outOfBounds _ _ _ => 2
  | .unknownOpcode _ _ _ => 3
  | .unsupportedOperand _ _ _ => 4
  | .portOutOfRange _ _ => 5

/-- The state a fault leaves behind (60 R287). -/
def Fault.left : Fault → State
  | .stackUnderflow _ t => t
  | .outOfBounds _ _ t => t
  | .unknownOpcode _ _ t => t
  | .unsupportedOperand _ _ t => t
  | .portOutOfRange _ t => t

/-- What the model does not answer. No instruction refuses. -/
inductive Refusal where
  /-- Raised by an arm of `exec` whose instruction has no meaning yet; no arm does. Safe: the model stops. -/
  | notModelled (mnemonic : String)
  /-- Raised by the host's port load with a port number of N_PORTS or more, which is outside the contract
  (46 R259, 93 U23). Safe: the host is not admitted to make the call. -/
  | hostPortOutOfContract (port : Byte)
  /-- Raised by the host's reset with an image of no byte or more than 65536 bytes (70 R322, 93 U29).
  Safe: the host is not admitted to make the call. -/
  | imageOutOfContract (length : Nat)
  deriving DecidableEq, Repr

/-- The outcome of a meaning, a step or a host transaction. -/
abbrev Out := Host.Outcome State Fault Refusal

/-- RESET_REGS: the values of the state that reset leaves unspecified (70 R323). -/
structure ResetRegs where
  a : Byte
  b : Byte
  c : Byte
  d : Byte
  e : Byte
  h : Byte
  l : Byte
  sp : Word
  flags : Flags
  /-- The port bytes, port 0 first; at most N_PORTS of them count. -/
  ports : List Byte
  mar : Word
  deriving DecidableEq, Repr

/-- RESET_REGS = all zeros, which a harness "may take ... and say so" (70 R323; log 3). -/
def ResetRegs.zeros : ResetRegs where
  a := 0
  b := 0
  c := 0
  d := 0
  e := 0
  h := 0
  l := 0
  sp := 0
  flags := { z := false, s := false, p := false, cy := false }
  ports := []
  mar := 0

/-- The state after reset under a configuration, RESET_REGS and a memory (70 R321 to R324). -/
def State.powerUp (cfg : Config) (regs : ResetRegs) (mem : Cells) : State where
  cfg := cfg
  a := regs.a
  b := regs.b
  c := regs.c
  d := regs.d
  e := regs.e
  h := regs.h
  l := regs.l
  sp := regs.sp
  pc := 0
  flags := regs.flags
  inte := false
  halted := false
  mem := mem
  ports := Cells.ofBytes (regs.ports.take cfg.nPorts)
  mar := regs.mar
  pcWrapped := false
  spWrapped := false
  report := .noneYet

/-- Reset with a memory image: MEM_SIZE is the image's length, and no other parameter is touched (70 R322, R324). -/
def State.resetImage (cfg : Config) (regs : ResetRegs) (image : List Byte) : State :=
  State.powerUp { cfg with memSize := image.length } regs (Cells.ofBytes image)

/-- The machine right after reset, with the default configuration, RESET_REGS = all zeros and the image
of 65536 zero bytes, which lists no cell (log 3, log 4). -/
def State.reset : State := State.powerUp Config.default ResetRegs.zeros []

end Sys2Proof.Machine
end

