-- ==== Sys2Proof/Machine/Ops.lean ====
section
/-! DEFINITION. The named operations: the primitives of spec 00 R11 to R16 over memory, PC and SP, and
the entry into an interrupt or restart and the return from one (44 R226, R228; 60 R293, R295). -/

namespace Sys2Proof.Machine

/-- The result of an operation inside a step: a value and the state after it, or a fault, which ends
the step at the statement that raises it (00 R19). -/
inductive Res (α : Type) where
  | ok (x : α) (s : State)
  | fault (f : Fault)
  deriving Repr

/-- Run a further operation on the value and state of the first. -/
def Res.bind {α β : Type} (r : Res α) (k : α → State → Res β) : Res β :=
  match r with
  | .ok x s => k x s
  | .fault f => .fault f

/-- End a meaning with the value and state of an operation. -/
def Res.andThen {α : Type} (r : Res α) (k : α → State → Out) : Out :=
  match r with
  | .ok x s => k x s
  | .fault f => .fault f

/-- End a meaning with the state of an operation. -/
def Res.done (r : Res Unit) : Out := r.andThen (fun _ s => .next s)

/-! ## Registers -/

/-- Write PC (10 R27): the write clears the note that PC ran out of 0xFFFF (10 R28 "with no intervening write of PC"). -/
def State.setPC (s : State) (v : Word) : State := { s with pc := v, pcWrapped := false }

/-- Write SP (10 R29). -/
def State.setSP (s : State) (v : Word) : State := { s with sp := v, spWrapped := false }

/-- BC = B:C (10 R23). -/
def State.bc (s : State) : Word := joinBytes s.b s.c

/-- DE = D:E (10 R23). -/
def State.de (s : State) : Word := joinBytes s.d s.e

/-- HL = H:L (10 R23). -/
def State.hl (s : State) : Word := joinBytes s.h s.l

def State.setBC (s : State) (v : Word) : State := { s with b := hiByte v, c := loByte v }

def State.setDE (s : State) (v : Word) : State := { s with d := hiByte v, e := loByte v }

def State.setHL (s : State) (v : Word) : State := { s with h := hiByte v, l := loByte v }

/-- The policy TOP_OF_SPACE_POLICY = fault (10 R28). -/
def Config.topFaults (cfg : Config) : Bool := decide (cfg.topOfSpace = .fault)

/-! ## Stream reads -/

/-- FetchByte, the program counter incrementer (00 R11; 10 R28 for PC = 0xFFFF). -/
def fetchByte (s : State) : Res Byte :=
  if Config.topFaults s.cfg && s.pcWrapped then .fault (.outOfBounds .fetch 65536 s)
  else if s.cfg.memSize ≤ s.pc.toNat then .fault (.outOfBounds .fetch s.pc.toNat s)
  else
    .ok (s.mem.read s.pc.toNat)
      { s with mar := s.pc, pc := s.pc + 1, pcWrapped := decide (s.pc = 0xFFFF) }

/-- FetchAddr: low byte first (00 R12). -/
def fetchAddr (s : State) : Res Word :=
  (fetchByte s).bind fun lo s => (fetchByte s).bind fun hi s => .ok (joinBytes hi lo) s

/-! ## Data accesses -/

/-- MemRead(addr, 1) (00 R13). -/
def memRead (addr : Word) (s : State) : Res Byte :=
  if s.cfg.memSize ≤ addr.toNat then .fault (.outOfBounds .dataRead addr.toNat s)
  else .ok (s.mem.read addr.toNat) { s with mar := addr }

/-- MemWrite(addr, 1, v) (00 R14). -/
def memWrite (addr : Word) (v : Byte) (s : State) : Res Unit :=
  if s.cfg.memSize ≤ addr.toNat then .fault (.outOfBounds .dataWrite addr.toNat s)
  else .ok () { s with mar := addr, mem := s.mem.write addr.toNat v }

/-- The address of the second byte of a 16-bit access: `(addr + 1) mod 65536` (00 R13, R14), or the
fault at 0x10000 under TOP_OF_SPACE_POLICY = fault (93 U17; log 14). -/
def nextAddr (kind : AccessKind) (addr : Word) (s : State) : Res Word :=
  if Config.topFaults s.cfg && decide (addr = 0xFFFF) then .fault (.outOfBounds kind 65536 s)
  else .ok (addr + 1) s

/-- MemRead(addr, 2): low byte at the lower address (00 R13, 20 R64). -/
def memRead16 (addr : Word) (s : State) : Res Word :=
  (memRead addr s).bind fun lo s =>
    (nextAddr .dataRead addr s).bind fun addr' s =>
      (memRead addr' s).bind fun hi s => .ok (joinBytes hi lo) s

/-- MemWrite(addr, 2, v): low byte at the lower address, written first (00 R14, 20 R64). -/
def memWrite16 (addr : Word) (v : Word) (s : State) : Res Unit :=
  (memWrite addr (loByte v) s).bind fun _ s =>
    (nextAddr .dataWrite addr s).bind fun addr' s => memWrite addr' (hiByte v) s

/-! ## The stack -/

/-- PushByte: decrement SP, then write; fatal when SP is 0 (00 R15, 60 R281). -/
def pushByte (v : Byte) (s : State) : Res Unit :=
  if s.sp = 0 then .fault (.stackUnderflow s.sp s)
  else memWrite (s.sp - 1) v (s.setSP (s.sp - 1))

/-- Push16: high byte first (00 R15). -/
def push16 (v : Word) (s : State) : Res Unit :=
  (pushByte (hiByte v) s).bind fun _ s => pushByte (loByte v) s

/-- PopByte: read, then increment SP (00 R16; 10 R30 for SP = 0xFFFF). -/
def popByte (s : State) : Res Byte :=
  if Config.topFaults s.cfg && s.spWrapped then .fault (.outOfBounds .stackRead 65536 s)
  else if s.cfg.memSize ≤ s.sp.toNat then .fault (.outOfBounds .stackRead s.sp.toNat s)
  else
    .ok (s.mem.read s.sp.toNat)
      { s with mar := s.sp, sp := s.sp + 1, spWrapped := decide (s.sp = 0xFFFF) }

/-- Pop16: low byte first (00 R16). -/
def pop16 (s : State) : Res Word :=
  (popByte s).bind fun lo s => (popByte s).bind fun hi s => .ok (joinBytes hi lo) s

/-! ## Calls, restarts, interrupt entry and return -/

/-- `Push16(PC); PC <- target`: what CALL, a taken Ccc, RST and interrupt acceptance share (44 R224, R228; 60 R293). -/
def pushPCAndJump (target : Word) (s : State) : Res Unit :=
  (push16 s.pc s).bind fun _ s => .ok () (s.setPC target)

/-- `8 * n`: the restart address (30 R99, 44 R228). -/
def restartAddr (n : BitVec 3) : Word := BitVec.ofNat 16 (8 * n.toNat)

/-- Acceptance of an interrupt (60 R293): INTE <- 0, Push16(PC), PC <- 8n. PC is what is saved, on the
stack; nothing else is. -/
def acceptInterrupt (n : BitVec 3) (s : State) : Res Unit :=
  pushPCAndJump (restartAddr n) { s with inte := false }

/-- PC <- Pop16(): RET, a taken Rcc, and the return from an interrupt handler (44 R226, 60 R295). -/
def popPC (s : State) : Res Unit :=
  (pop16 s).bind fun target s => .ok () (s.setPC target)

end Sys2Proof.Machine
end

