-- ==== Sys2Proof/Machine/Flags.lean ====
section
/-! DEFINITION. The ALU's results and every flag computation (spec 00 R17, 10 R33 to R35, 40 R130,
R149, 42 R180, 44 R220). -/

namespace Sys2Proof.Machine

/-- P: the byte has an even number of 1 bits (00 R17). -/
def evenParity (r : Byte) : Bool := decide (popcount r % 2 = 0)

/-- SetFlags(result, carry) (00 R17). -/
def Flags.ofResult (r : Byte) (carry : Bool) : Flags where
  z := decide (r = 0)
  s := r.getLsbD 7
  p := evenParity r
  cy := carry

/-- SetFlags on the state. -/
def State.setFlags (s : State) (r : Byte) (carry : Bool) : State :=
  { s with flags := Flags.ofResult r carry }

/-- FlagsToByte: S Z 0 0 0 P 0 CY (10 R34). -/
def Flags.toByte (f : Flags) : Byte :=
  BitVec.ofNat 8 (f.s.toNat * 0x80 + f.z.toNat * 0x40 + f.p.toNat * 0x04 + f.cy.toNat * 0x01)

/-- FlagsFromByte: bits 7, 6, 2 and 0; the others are ignored (10 R35). -/
def Flags.ofByte (b : Byte) : Flags where
  z := b.getLsbD 6
  s := b.getLsbD 7
  p := b.getLsbD 2
  cy := b.getLsbD 0

/-- The condition of a 3-bit condition field (44 R220). -/
def Flags.holds (f : Flags) : Cond → Bool
  | .nz => !f.z
  | .z => f.z
  | .nc => !f.cy
  | .c => f.cy
  | .po => !f.p
  | .pe => f.p
  | .p => !f.s
  | .m => f.s

/-- A result byte with the carry, borrow or ejected bit beside it. -/
structure AluResult where
  value : Byte
  carry : Bool
  deriving DecidableEq, Repr

/-- `A <- r; SetFlags(r, c)`: how the ALU instructions that keep their result end (40 R131). -/
def State.setAlu (s : State) (r : AluResult) : State :=
  { s with a := r.value, flags := Flags.ofResult r.value r.carry }

/-- Add8 (40 R130): the exact sum, narrowed; the carry says it exceeded 255. -/
def add8 (a b : Byte) (cin : Bool) : AluResult :=
  let t := a.toNat + b.toNat + cin.toNat
  { value := BitVec.ofNat 8 t, carry := decide (255 < t) }

/-- Sub8 (40 R130): the exact difference, narrowed; the carry is the borrow. -/
def sub8 (a b : Byte) (bin : Bool) : AluResult :=
  let t : Int := (a.toNat : Int) - (b.toNat : Int) - (bin.toNat : Int)
  { value := BitVec.ofInt 8 t, carry := decide (t < 0) }

/-- RLC (42 R181). -/
def rotateLeft (a : Byte) : AluResult :=
  { value := BitVec.ofNat 8 (a.toNat * 2 % 256 + (a.getLsbD 7).toNat), carry := a.getLsbD 7 }

/-- RRC (42 R182). -/
def rotateRight (a : Byte) : AluResult :=
  { value := BitVec.ofNat 8 (a.toNat / 2 + (a.getLsbD 0).toNat * 128), carry := a.getLsbD 0 }

/-- RAL (42 R183). -/
def rotateLeftThroughCarry (a : Byte) (cy : Bool) : AluResult :=
  { value := BitVec.ofNat 8 (a.toNat * 2 % 256 + cy.toNat), carry := a.getLsbD 7 }

/-- RAR (42 R184). -/
def rotateRightThroughCarry (a : Byte) (cy : Bool) : AluResult :=
  { value := BitVec.ofNat 8 (a.toNat / 2 + cy.toNat * 128), carry := a.getLsbD 0 }

/-- The flags INR and DCR leave (40 R141 to R143): Z, S and P from the result; CY unchanged, or whether
the byte wrapped under INR_DCR_WRITE_CARRY. -/
def Flags.afterIncDec (f : Flags) (cfg : Config) (r : Byte) (wrapped : Bool) : Flags :=
  Flags.ofResult r (if cfg.inrDcrWriteCarry then wrapped else f.cy)

/-- DAA's stage one: the low nibble (40 R149). -/
def daaStageOne (a : Byte) : Byte :=
  if 9 < a.toNat % 16 then BitVec.ofNat 8 (a.toNat + 6) else a

/-- Whether DAA's stage two runs, tested on the byte after stage one (40 R149). -/
def daaStageTwoRuns (a : Byte) : Bool := decide (9 < a.toNat / 16)

/-- DAA's accumulator (40 R149). -/
def daaValue (a : Byte) : Byte :=
  let a1 := daaStageOne a
  if daaStageTwoRuns a1 then BitVec.ofNat 8 (a1.toNat + 0x60) else a1

/-- DAA's flags (40 R149): written by stage two only, unless DAA_NO_HIGH_FIX_FLAGS = set_carry_clear. -/
def daaFlags (cfg : Config) (a : Byte) (f : Flags) : Flags :=
  let a1 := daaStageOne a
  if daaStageTwoRuns a1 then Flags.ofResult (daaValue a) (decide (255 < a1.toNat + 0x60))
  else
    match cfg.daaNoHighFix with
    | .unchanged => f
    | .setCarryClear => Flags.ofResult (daaValue a) false

end Sys2Proof.Machine
end

