-- ==== Sys2Proof/Machine/Operands.lean ====
section
/-! DEFINITION. Every operand form: the 8-bit operand with M resolved through H:L at the point of use
(spec 00 R18), the pairs (10 R23, R25), and the pairs LDAX and STAX take. -/

namespace Sys2Proof.Machine

/-- R8[c] (read) (00 R18). -/
def readR8 (o : R8) (s : State) : Res Byte :=
  match o with
  | .b => .ok s.b s
  | .c => .ok s.c s
  | .d => .ok s.d s
  | .e => .ok s.e s
  | .h => .ok s.h s
  | .l => .ok s.l s
  | .m => memRead s.hl s
  | .a => .ok s.a s

/-- R8[c] <- v (00 R18). -/
def writeR8 (o : R8) (v : Byte) (s : State) : Res Unit :=
  match o with
  | .b => .ok () { s with b := v }
  | .c => .ok () { s with c := v }
  | .d => .ok () { s with d := v }
  | .e => .ok () { s with e := v }
  | .h => .ok () { s with h := v }
  | .l => .ok () { s with l := v }
  | .m => memWrite s.hl v s
  | .a => .ok () { s with a := v }

/-- RP[p] (read) (10 R23). -/
def State.pair (s : State) : Pair → Word
  | .bc => s.bc
  | .de => s.de
  | .hl => s.hl
  | .sp => s.sp

/-- RP[p] <- v (10 R23). -/
def State.setPair (s : State) (p : Pair) (v : Word) : State :=
  match p with
  | .bc => s.setBC v
  | .de => s.setDE v
  | .hl => s.setHL v
  | .sp => s.setSP v

/-- The 16 bits PUSH stores: a pair, or PSW with high byte A and low byte the flag byte (10 R25, 45 R241, R242). -/
def State.stackPair (s : State) : StackPair → Word
  | .bc => s.bc
  | .de => s.de
  | .hl => s.hl
  | .psw => joinBytes s.a s.flags.toByte

/-- What POP does with the 16 bits read (45 R243, R244). -/
def State.setStackPair (s : State) (p : StackPair) (v : Word) : State :=
  match p with
  | .bc => s.setBC v
  | .de => s.setDE v
  | .hl => s.setHL v
  | .psw => { s with flags := Flags.ofByte (loByte v), a := hiByte v }

/-- The address LDAX and STAX use (43 R197, R198). -/
def State.indexPair (s : State) : IndexPair → Word
  | .bc => s.bc
  | .de => s.de

end Sys2Proof.Machine
end

