-- ==== Sys2Proof/Machine/Arithmetic.lean ====
section
/-! DEFINITION. The arithmetic instructions (spec 40 R130 to R150). -/

namespace Sys2Proof.Machine

/-- ADD s (R131). -/
def execAdd (src : R8) (s : State) : Out :=
  (readR8 src s).andThen fun v s => .next (s.setAlu (add8 s.a v false))

/-- ADC s (R132). -/
def execAdc (src : R8) (s : State) : Out :=
  (readR8 src s).andThen fun v s => .next (s.setAlu (add8 s.a v s.flags.cy))

/-- ADI d8 (R133). -/
def execAdi (d8 : Byte) (s : State) : Out := .next (s.setAlu (add8 s.a d8 false))

/-- ACI d8 (R134). -/
def execAci (d8 : Byte) (s : State) : Out := .next (s.setAlu (add8 s.a d8 s.flags.cy))

/-- SUB s (R135). -/
def execSub (src : R8) (s : State) : Out :=
  (readR8 src s).andThen fun v s => .next (s.setAlu (sub8 s.a v false))

/-- SBB s (R136). -/
def execSbb (src : R8) (s : State) : Out :=
  (readR8 src s).andThen fun v s => .next (s.setAlu (sub8 s.a v s.flags.cy))

/-- SUI d8 (R137). -/
def execSui (d8 : Byte) (s : State) : Out := .next (s.setAlu (sub8 s.a d8 false))

/-- SBI d8 (R138). -/
def execSbi (d8 : Byte) (s : State) : Out := .next (s.setAlu (sub8 s.a d8 s.flags.cy))

/-- INR d (R141, R143): the operand is written before the flags; the carry is `wrapped` only under
INR_DCR_WRITE_CARRY. -/
def execInr (dst : R8) (s : State) : Out :=
  (readR8 dst s).andThen fun v s =>
    (writeR8 dst (v + 1) s).andThen fun _ s =>
      .next { s with flags := s.flags.afterIncDec s.cfg (v + 1) (decide (v = 0xFF)) }

/-- DCR d (R142, R143). -/
def execDcr (dst : R8) (s : State) : Out :=
  (readR8 dst s).andThen fun v s =>
    (writeR8 dst (v - 1) s).andThen fun _ s =>
      .next { s with flags := s.flags.afterIncDec s.cfg (v - 1) (decide (v = 0x00)) }

/-- DAD rp (R144): CY only. -/
def execDad (rp : Pair) (s : State) : Out :=
  let t := s.hl.toNat + (s.pair rp).toNat
  .next { s.setHL (BitVec.ofNat 16 t) with flags := { s.flags with cy := decide (0xFFFF < t) } }

/-- INX rp (R145): no flag, no fault. -/
def execInx (rp : Pair) (s : State) : Out := .next (s.setPair rp (s.pair rp + 1))

/-- DCX rp (R147): no flag, no fault. -/
def execDcx (rp : Pair) (s : State) : Out := .next (s.setPair rp (s.pair rp - 1))

/-- DAA (R149). -/
def execDaa (s : State) : Out :=
  .next { s with a := daaValue s.a, flags := daaFlags s.cfg s.a s.flags }

end Sys2Proof.Machine
end

