-- ==== Sys2Proof/Machine/Branch.lean ====
section
/-! DEFINITION. The branch, call, return and restart instructions (spec 44 R220 to R229). None writes a flag. -/

namespace Sys2Proof.Machine

/-- Jcc a16: PC is replaced when the condition holds (R223). The operand bytes are consumed either way
(R221), before the meaning runs. -/
def jumpIf (cond : Cond) (a16 : Word) (s : State) : Out :=
  if s.flags.holds cond then .next (s.setPC a16) else .next s

/-- Ccc a16: no stack access when not taken (R225). -/
def callIf (cond : Cond) (a16 : Word) (s : State) : Out :=
  if s.flags.holds cond then (pushPCAndJump a16 s).done else .next s

/-- Rcc (R227). -/
def returnIf (cond : Cond) (s : State) : Out :=
  if s.flags.holds cond then (popPC s).done else .next s

/-- JMP a16 (R222). -/
def execJmp (a16 : Word) (s : State) : Out := .next (s.setPC a16)

/-- JNZ a16 (R220, R223). -/
def execJnz (a16 : Word) (s : State) : Out := jumpIf .nz a16 s

/-- JZ a16 (R220, R223). -/
def execJz (a16 : Word) (s : State) : Out := jumpIf .z a16 s

/-- JNC a16 (R220, R223). -/
def execJnc (a16 : Word) (s : State) : Out := jumpIf .nc a16 s

/-- JC a16 (R220, R223). -/
def execJc (a16 : Word) (s : State) : Out := jumpIf .c a16 s

/-- JPO a16 (R220, R223). -/
def execJpo (a16 : Word) (s : State) : Out := jumpIf .po a16 s

/-- JPE a16 (R220, R223). -/
def execJpe (a16 : Word) (s : State) : Out := jumpIf .pe a16 s

/-- JP a16 (R220, R223). -/
def execJp (a16 : Word) (s : State) : Out := jumpIf .p a16 s

/-- JM a16 (R220, R223). -/
def execJm (a16 : Word) (s : State) : Out := jumpIf .m a16 s

/-- CALL a16 (R224): PC is already the address of the instruction after it. -/
def execCall (a16 : Word) (s : State) : Out := (pushPCAndJump a16 s).done

/-- CNZ a16 (R220, R225). -/
def execCnz (a16 : Word) (s : State) : Out := callIf .nz a16 s

/-- CZ a16 (R220, R225). -/
def execCz (a16 : Word) (s : State) : Out := callIf .z a16 s

/-- CNC a16 (R220, R225). -/
def execCnc (a16 : Word) (s : State) : Out := callIf .nc a16 s

/-- CC a16 (R220, R225). -/
def execCc (a16 : Word) (s : State) : Out := callIf .c a16 s

/-- CPO a16 (R220, R225). -/
def execCpo (a16 : Word) (s : State) : Out := callIf .po a16 s

/-- CPE a16 (R220, R225). -/
def execCpe (a16 : Word) (s : State) : Out := callIf .pe a16 s

/-- CP a16 (R220, R225). -/
def execCp (a16 : Word) (s : State) : Out := callIf .p a16 s

/-- CM a16 (R220, R225). -/
def execCm (a16 : Word) (s : State) : Out := callIf .m a16 s

/-- RET (R226). -/
def execRet (s : State) : Out := (popPC s).done

/-- RNZ (R220, R227). -/
def execRnz (s : State) : Out := returnIf .nz s

/-- RZ (R220, R227). -/
def execRz (s : State) : Out := returnIf .z s

/-- RNC (R220, R227). -/
def execRnc (s : State) : Out := returnIf .nc s

/-- RC (R220, R227). -/
def execRc (s : State) : Out := returnIf .c s

/-- RPO (R220, R227). -/
def execRpo (s : State) : Out := returnIf .po s

/-- RPE (R220, R227). -/
def execRpe (s : State) : Out := returnIf .pe s

/-- RP (R220, R227). -/
def execRp (s : State) : Out := returnIf .p s

/-- RM (R220, R227). -/
def execRm (s : State) : Out := returnIf .m s

/-- RST n (R228): INTE is not changed. -/
def execRst (n : BitVec 3) (s : State) : Out := (pushPCAndJump (restartAddr n) s).done

end Sys2Proof.Machine
end

