-- ==== Sys2Proof/Machine/Control.lean ====
section
/-! DEFINITION. The control instructions (spec 47 R265 to R271). -/

namespace Sys2Proof.Machine

/-- NOP (R265), and the seven bytes that decode to it (R266). -/
def execNop (s : State) : Out := .next s

/-- HLT (R267). -/
def execHlt (s : State) : Out := .next { s with halted := true }

/-- EI (R268): in force when the step ends. -/
def execEi (s : State) : Out := .next { s with inte := true }

/-- DI (R269). -/
def execDi (s : State) : Out := .next { s with inte := false }

/-- STC (R270): CY only. -/
def execStc (s : State) : Out := .next { s with flags := { s.flags with cy := true } }

/-- CMC (R271): CY only. -/
def execCmc (s : State) : Out := .next { s with flags := { s.flags with cy := !s.flags.cy } }

end Sys2Proof.Machine
end

