-- ==== Sys2Proof/Machine/Io.lean ====
section
/-! DEFINITION. The I/O instructions and the port address decoder (spec 46 R255 to R258). -/

namespace Sys2Proof.Machine

/-- The port address decoder (R255, R258): a number of N_PORTS or more selects no cell. -/
def selectPort (p8 : Byte) (s : State) : Res Nat :=
  if s.cfg.nPorts ≤ p8.toNat then .fault (.portOutOfRange p8 s) else .ok p8.toNat s

/-- IN p8 (R256). -/
def execIn (p8 : Byte) (s : State) : Out :=
  (selectPort p8 s).andThen fun k s => .next { s with a := s.ports.read k }

/-- OUT p8 (R257): the range check comes before the ignore test. -/
def execOut (p8 : Byte) (s : State) : Out :=
  (selectPort p8 s).andThen fun k s =>
    if s.cfg.outIgnoredPorts.contains p8 then .next s
    else .next { s with ports := s.ports.write k s.a }

end Sys2Proof.Machine
end

