-- ==== Sys2Proof/Machine/Logical.lean ====
section
/-! DEFINITION. The logical and compare instructions (spec 41 R160 to R169). -/

namespace Sys2Proof.Machine

/-- ANA s (R161): CY is 0. -/
def execAna (src : R8) (s : State) : Out :=
  (readR8 src s).andThen fun v s => .next (s.setAlu { value := s.a &&& v, carry := false })

/-- ANI d8 (R162). -/
def execAni (d8 : Byte) (s : State) : Out := .next (s.setAlu { value := s.a &&& d8, carry := false })

/-- XRA s (R163): CY is 0. -/
def execXra (src : R8) (s : State) : Out :=
  (readR8 src s).andThen fun v s => .next (s.setAlu { value := s.a ^^^ v, carry := false })

/-- XRI d8 (R164). -/
def execXri (d8 : Byte) (s : State) : Out := .next (s.setAlu { value := s.a ^^^ d8, carry := false })

/-- ORA s (R165): CY is 0. -/
def execOra (src : R8) (s : State) : Out :=
  (readR8 src s).andThen fun v s => .next (s.setAlu { value := s.a ||| v, carry := false })

/-- ORI d8 (R166). -/
def execOri (d8 : Byte) (s : State) : Out := .next (s.setAlu { value := s.a ||| d8, carry := false })

/-- CMA (R167): no flag. -/
def execCma (s : State) : Out := .next { s with a := s.a ^^^ 0xFF }

/-- CMP s (R168): as SUB, the difference discarded. -/
def execCmp (src : R8) (s : State) : Out :=
  (readR8 src s).andThen fun v s =>
    .next (s.setFlags (sub8 s.a v false).value (sub8 s.a v false).carry)

/-- CPI d8 (R169). -/
def execCpi (d8 : Byte) (s : State) : Out :=
  .next (s.setFlags (sub8 s.a d8 false).value (sub8 s.a d8 false).carry)

end Sys2Proof.Machine
end

