-- ==== Sys2Proof/WellFormed.lean ====
section
/-! DEFINITION. Which instruction terms the block has an encoding for. -/

namespace Sys2Proof

/-- Every term of `Instr` is an instruction of the block but MOV M,M, whose byte 0x76 is HLT: "M-to-M
being illegal (occupied by HALT)" (30 R104, 43 R191). The operand types rule out every other pairing
of 60 R284 (ADD with SP, LXI with M, LDAX H, PUSH SP). -/
def Instr.wf : Instr → Bool
  | .mov .m .m => false
  | _ => true

end Sys2Proof
end

