-- ==== Sys2Proof/Decode.lean ====
section
/-! DEFINITION. The decoder: a total function of the first byte and its operand bytes (spec 30 R91,
R95 to R112), and after it the encoder, written from the same field tables. -/

namespace Sys2Proof

open Sys2Proof.Machine (joinBytes hiByte loByte)

/-- x = op[7:6], the quadrant (30 R95). -/
def fieldX (op : Byte) : Fin 4 := ⟨op.toNat / 64 % 4, Nat.mod_lt _ (by decide)⟩

/-- y = op[5:3]: ddd, ccc, nnn or aaa (30 R95). -/
def fieldY (op : Byte) : Fin 8 := ⟨op.toNat / 8 % 8, Nat.mod_lt _ (by decide)⟩

/-- z = op[2:0]: sss or the sub-opcode (30 R95). -/
def fieldZ (op : Byte) : Fin 8 := ⟨op.toNat % 8, Nat.mod_lt _ (by decide)⟩

/-- The register codes of 30 R96. -/
def R8.ofCode : Fin 8 → R8
  | 0 => .b
  | 1 => .c
  | 2 => .d
  | 3 => .e
  | 4 => .h
  | 5 => .l
  | 6 => .m
  | 7 => .a

/-- The length of an instruction, from its first byte alone (30 R100). -/
def instrLength (op : Byte) : Nat :=
  match fieldX op, fieldZ op, fieldY op with
  | 0, 1, y => if y.val % 2 = 0 then 3 else 1
  | 0, 2, y => if 4 ≤ y.val then 3 else 1
  | 0, 6, _ => 2
  | 3, 2, _ => 3
  | 3, 3, 0 => 3
  | 3, 3, 1 => 3
  | 3, 3, 2 => 2
  | 3, 3, 3 => 2
  | 3, 4, _ => 3
  | 3, 5, y => if y.val % 2 = 1 then 3 else 1
  | 3, 6, _ => 2
  | _, _, _ => 1

/-- Quadrant 0 by z and y (30 R103). -/
def decodeQuadrant0 (z y : Fin 8) (d8 : Byte) (d16 : Word) : Instr :=
  match z, y with
  | 0, _ => .nop
  | 1, 0 => .lxi .bc d16
  | 1, 1 => .dad .bc
  | 1, 2 => .lxi .de d16
  | 1, 3 => .dad .de
  | 1, 4 => .lxi .hl d16
  | 1, 5 => .dad .hl
  | 1, 6 => .lxi .sp d16
  | 1, 7 => .dad .sp
  | 2, 0 => .stax .bc
  | 2, 1 => .ldax .bc
  | 2, 2 => .stax .de
  | 2, 3 => .ldax .de
  | 2, 4 => .shld d16
  | 2, 5 => .lhld d16
  | 2, 6 => .sta d16
  | 2, 7 => .lda d16
  | 3, 0 => .inx .bc
  | 3, 1 => .dcx .bc
  | 3, 2 => .inx .de
  | 3, 3 => .dcx .de
  | 3, 4 => .inx .hl
  | 3, 5 => .dcx .hl
  | 3, 6 => .inx .sp
  | 3, 7 => .dcx .sp
  | 4, _ => .inr (R8.ofCode y)
  | 5, _ => .dcr (R8.ofCode y)
  | 6, _ => .mvi (R8.ofCode y) d8
  | 7, 0 => .rlc
  | 7, 1 => .rrc
  | 7, 2 => .ral
  | 7, 3 => .rar
  | 7, 4 => .daa
  | 7, 5 => .cma
  | 7, 6 => .stc
  | 7, 7 => .cmc

/-- Quadrant 1: MOV, and HLT in the M,M slot (30 R104). -/
def decodeQuadrant1 (z y : Fin 8) : Instr :=
  match y, z with
  | 6, 6 => .hlt
  | _, _ => .mov (R8.ofCode y) (R8.ofCode z)

/-- Quadrant 2: the ALU operation aaa = y on the operand sss = z (30 R98, R105). -/
def decodeQuadrant2 (z y : Fin 8) : Instr :=
  match y with
  | 0 => .add (R8.ofCode z)
  | 1 => .adc (R8.ofCode z)
  | 2 => .sub (R8.ofCode z)
  | 3 => .sbb (R8.ofCode z)
  | 4 => .ana (R8.ofCode z)
  | 5 => .xra (R8.ofCode z)
  | 6 => .ora (R8.ofCode z)
  | 7 => .cmp (R8.ofCode z)

/-- Quadrant 3 by z and y (30 R106), with the aliases of R110 and R111. -/
def decodeQuadrant3 (z y : Fin 8) (d8 : Byte) (d16 : Word) : Instr :=
  match z, y with
  | 0, 0 => .rnz
  | 0, 1 => .rz
  | 0, 2 => .rnc
  | 0, 3 => .rc
  | 0, 4 => .rpo
  | 0, 5 => .rpe
  | 0, 6 => .rp
  | 0, 7 => .rm
  | 1, 0 => .pop .bc
  | 1, 1 => .ret
  | 1, 2 => .pop .de
  | 1, 3 => .ret
  | 1, 4 => .pop .hl
  | 1, 5 => .pchl
  | 1, 6 => .pop .psw
  | 1, 7 => .sphl
  | 2, 0 => .jnz d16
  | 2, 1 => .jz d16
  | 2, 2 => .jnc d16
  | 2, 3 => .jc d16
  | 2, 4 => .jpo d16
  | 2, 5 => .jpe d16
  | 2, 6 => .jp d16
  | 2, 7 => .jm d16
  | 3, 0 => .jmp d16
  | 3, 1 => .jmp d16
  | 3, 2 => .out d8
  | 3, 3 => .inp d8
  | 3, 4 => .xthl
  | 3, 5 => .xchg
  | 3, 6 => .di
  | 3, 7 => .ei
  | 4, 0 => .cnz d16
  | 4, 1 => .cz d16
  | 4, 2 => .cnc d16
  | 4, 3 => .cc d16
  | 4, 4 => .cpo d16
  | 4, 5 => .cpe d16
  | 4, 6 => .cp d16
  | 4, 7 => .cm d16
  | 5, 0 => .push .bc
  | 5, 1 => .call d16
  | 5, 2 => .push .de
  | 5, 3 => .call d16
  | 5, 4 => .push .hl
  | 5, 5 => .call d16
  | 5, 6 => .push .psw
  | 5, 7 => .call d16
  | 6, 0 => .adi d8
  | 6, 1 => .aci d8
  | 6, 2 => .sui d8
  | 6, 3 => .sbi d8
  | 6, 4 => .ani d8
  | 6, 5 => .xri d8
  | 6, 6 => .ori d8
  | 6, 7 => .cpi d8
  | 7, n => .rst (BitVec.ofFin n)

/-- The instruction of a first byte and its operand bytes: `b1` is the second byte, `b2` the third;
a shorter instruction ignores them (30 R91, R99). Total: every byte is mapped (30 R112). -/
def decodeOp (op b1 b2 : Byte) : Instr :=
  match fieldX op with
  | 0 => decodeQuadrant0 (fieldZ op) (fieldY op) b1 (joinBytes b2 b1)
  | 1 => decodeQuadrant1 (fieldZ op) (fieldY op)
  | 2 => decodeQuadrant2 (fieldZ op) (fieldY op)
  | 3 => decodeQuadrant3 (fieldZ op) (fieldY op) b1 (joinBytes b2 b1)

/-- Why a byte sequence is not an instruction: it ends before the instruction does (60 R282 kind
fetch: "the instruction stream requires more bytes than remain"). -/
inductive DecodeError where
  | noOpcode
  | operandBytesMissing (op : Byte)
  deriving DecidableEq, Repr

/-- The decoder: the first instruction of the bytes and the bytes after it. -/
def decode : List Byte → Except DecodeError (Instr × List Byte)
  | [] => .error .noOpcode
  | op :: rest =>
    match instrLength op, rest with
    | 1, _ => .ok (decodeOp op 0 0, rest)
    | 2, b1 :: rest' => .ok (decodeOp op b1 0, rest')
    | 3, b1 :: b2 :: rest' => .ok (decodeOp op b1 b2, rest')
    | _, _ => .error (.operandBytesMissing op)

/-- The bytes of an instruction whose bits are `w`, three of them, the first in bits 7..0: the longest
instruction has three, and every bit at or above `nbits` is 0. -/
def wordBytes (nbits w : Nat) : List Byte :=
  let v := w % 2 ^ nbits
  [BitVec.ofNat 8 v, BitVec.ofNat 8 (v / 256), BitVec.ofNat 8 (v / 65536)]

/-- What the decoder reads from the bits of an opcode-table row. -/
def decodeTableWord (nbits w : Nat) : Option Instr :=
  match decode (wordBytes nbits w) with
  | .ok (i, _) => some i
  | .error _ => none

/-! ## The encoder -/

/-- The first byte with fields x, y, z (30 R95). -/
def opByte (x : Fin 4) (y z : Fin 8) : Byte := BitVec.ofNat 8 (64 * x.val + 8 * y.val + z.val)

/-- The register codes of 30 R96. -/
def R8.code : R8 → Fin 8
  | .b => 0
  | .c => 1
  | .d => 2
  | .e => 3
  | .h => 4
  | .l => 5
  | .m => 6
  | .a => 7

/-- rp in bits 5 4 with bit 3 clear, as a y field (30 R97). -/
def Pair.code : Pair → Fin 8
  | .bc => 0
  | .de => 2
  | .hl => 4
  | .sp => 6

/-- rp in bits 5 4 with bit 3 set, as a y field (30 R97, R103). -/
def Pair.codeQ : Pair → Fin 8
  | .bc => 1
  | .de => 3
  | .hl => 5
  | .sp => 7

/-- rp of PUSH and POP, code 3 being PSW (30 R97). -/
def StackPair.code : StackPair → Fin 8
  | .bc => 0
  | .de => 2
  | .hl => 4
  | .psw => 6

/-- The first byte of an instruction: its defined encoding, never one of the twelve undefined bytes
(30 R103 to R107). MOV M,M has no encoding; the M,M slot is given for it, which is HLT's byte. -/
def firstByte : Instr → Byte
  | .add r => opByte 2 0 r.code
  | .adc r => opByte 2 1 r.code
  | .adi _ => 0xC6
  | .aci _ => 0xCE
  | .sub r => opByte 2 2 r.code
  | .sbb r => opByte 2 3 r.code
  | .sui _ => 0xD6
  | .sbi _ => 0xDE
  | .inr r => opByte 0 r.code 4
  | .dcr r => opByte 0 r.code 5
  | .dad p => opByte 0 p.codeQ 1
  | .inx p => opByte 0 p.code 3
  | .dcx p => opByte 0 p.codeQ 3
  | .daa => 0x27
  | .ana r => opByte 2 4 r.code
  | .ani _ => 0xE6
  | .xra r => opByte 2 5 r.code
  | .xri _ => 0xEE
  | .ora r => opByte 2 6 r.code
  | .ori _ => 0xF6
  | .cma => 0x2F
  | .cmp r => opByte 2 7 r.code
  | .cpi _ => 0xFE
  | .rlc => 0x07
  | .rrc => 0x0F
  | .ral => 0x17
  | .rar => 0x1F
  | .mov dst src => opByte 1 dst.code src.code
  | .mvi dst _ => opByte 0 dst.code 6
  | .lxi p _ => opByte 0 p.code 1
  | .lda _ => 0x3A
  | .sta _ => 0x32
  | .ldax .bc => 0x0A
  | .ldax .de => 0x1A
  | .stax .bc => 0x02
  | .stax .de => 0x12
  | .lhld _ => 0x2A
  | .shld _ => 0x22
  | .sphl => 0xF9
  | .pchl => 0xE9
  | .xchg => 0xEB
  | .xthl => 0xE3
  | .jmp _ => 0xC3
  | .jnz _ => 0xC2
  | .jz _ => 0xCA
  | .jnc _ => 0xD2
  | .jc _ => 0xDA
  | .jpo _ => 0xE2
  | .jpe _ => 0xEA
  | .jp _ => 0xF2
  | .jm _ => 0xFA
  | .call _ => 0xCD
  | .cnz _ => 0xC4
  | .cz _ => 0xCC
  | .cnc _ => 0xD4
  | .cc _ => 0xDC
  | .cpo _ => 0xE4
  | .cpe _ => 0xEC
  | .cp _ => 0xF4
  | .cm _ => 0xFC
  | .ret => 0xC9
  | .rnz => 0xC0
  | .rz => 0xC8
  | .rnc => 0xD0
  | .rc => 0xD8
  | .rpo => 0xE0
  | .rpe => 0xE8
  | .rp => 0xF0
  | .rm => 0xF8
  | .rst n => opByte 3 n.toFin 7
  | .push p => opByte 3 p.code 5
  | .pop p => opByte 3 p.code 1
  | .inp _ => 0xDB
  | .out _ => 0xD3
  | .nop => 0x00
  | .hlt => 0x76
  | .ei => 0xFB
  | .di => 0xF3
  | .stc => 0x37
  | .cmc => 0x3F

/-- The operand bytes after the first byte, a 16-bit operand low byte first (30 R94, R95, R99). -/
def operandBytes : Instr → List Byte
  | .adi v | .aci v | .sui v | .sbi v | .ani v | .xri v | .ori v | .cpi v => [v]
  | .mvi _ v => [v]
  | .inp p | .out p => [p]
  | .lxi _ v => [loByte v, hiByte v]
  | .lda a | .sta a | .lhld a | .shld a => [loByte a, hiByte a]
  | .jmp a | .jnz a | .jz a | .jnc a | .jc a | .jpo a | .jpe a | .jp a | .jm a => [loByte a, hiByte a]
  | .call a | .cnz a | .cz a | .cnc a | .cc a | .cpo a | .cpe a | .cp a | .cm a => [loByte a, hiByte a]
  | .add _ | .adc _ | .sub _ | .sbb _ | .ana _ | .xra _ | .ora _ | .cmp _ => []
  | .inr _ | .dcr _ | .dad _ | .inx _ | .dcx _ | .daa | .cma | .rlc | .rrc | .ral | .rar => []
  | .mov _ _ | .ldax _ | .stax _ | .sphl | .pchl | .xchg | .xthl => []
  | .ret | .rnz | .rz | .rnc | .rc | .rpo | .rpe | .rp | .rm | .rst _ | .push _ | .pop _ => []
  | .nop | .hlt | .ei | .di | .stc | .cmc => []

/-- The bytes of an instruction, the first at the lowest address. -/
def encode (i : Instr) : List Byte := firstByte i :: operandBytes i

/-- The number of bytes of an instruction, 1 to 3 (30 R94). -/
def Instr.length (i : Instr) : Nat := (encode i).length

end Sys2Proof
end

