-- ==== Sys2Proof/Machine/Move.lean ====
section
/-! DEFINITION. The data movement instructions (spec 43 R190 to R204). None writes a flag. -/

namespace Sys2Proof.Machine

/-- MOV d,s (R191, R192). MOV M,M is no instruction (its byte is HLT) and no byte decodes to it: the
term has the fault of 60 R284. -/
def execMov (dst src : R8) (s : State) : Out :=
  if dst = .m ∧ src = .m then .fault (.unsupportedOperand (firstByte (.mov .m .m)) .m s)
  else (readR8 src s).andThen fun v s => (writeR8 dst v s).done

/-- MVI d,d8 (R193). -/
def execMvi (dst : R8) (d8 : Byte) (s : State) : Out := (writeR8 dst d8 s).done

/-- LXI rp,d16 (R194). -/
def execLxi (rp : Pair) (d16 : Word) (s : State) : Out := .next (s.setPair rp d16)

/-- LDA a16 (R195). -/
def execLda (a16 : Word) (s : State) : Out :=
  (memRead a16 s).andThen fun v s => .next { s with a := v }

/-- STA a16 (R196). -/
def execSta (a16 : Word) (s : State) : Out := (memWrite a16 s.a s).done

/-- LDAX rp (R197). -/
def execLdax (rp : IndexPair) (s : State) : Out :=
  (memRead (s.indexPair rp) s).andThen fun v s => .next { s with a := v }

/-- STAX rp (R198). -/
def execStax (rp : IndexPair) (s : State) : Out := (memWrite (s.indexPair rp) s.a s).done

/-- LHLD a16 (R199): L is loaded before the second read. -/
def execLhld (a16 : Word) (s : State) : Out :=
  (memRead a16 s).andThen fun lo s =>
    (nextAddr .dataRead a16 { s with l := lo }).andThen fun a16' s =>
      (memRead a16' s).andThen fun hi s => .next { s with h := hi }

/-- SHLD a16 (R200): L at a16, then H at the next address. -/
def execShld (a16 : Word) (s : State) : Out := (memWrite16 a16 s.hl s).done

/-- SPHL (R201). -/
def execSphl (s : State) : Out := .next (s.setSP s.hl)

/-- PCHL (R202, 44 R229). -/
def execPchl (s : State) : Out := .next (s.setPC s.hl)

/-- XCHG (R203). -/
def execXchg (s : State) : Out := .next ((s.setDE s.hl).setHL s.de)

/-- XTHL (R204): both reads, then both writes, then HL; SP is not changed. -/
def execXthl (s : State) : Out :=
  (memRead16 s.sp s).andThen fun v s =>
    (memWrite16 s.sp s.hl s).andThen fun _ s => .next (s.setHL v)

end Sys2Proof.Machine
end

