-- ==== Sys2Proof/Machine/Rotate.lean ====
section
/-! DEFINITION. The rotate instructions, which write all four flags (spec 42 R180 to R184; 00 R3 (c)). -/

namespace Sys2Proof.Machine

/-- RLC (R181). -/
def execRlc (s : State) : Out := .next (s.setAlu (rotateLeft s.a))

/-- RRC (R182). -/
def execRrc (s : State) : Out := .next (s.setAlu (rotateRight s.a))

/-- RAL (R183). -/
def execRal (s : State) : Out := .next (s.setAlu (rotateLeftThroughCarry s.a s.flags.cy))

/-- RAR (R184). -/
def execRar (s : State) : Out := .next (s.setAlu (rotateRightThroughCarry s.a s.flags.cy))

end Sys2Proof.Machine
end

