-- ==== Sys2Proof/Machine/Stack.lean ====
section
/-! DEFINITION. The stack instructions (spec 45 R240 to R245). -/

namespace Sys2Proof.Machine

/-- PUSH rp and PUSH PSW (R241, R242): high byte first. -/
def execPush (rp : StackPair) (s : State) : Out := (push16 (s.stackPair rp) s).done

/-- POP rp and POP PSW (R243, R244): the destination is written after both reads. -/
def execPop (rp : StackPair) (s : State) : Out :=
  (pop16 s).andThen fun v s => .next (s.setStackPair rp v)

end Sys2Proof.Machine
end

