-- ==== Sys2Proof/Machine/Fetch.lean ====
section
/-! DEFINITION. Fetching an instruction: the opcode fetch, the DISPATCH lookup and the operand fetches
(spec 30 R90 to R92), and placing an instruction where the next step fetches it. -/

namespace Sys2Proof.Machine

/-- Whether DISPATCH has an entry for the byte: every byte under the default configuration (30 R112);
0xDD, 0xED and 0xFD have none under UNDOC_CALL_POLICY = fault (30 R111). -/
def dispatchMaps (cfg : Config) (op : Byte) : Bool :=
  !cfg.unmappedOpcodes.contains op &&
    !(decide (cfg.undocCall = .fault) && (decide (op = 0xDD) || decide (op = 0xED) || decide (op = 0xFD)))

/-- The operand bytes of an instruction of the given length, the second byte and the third; an absent
one is 0 and is not read by the decoder. -/
def fetchOperands (length : Nat) (s : State) : Res (Byte × Byte) :=
  match length with
  | 2 => (fetchByte s).bind fun b1 s => .ok (b1, 0) s
  | 3 => (fetchByte s).bind fun b1 s => (fetchByte s).bind fun b2 s => .ok (b1, b2) s
  | _ => .ok (0, 0) s

/-- The opcode fetch, the DISPATCH lookup, and the operand fetches with which every handler begins
(30 R90, R92; 20 R80; log 8). PC ends past the instruction. -/
def fetchInstr (s : State) : Res Instr :=
  (fetchByte s).bind fun op s =>
    if dispatchMaps s.cfg op then
      (fetchOperands (instrLength op) s).bind fun b s => .ok (decodeOp op b.1 b.2) s
    else .fault (.unknownOpcode op (s.pc - 1) s)

/-- The bytes stored from an address on, wrapping at the top of the address space. -/
def storeBytes (mem : Cells) (addr : Word) : List Byte → Cells
  | [] => mem
  | b :: rest => storeBytes (mem.write addr.toNat b) (addr + 1) rest

/-- The state with bytes where the next step fetches, and with the fetch open to them: the block
running, and PC not noted as run out of 0xFFFF (log 9). -/
def placeAtPC (s : State) (bytes : List Byte) : State :=
  { s with mem := storeBytes s.mem s.pc bytes, halted := false, pcWrapped := false }

end Sys2Proof.Machine
end

