-- ==== Sys2Proof/Machine/Timing.lean ====
section
/-! DEFINITION. The cycle count a step reports (spec 70 R335, R336). It is an output: no rule of the
block reads it. -/

namespace Sys2Proof.Machine

/-- A cost that does not depend on the path. -/
def flat (n : Nat) : CycleCost := { taken := BitVec.ofNat 8 n, notTaken := BitVec.ofNat 8 n }

/-- The cost of a form with an 8-bit operand, which differs for M. -/
def byOperand (o : R8) (register memory : Nat) : CycleCost :=
  if o = .m then flat memory else flat register

/-- The default CYCLES table (70 R336). -/
def defaultCycles : Instr → CycleCost
  | .nop | .ei | .di | .stc | .cmc | .cma | .daa | .rlc | .rrc | .ral | .rar | .xchg => flat 4
  | .mov dst src => if dst = .m ∨ src = .m then flat 7 else flat 5
  | .hlt => flat 7
  | .mvi dst _ => byOperand dst 7 10
  | .lxi _ _ => flat 10
  | .ldax _ | .stax _ => flat 7
  | .lda _ | .sta _ => flat 13
  | .lhld _ | .shld _ => flat 16
  | .add r | .adc r | .sub r | .sbb r | .ana r | .xra r | .ora r | .cmp r => byOperand r 4 7
  | .adi _ | .aci _ | .sui _ | .sbi _ | .ani _ | .xri _ | .ori _ | .cpi _ => flat 7
  | .inr r | .dcr r => byOperand r 5 10
  | .inx _ | .dcx _ => flat 5
  | .dad _ => flat 10
  | .jmp _ | .jnz _ | .jz _ | .jnc _ | .jc _ | .jpo _ | .jpe _ | .jp _ | .jm _ => flat 10
  | .call _ => flat 17
  | .cnz _ | .cz _ | .cnc _ | .cc _ | .cpo _ | .cpe _ | .cp _ | .cm _ => { taken := 17, notTaken := 11 }
  | .ret => flat 10
  | .rnz | .rz | .rnc | .rc | .rpo | .rpe | .rp | .rm => { taken := 11, notTaken := 5 }
  | .rst _ => flat 11
  | .pchl | .sphl => flat 5
  | .push _ => flat 11
  | .pop _ => flat 10
  | .xthl => flat 18
  | .inp _ | .out _ => flat 10

/-- The condition an instruction tests, if it tests one (44 R220). -/
def Instr.condition : Instr → Option Cond
  | .jnz _ | .cnz _ | .rnz => some .nz
  | .jz _ | .cz _ | .rz => some .z
  | .jnc _ | .cnc _ | .rnc => some .nc
  | .jc _ | .cc _ | .rc => some .c
  | .jpo _ | .cpo _ | .rpo => some .po
  | .jpe _ | .cpe _ | .rpe => some .pe
  | .jp _ | .cp _ | .rp => some .p
  | .jm _ | .cm _ | .rm => some .m
  | .add _ | .adc _ | .adi _ | .aci _ | .sub _ | .sbb _ | .sui _ | .sbi _ | .inr _ | .dcr _ => none
  | .dad _ | .inx _ | .dcx _ | .daa | .ana _ | .ani _ | .xra _ | .xri _ | .ora _ | .ori _ => none
  | .cma | .cmp _ | .cpi _ | .rlc | .rrc | .ral | .rar | .mov _ _ | .mvi _ _ | .lxi _ _ => none
  | .lda _ | .sta _ | .ldax _ | .stax _ | .lhld _ | .shld _ | .sphl | .pchl | .xchg | .xthl => none
  | .jmp _ | .call _ | .ret | .rst _ | .push _ | .pop _ | .inp _ | .out _ => none
  | .nop | .hlt | .ei | .di | .stc | .cmc => none

/-- Whether the taken path is the one that runs: an instruction without a condition is taken. -/
def Instr.taken (i : Instr) (f : Flags) : Bool :=
  match Instr.condition i with
  | none => true
  | some cond => f.holds cond

/-- CYCLES: the default cost, unless the configuration overrides it for the first byte. An alias byte
has the cost of the instruction it aliases (30 R108). -/
def cycleEntry (cfg : Config) (i : Instr) : CycleCost :=
  match cfg.cycleOverrides.find? (fun e => decide (e.1 = firstByte i)) with
  | some e => e.2
  | none => defaultCycles i

/-- The count an instruction reports, from the flags its condition tests. -/
def cycleCost (i : Instr) (s : State) : Byte :=
  if Instr.taken i s.flags then (cycleEntry s.cfg i).taken else (cycleEntry s.cfg i).notTaken

/-- `return Continuing(entry.cycles for the path taken)` (30 R90): the report of a step whose
instruction ran from `before`. A fault reports no cycles. -/
def complete (i : Instr) (before : State) (o : Out) : Out :=
  match o with
  | .next t => .next { t with report := .continuing (cycleCost i before) }
  | .fault f => .fault f
  | .refused r => .refused r

/-- A step while HALTED = 1: `return Halted`, with no state changed (30 R90). -/
def reportHalted (s : State) : Out := .next { s with report := .halted }

end Sys2Proof.Machine
end

