-- ==== Sys2Proof/Machine/Step.lean ====
section
/-! DEFINITION. The step (spec 30 R90). -/

namespace Sys2Proof.Machine

/-- One activation of the block: the HALTED test, the fetch, the instruction, the report (30 R90, R92). -/
def step (s : State) : Host.Outcome State Fault Refusal :=
  if s.halted then reportHalted s
  else (fetchInstr s).andThen fun i t => complete i t (exec i t)

/-- `s` with an instruction of an opcode-table row stored at PC. -/
def State.withFetchWord (s : State) (nbits w : Nat) : State := placeAtPC s (wordBytes nbits w)

end Sys2Proof.Machine
end

