-- ==== Sys2Proof/Machine/HostInterface.lean ====
section
/-! DEFINITION. The transactions of the host between steps (spec 00 R6, 46 R259, 60 R292, R300, R301,
70 R320). The host has no other way to act on the block. -/

namespace Sys2Proof.Machine

/-- Reset, the document's `new(memory_image, debug_mode)`: it carries the image, and `debug_mode` has no
effect (70 R320, 60 R310). The configuration is kept but for MEM_SIZE (70 R324). `regs` is RESET_REGS, the
model's argument and not the host's (70 R323; log 3). An image of no byte or more than 65536 is outside the
contract (70 R322, 93 U29). -/
def hostReset (regs : ResetRegs) (image : List Byte) (s : State) : Out :=
  if 1 ≤ image.length ∧ image.length ≤ 65536 then .next (State.resetImage s.cfg regs image)
  else .refused (.imageOutOfContract image.length)

/-- An interrupt request with vector `n`, made between steps (60 R291 to R294). -/
def interrupt (n : BitVec 3) (s : State) : Out :=
  if s.halted || (s.cfg.intGatedByInte && !s.inte) then .next { s with report := .ignored }
  else (acceptInterrupt n s).andThen fun _ t => .next { t with report := .accepted s.cfg.intCycles }

/-- `set_input_port` (46 R259): not subject to OUT_IGNORED_PORTS. -/
def setInputPort (port v : Byte) (s : State) : Out :=
  if port.toNat < s.cfg.nPorts then .next { s with ports := s.ports.write port.toNat v }
  else .refused (.hostPortOutOfContract port)

/-- `read_output_port` (46 R259): partial, outside the contract from N_PORTS on. -/
def readOutputPort (port : Byte) (s : State) : Option Byte :=
  if port.toNat < s.cfg.nPorts then some (s.ports.read port.toNat) else none

/-- The bytes of `n` addresses from `base` on. -/
def bytesFrom (mem : Cells) (base : Nat) : Nat → List Byte
  | 0 => []
  | n + 1 => mem.read base :: bytesFrom mem (base + 1) n

/-- `frame_view` (60 R301), with FRAME_BASE and FRAME_LEN as arguments; they must lie in memory. -/
def frameView (base len : Nat) (s : State) : Option (List Byte) :=
  if base + len ≤ s.cfg.memSize then some (bytesFrom s.mem base len) else none

/-- The status outputs INTE and HALTED (00 R6). -/
def statusOutputs (s : State) : Bool × Bool := (s.inte, s.halted)

/-- The transactions that may change the state, with what each carries (00 R6, 60 R300). -/
inductive Transaction where
  | reset (image : List Byte)
  | step
  | interrupt (n : BitVec 3)
  | portLoad (port v : Byte)
  deriving DecidableEq, Repr

/-- One transaction; RESET_REGS is the model's argument, read by a reset only (70 R323). -/
def transact (regs : ResetRegs) (t : Transaction) (s : State) : Out :=
  match t with
  | .reset image => hostReset regs image s
  | .step => step s
  | .interrupt n => interrupt n s
  | .portLoad port v => setInputPort port v s

end Sys2Proof.Machine
end

