-- ==== Sys2Proof/Safety.lean ====
section
/-! DEFINITION. The terms in which claims are stated: when an access succeeds and what it leaves, the
operands' values, the footprint of each instruction as the tables of spec 10 R20, R33, R29 and 44 R229
give it, and the invariant of the machine. -/

namespace Sys2Proof.Machine

/-! ## When accesses succeed, and what they leave -/

/-- The next stream read finds a byte: PC is below MEM_SIZE and, under TOP_OF_SPACE_POLICY = fault, has
not run out of the top of the space (00 R11, 10 R28). -/
def State.fetchOpen (s : State) : Prop :=
  (Config.topFaults s.cfg && s.pcWrapped) = false ∧ s.pc.toNat < s.cfg.memSize

/-- The state after a stream read (00 R11). -/
def State.afterFetch (s : State) : State :=
  { s with mar := s.pc, pc := s.pc + 1, pcWrapped := decide (s.pc = 0xFFFF) }

/-- `n` stream reads in a row find their bytes. -/
def State.streamOpen : Nat → State → Prop
  | 0, _ => True
  | n + 1, s => s.fetchOpen ∧ State.streamOpen n s.afterFetch

/-- The state after `n` stream reads. -/
def State.afterFetches : Nat → State → State
  | 0, s => s
  | n + 1, s => State.afterFetches n s.afterFetch

/-- The `n` bytes at PC and after it, wrapping at the top of the space. -/
def State.streamBytes : Nat → State → List Byte
  | 0, _ => []
  | n + 1, s => s.mem.read s.pc.toNat :: State.streamBytes n s.afterFetch

/-- A byte access at the address succeeds (00 R13, R14; 20 R72). -/
def State.byteOpen (s : State) (addr : Word) : Prop := addr.toNat < s.cfg.memSize

/-- A 16-bit data access at the address finds both its bytes (00 R13, R14; 93 U17). -/
def State.wordOpen (s : State) (addr : Word) : Prop :=
  addr.toNat < s.cfg.memSize ∧ (addr + 1).toNat < s.cfg.memSize ∧
    (Config.topFaults s.cfg && decide (addr = 0xFFFF)) = false

/-- The 16-bit datum at an address, low byte at the lower address (20 R64). -/
def State.wordAt (s : State) (addr : Word) : Word :=
  joinBytes (s.mem.read (addr + 1).toNat) (s.mem.read addr.toNat)

/-- A 16-bit push finds room: SP is at least 2 and both bytes lie in memory (00 R15, 45 R241). -/
def State.pushOpen (s : State) : Prop := 2 ≤ s.sp.toNat ∧ s.sp.toNat ≤ s.cfg.memSize

/-- The state after `Push16(v)`: MEM[s-1] = v[15:8], MEM[s-2] = v[7:0], SP = s - 2 (00 R15). -/
def State.afterPush (s : State) (v : Word) : State :=
  { s with
    sp := s.sp - 2
    spWrapped := false
    mar := s.sp - 2
    mem := (s.mem.write (s.sp - 1).toNat (hiByte v)).write (s.sp - 2).toNat (loByte v) }

/-- A 16-bit pop finds both its bytes (00 R16, 10 R30, 93 U17). -/
def State.popOpen (s : State) : Prop :=
  s.sp.toNat < s.cfg.memSize ∧ (s.sp + 1).toNat < s.cfg.memSize ∧
    (Config.topFaults s.cfg && (s.spWrapped || decide (s.sp = 0xFFFF))) = false

/-- The state after `Pop16()`, before its result, `s.wordAt s.sp`, is used (00 R16). -/
def State.afterPop (s : State) : State :=
  { s with sp := s.sp + 2, spWrapped := decide (s.sp + 1 = 0xFFFF), mar := s.sp + 1 }

/-- Access to the 8-bit operand succeeds: M needs H:L in memory (00 R18). -/
def State.operandOpen (s : State) (o : R8) : Prop := o = .m → s.byteOpen s.hl

/-- The value of an 8-bit operand (30 R96, 10 R24). -/
def State.operand (s : State) : R8 → Byte
  | .b => s.b
  | .c => s.c
  | .d => s.d
  | .e => s.e
  | .h => s.h
  | .l => s.l
  | .m => s.mem.read s.hl.toNat
  | .a => s.a

/-- The state after access to an 8-bit operand: only MAR is loaded, and only for M (10 R42, 20 R69). -/
def State.touched (s : State) (o : R8) : State := if o = .m then { s with mar := s.hl } else s

/-- The state with an 8-bit operand replaced, memory by the same address the access uses (00 R18). -/
def State.withOperand (s : State) (o : R8) (v : Byte) : State :=
  match o with
  | .b => { s with b := v }
  | .c => { s with c := v }
  | .d => { s with d := v }
  | .e => { s with e := v }
  | .h => { s with h := v }
  | .l => { s with l := v }
  | .m => { s with mar := s.hl, mem := s.mem.write s.hl.toNat v }
  | .a => { s with a := v }

/-! ## Footprints -/

/-- The seven general registers (10 R21). -/
inductive RegName where
  | a | b | c | d | e | h | l
  deriving DecidableEq, Repr

def State.reg (s : State) : RegName → Byte
  | .a => s.a
  | .b => s.b
  | .c => s.c
  | .d => s.d
  | .e => s.e
  | .h => s.h
  | .l => s.l

/-- The register an 8-bit operand names; M names none (10 R24). -/
def R8.regs : R8 → List RegName
  | .b => [.b]
  | .c => [.c]
  | .d => [.d]
  | .e => [.e]
  | .h => [.h]
  | .l => [.l]
  | .m => []
  | .a => [.a]

/-- The general registers a pair is made of (10 R23). -/
def Pair.regs : Pair → List RegName
  | .bc => [.b, .c]
  | .de => [.d, .e]
  | .hl => [.h, .l]
  | .sp => []

def StackPair.regs : StackPair → List RegName
  | .bc => [.b, .c]
  | .de => [.d, .e]
  | .hl => [.h, .l]
  | .psw => [.a]

/-- The general registers an instruction writes (10 R20, column "written by"). -/
def Instr.destRegs : Instr → List RegName
  | .add _ | .adc _ | .adi _ | .aci _ | .sub _ | .sbb _ | .sui _ | .sbi _ | .daa => [.a]
  | .ana _ | .ani _ | .xra _ | .xri _ | .ora _ | .ori _ | .cma => [.a]
  | .rlc | .rrc | .ral | .rar | .lda _ | .ldax _ | .inp _ => [.a]
  | .inr o | .dcr o | .mov o _ | .mvi o _ => R8.regs o
  | .inx p | .dcx p | .lxi p _ => Pair.regs p
  | .dad _ | .lhld _ | .xthl => [.h, .l]
  | .xchg => [.d, .e, .h, .l]
  | .pop p => StackPair.regs p
  | .cmp _ | .cpi _ | .sta _ | .stax _ | .shld _ | .sphl | .pchl => []
  | .jmp _ | .jnz _ | .jz _ | .jnc _ | .jc _ | .jpo _ | .jpe _ | .jp _ | .jm _ => []
  | .call _ | .cnz _ | .cz _ | .cnc _ | .cc _ | .cpo _ | .cpe _ | .cp _ | .cm _ => []
  | .ret | .rnz | .rz | .rnc | .rc | .rpo | .rpe | .rp | .rm | .rst _ => []
  | .push _ | .out _ | .nop | .hlt | .ei | .di | .stc | .cmc => []

/-- Whether a pair is SP. -/
def Pair.isSP : Pair → Bool
  | .bc | .de | .hl => false
  | .sp => true

/-- Whether an instruction writes SP: LXI SP, INX SP, DCX SP, SPHL, and every push and pop (10 R29). -/
def Instr.writesSP : Instr → Bool
  | .lxi p _ | .inx p | .dcx p => Pair.isSP p
  | .sphl | .push _ | .pop _ => true
  | .call _ | .cnz _ | .cz _ | .cnc _ | .cc _ | .cpo _ | .cpe _ | .cp _ | .cm _ => true
  | .ret | .rnz | .rz | .rnc | .rc | .rpo | .rpe | .rp | .rm | .rst _ => true
  | .add _ | .adc _ | .adi _ | .aci _ | .sub _ | .sbb _ | .sui _ | .sbi _ | .daa => false
  | .ana _ | .ani _ | .xra _ | .xri _ | .ora _ | .ori _ | .cma | .cmp _ | .cpi _ => false
  | .rlc | .rrc | .ral | .rar | .inr _ | .dcr _ | .dad _ | .mov _ _ | .mvi _ _ => false
  | .lda _ | .sta _ | .ldax _ | .stax _ | .lhld _ | .shld _ | .pchl | .xchg | .xthl => false
  | .jmp _ | .jnz _ | .jz _ | .jnc _ | .jc _ | .jpo _ | .jpe _ | .jp _ | .jm _ => false
  | .inp _ | .out _ | .nop | .hlt | .ei | .di | .stc | .cmc => false

/-- Whether an instruction writes PC other than by fetching (44 R229). -/
def Instr.writesPC : Instr → Bool
  | .jmp _ | .jnz _ | .jz _ | .jnc _ | .jc _ | .jpo _ | .jpe _ | .jp _ | .jm _ | .pchl => true
  | .call _ | .cnz _ | .cz _ | .cnc _ | .cc _ | .cpo _ | .cpe _ | .cp _ | .cm _ => true
  | .ret | .rnz | .rz | .rnc | .rc | .rpo | .rpe | .rp | .rm | .rst _ => true
  | .add _ | .adc _ | .adi _ | .aci _ | .sub _ | .sbb _ | .sui _ | .sbi _ | .daa => false
  | .ana _ | .ani _ | .xra _ | .xri _ | .ora _ | .ori _ | .cma | .cmp _ | .cpi _ => false
  | .rlc | .rrc | .ral | .rar | .inr _ | .dcr _ | .dad _ | .mov _ _ | .mvi _ _ => false
  | .lda _ | .sta _ | .ldax _ | .stax _ | .lhld _ | .shld _ | .sphl | .xchg | .xthl => false
  | .lxi _ _ | .inx _ | .dcx _ | .push _ | .pop _ => false
  | .inp _ | .out _ | .nop | .hlt | .ei | .di | .stc | .cmc => false

/-- Which flags an instruction may write (10 R33): Z, S and P together, and CY. DAA writes all four or,
when its second stage does not run, none (40 R149). INR and DCR write CY only under
INR_DCR_WRITE_CARRY (40 R143). -/
structure FlagFootprint where
  zsp : Bool
  cy : Bool
  deriving DecidableEq, Repr

/-- POP writes the flags for PSW only (45 R243, R244). -/
def StackPair.flagsWritten : StackPair → FlagFootprint
  | .bc | .de | .hl => ⟨false, false⟩
  | .psw => ⟨true, true⟩

/-- The flags an instruction may write (10 R33). -/
def Instr.flagsWritten (cfg : Config) : Instr → FlagFootprint
  | .add _ | .adc _ | .adi _ | .aci _ | .sub _ | .sbb _ | .sui _ | .sbi _ | .daa => ⟨true, true⟩
  | .ana _ | .ani _ | .xra _ | .xri _ | .ora _ | .ori _ | .cmp _ | .cpi _ => ⟨true, true⟩
  | .rlc | .rrc | .ral | .rar => ⟨true, true⟩
  | .pop p => StackPair.flagsWritten p
  | .inr _ | .dcr _ => ⟨true, cfg.inrDcrWriteCarry⟩
  | .dad _ | .stc | .cmc => ⟨false, true⟩
  | .cma | .inx _ | .dcx _ | .mov _ _ | .mvi _ _ | .lxi _ _ => ⟨false, false⟩
  | .lda _ | .sta _ | .ldax _ | .stax _ | .lhld _ | .shld _ => ⟨false, false⟩
  | .sphl | .pchl | .xchg | .xthl => ⟨false, false⟩
  | .jmp _ | .jnz _ | .jz _ | .jnc _ | .jc _ | .jpo _ | .jpe _ | .jp _ | .jm _ => ⟨false, false⟩
  | .call _ | .cnz _ | .cz _ | .cnc _ | .cc _ | .cpo _ | .cpe _ | .cp _ | .cm _ => ⟨false, false⟩
  | .ret | .rnz | .rz | .rnc | .rc | .rpo | .rpe | .rp | .rm | .rst _ => ⟨false, false⟩
  | .push _ | .inp _ | .out _ | .nop | .hlt | .ei | .di => ⟨false, false⟩

/-- The addresses a taken call, a restart or a push stores to (20 R67). -/
def State.pushAddrs (s : State) : List Nat := [(s.sp - 1).toNat, (s.sp - 2).toNat]

/-- The addresses a conditional call stores to: none when it is not taken (44 R225). -/
def State.pushAddrsIf (s : State) (cond : Cond) : List Nat := if s.flags.holds cond then s.pushAddrs else []

/-- The address an 8-bit destination stores to: H:L for M, none for a register (00 R18). -/
def State.operandAddrs (s : State) : R8 → List Nat
  | .b | .c | .d | .e | .h | .l | .a => []
  | .m => [s.hl.toNat]

/-- The memory addresses an instruction stores to, from the state its meaning starts in (20 R61, R67). -/
def Instr.storeAddrs (s : State) : Instr → List Nat
  | .mov o _ | .mvi o _ | .inr o | .dcr o => s.operandAddrs o
  | .sta a16 => [a16.toNat]
  | .stax p => [(s.indexPair p).toNat]
  | .shld a16 => [a16.toNat, (a16 + 1).toNat]
  | .xthl => [s.sp.toNat, (s.sp + 1).toNat]
  | .push _ | .call _ | .rst _ => s.pushAddrs
  | .cnz _ => s.pushAddrsIf .nz
  | .cz _ => s.pushAddrsIf .z
  | .cnc _ => s.pushAddrsIf .nc
  | .cc _ => s.pushAddrsIf .c
  | .cpo _ => s.pushAddrsIf .po
  | .cpe _ => s.pushAddrsIf .pe
  | .cp _ => s.pushAddrsIf .p
  | .cm _ => s.pushAddrsIf .m
  | .add _ | .adc _ | .adi _ | .aci _ | .sub _ | .sbb _ | .sui _ | .sbi _ | .daa => []
  | .ana _ | .ani _ | .xra _ | .xri _ | .ora _ | .ori _ | .cma | .cmp _ | .cpi _ => []
  | .rlc | .rrc | .ral | .rar | .dad _ | .inx _ | .dcx _ | .lxi _ _ => []
  | .lda _ | .ldax _ | .lhld _ | .sphl | .pchl | .xchg => []
  | .jmp _ | .jnz _ | .jz _ | .jnc _ | .jc _ | .jpo _ | .jpe _ | .jp _ | .jm _ => []
  | .ret | .rnz | .rz | .rnc | .rc | .rpo | .rpe | .rp | .rm | .pop _ => []
  | .inp _ | .out _ | .nop | .hlt | .ei | .di | .stc | .cmc => []

/-! ## The invariant -/

/-- The configuration is in range, memory and ports are in canonical form, and no cell lies outside
them: every address listed is below MEM_SIZE and every port below N_PORTS (00 R7, R8; 20 R60). -/
abbrev State.Inv (s : State) : Prop :=
  s.cfg.ok = true ∧ s.mem.wf = true ∧ s.mem.below s.cfg.memSize = true ∧
    s.ports.wf = true ∧ s.ports.below s.cfg.nPorts = true

/-! ## Parts of claims that recur -/

/-- The bytes decode to the instruction and to nothing more (30 R91, R99). -/
def Encodes (i : Instr) (bytes : List Byte) : Prop := ∀ rest, decode (bytes ++ rest) = .ok (i, rest)

/-- "OutOfBounds on the operand fetch": with the first byte `op` of an instruction of `n` bytes at PC, a
stream read `k` that finds no byte below MEM_SIZE ends the step, with nothing done but the reads before it
(00 R11; 60 R282 kind fetch). Under TOP_OF_SPACE_POLICY = fault that is so while PC has not run out of
0xFFFF; if it has, see TopOfSpaceFaultPolicy. -/
def OperandFetchFaults (op : Byte) (n : Nat) : Prop :=
  ∀ (s : State) (k : Nat), s.halted = false → s.mem.read s.pc.toNat = op → dispatchMaps s.cfg op = true →
    1 ≤ k → k < n → s.streamOpen k →
    (Config.topFaults s.cfg && (s.afterFetches k).pcWrapped) = false →
    s.cfg.memSize ≤ (s.afterFetches k).pc.toNat →
    step s = .fault (.outOfBounds .fetch (s.afterFetches k).pc.toNat (s.afterFetches k))

/-- The faults of a 16-bit push of `v` from state `s`: SP = 0, nothing written; SP = 1, the high byte written
at address 0 and SP = 0; a push address at or beyond MEM_SIZE. PC is not replaced (00 R15, 45 R241, 44 R224). -/
def PushFaults (s : State) (v : Word) (o : Out) : Prop :=
  (s.sp = 0 → ∃ left, o = .fault (.stackUnderflow 0 left) ∧ left.sp = 0 ∧ left.mem = s.mem ∧ left.pc = s.pc) ∧
  (s.sp = 1 → 1 ≤ s.cfg.memSize → ∃ left, o = .fault (.stackUnderflow 0 left) ∧
    left.sp = 0 ∧ left.mem = s.mem.write 0 (hiByte v) ∧ left.pc = s.pc) ∧
  (2 ≤ s.sp.toNat → s.cfg.memSize < s.sp.toNat → ∃ left,
    o = .fault (.outOfBounds .dataWrite (s.sp.toNat - 1) left) ∧ left.mem = s.mem ∧ left.pc = s.pc)

/-- The faults of a 16-bit pop from state `s`: the first read finds no byte; only the second finds none, SP
having gone up once. Neither writes PC, a register or a flag (00 R16, 10 R30, 44 R226). Under
TOP_OF_SPACE_POLICY = fault that is so while SP has not run out of 0xFFFF before the read; if it has, see
TopOfSpaceFaultPolicy. -/
def PopFaults (s : State) (o : Out) : Prop :=
  ((Config.topFaults s.cfg && s.spWrapped) = false → s.cfg.memSize ≤ s.sp.toNat →
    o = .fault (.outOfBounds .stackRead s.sp.toNat s)) ∧
  ((Config.topFaults s.cfg && (s.spWrapped || decide (s.sp = 0xFFFF))) = false →
    s.sp.toNat < s.cfg.memSize → s.cfg.memSize ≤ (s.sp + 1).toNat →
    ∃ left, o = .fault (.outOfBounds .stackRead (s.sp + 1).toNat left) ∧
      left.sp = s.sp + 1 ∧ left.pc = s.pc ∧ left.flags = s.flags ∧ ∀ r, left.reg r = s.reg r)

/-- The faults of a 16-bit data access at `addr` from state `s`: the first byte outside memory; only the
second one (00 R13, R14; 60 R282); and, by the model's choice of log 14, the second byte at 0x10000 under
TOP_OF_SPACE_POLICY = fault. -/
def WordFaults (kind : AccessKind) (s : State) (addr : Word) (o : Out) : Prop :=
  (s.cfg.memSize ≤ addr.toNat → ∃ left, o = .fault (.outOfBounds kind addr.toNat left)) ∧
  (addr.toNat < s.cfg.memSize → (Config.topFaults s.cfg && decide (addr = 0xFFFF)) = false →
    s.cfg.memSize ≤ (addr + 1).toNat →
    ∃ left, o = .fault (.outOfBounds kind (addr + 1).toNat left)) ∧
  (addr.toNat < s.cfg.memSize → s.cfg.topOfSpace = .fault → addr = 0xFFFF →
    ∃ left, o = .fault (.outOfBounds kind 65536 left))

/-- `A <- r; SetFlags(r, cy)` (40 R131). -/
def State.withAlu (s : State) (r : Byte) (cy : Bool) : State :=
  { s with a := r, flags := Flags.ofResult r cy }

/-- The field code of a condition (44 R220). -/
def Cond.code : Cond → Nat
  | .nz => 0
  | .z => 1
  | .nc => 2
  | .c => 3
  | .po => 4
  | .pe => 5
  | .p => 6
  | .m => 7

/-- Jcc: JNZ, JZ, JNC, JC, JPO, JPE, JP, JM (44 R220). -/
def condJump : Cond → Word → Instr
  | .nz => .jnz
  | .z => .jz
  | .nc => .jnc
  | .c => .jc
  | .po => .jpo
  | .pe => .jpe
  | .p => .jp
  | .m => .jm

/-- Ccc: CNZ, CZ, CNC, CC, CPO, CPE, CP, CM (44 R220). -/
def condCall : Cond → Word → Instr
  | .nz => .cnz
  | .z => .cz
  | .nc => .cnc
  | .c => .cc
  | .po => .cpo
  | .pe => .cpe
  | .p => .cp
  | .m => .cm

/-- Rcc: RNZ, RZ, RNC, RC, RPO, RPE, RP, RM (44 R220). -/
def condReturn : Cond → Instr
  | .nz => .rnz
  | .z => .rz
  | .nc => .rnc
  | .c => .rc
  | .po => .rpo
  | .pe => .rpe
  | .p => .rp
  | .m => .rm

/-- The twelve undefined bytes (30 R108). -/
def undefinedBytes : List Byte :=
  [0x08, 0x10, 0x18, 0x20, 0x28, 0x30, 0x38, 0xCB, 0xD9, 0xDD, 0xED, 0xFD]

end Sys2Proof.Machine
end

