-- ==== Sys2Proof/Certificates/Slice0/Obligations.lean ====
section
/-! DEFINITION. The statements for the provers. Each docstring names what of the spec it formalises.
`exec` runs an instruction after its bytes have been read; `step` is stated in terms of it. That a data access
at or beyond MEM_SIZE is OutOfBounds of kind data_read or data_write is said by the instruction rules and is
the spec's decision D11. -/

open Sys2Proof Sys2Proof.Machine

/-! ## Encoding -/

/-- Decoding the encoding of a well-formed instruction gives it back, with every operand at every value,
and leaves the bytes after it (30 R91, R99). -/
def Obligations.DecodeEncodeRoundTrip : Prop :=
  ∀ (i : Instr) (rest : List Byte), i.wf = true → decode (encode i ++ rest) = .ok (i, rest)

/-- Encoding what was decoded gives the bytes back, for every first byte but the twelve undefined ones,
which are second encodings (30 R107, R108); and what is decoded is well formed. -/
def Obligations.EncodeDecodeRoundTrip : Prop :=
  ∀ (op : Byte) (bytes rest : List Byte) (i : Instr), decode (op :: bytes) = .ok (i, rest) →
    i.wf = true ∧ (op ∉ undefinedBytes → encode i ++ rest = op :: bytes)

/-- The length of an instruction by its first byte, as 30 R100 lists it, is how many bytes the decoder
consumes; with its operand bytes there, every first byte decodes (the aliases of CALL are decision D12). -/
def Obligations.LengthFromFirstByte : Prop :=
  ∀ (op b1 b2 : Byte) (rest : List Byte),
    let x := op.toNat / 64
    let y := op.toNat / 8 % 8
    let z := op.toNat % 8
    let three := (x = 0 ∧ z = 1 ∧ y % 2 = 0) ∨ (x = 0 ∧ z = 2 ∧ 4 ≤ y) ∨ (x = 3 ∧ z = 2) ∨ (x = 3 ∧ z = 4) ∨
      op = 0xC3 ∨ op = 0xCB ∨ op = 0xCD ∨ op = 0xDD ∨ op = 0xED ∨ op = 0xFD
    let two := (x = 0 ∧ z = 6) ∨ (x = 3 ∧ z = 6) ∨ op = 0xD3 ∨ op = 0xDB
    (three → ∃ i, decode (op :: b1 :: b2 :: rest) = .ok (i, rest)) ∧
    (two → ∃ i, decode (op :: b1 :: b2 :: rest) = .ok (i, b2 :: rest)) ∧
    (¬ three → ¬ two → ∃ i, decode (op :: b1 :: b2 :: rest) = .ok (i, b1 :: b2 :: rest))

/-- The twelve undefined bytes decode as the instructions they alias (30 R108 to R110; R111 is the spec's
decision D12). -/
def Obligations.UndefinedBytesAreAliases : Prop :=
  (∀ op ∈ ([0x08, 0x10, 0x18, 0x20, 0x28, 0x30, 0x38] : List Byte), Encodes .nop [op]) ∧
  Encodes .ret [0xD9] ∧
  (∀ lo hi : Byte, Encodes (.jmp (joinBytes hi lo)) [0xCB, lo, hi]) ∧
  (∀ op ∈ ([0xDD, 0xED, 0xFD] : List Byte), ∀ lo hi : Byte, Encodes (.call (joinBytes hi lo)) [op, lo, hi])

/-- Words written out bit by bit from 30 R95 to R107, one or more per family. -/
def Obligations.KnownWordsDecode : Prop :=
  decodeTableWord 8 0b10000000 = some (.add .b) ∧
  decodeTableWord 8 0b00110100 = some (.inr .m) ∧
  decodeTableWord 16 0x42E6 = some (.ani 0x42) ∧
  decodeTableWord 8 0b00011111 = some .rar ∧
  decodeTableWord 8 0b01000011 = some (.mov .b .e) ∧
  decodeTableWord 24 0x201021 = some (.lxi .hl 0x2010) ∧
  decodeTableWord 24 0x3E00C3 = some (.jmp 0x3E00) ∧
  decodeTableWord 24 0x2000DC = some (.cc 0x2000) ∧
  decodeTableWord 8 0b11010111 = some (.rst 2) ∧
  decodeTableWord 8 0b11110101 = some (.push .psw) ∧
  decodeTableWord 16 0x01DB = some (.inp 1) ∧
  decodeTableWord 8 0b01110110 = some .hlt

/-! ## The step -/

/-- When the block runs, DISPATCH maps the first byte and the bytes at PC, all readable, decode to an
instruction, the step is that instruction's meaning run after the stream reads, and its report is the
cycle count of the path taken (30 R90, R92; 10 R27). -/
def Obligations.StepRunsDecodedInstruction : Prop :=
  ∀ (s : State) (i : Instr), s.halted = false → dispatchMaps s.cfg (s.mem.read s.pc.toNat) = true →
    s.streamOpen i.length → decode (s.streamBytes i.length) = .ok (i, []) →
    step s = complete i (s.afterFetches i.length) (exec i (s.afterFetches i.length))

/-- A step while HALTED = 1 answers Halted: nothing changes but the model's own report (30 R90; log 7). -/
def Obligations.HaltedStepChangesNothing : Prop :=
  ∀ s : State, s.halted = true → step s = .next { s with report := .halted }

/-- A stream read that finds no byte below MEM_SIZE ends the step with OutOfBounds(fetch, address): the
opcode's, and every operand byte's (00 R11, 60 R282 (a)). Under TOP_OF_SPACE_POLICY = fault too, where PC has
not run out of 0xFFFF; where it has, see TopOfSpaceFaultPolicy. -/
def Obligations.FetchPastMemoryFaults : Prop :=
  (∀ s : State, s.halted = false → (Config.topFaults s.cfg && s.pcWrapped) = false → s.cfg.memSize ≤ s.pc.toNat →
    step s = .fault (.outOfBounds .fetch s.pc.toNat s)) ∧
  (∀ op : Byte, OperandFetchFaults op (instrLength op))

/-- The bytes without a DISPATCH entry are those the configuration leaves out and, under UNDOC_CALL_POLICY =
fault, exactly 0xDD, 0xED and 0xFD (30 R91, R111; the policy is the spec's decision D12, the list of left out
bytes the model's choice of log 12). Such a byte ends the step with UnknownOpcode, recording the byte and the
address it was fetched from, PC advanced by 1 (60 R283); with no entry left out, no step does (30 R112). -/
def Obligations.UnmappedOpcodeFaults : Prop :=
  (∀ (cfg : Config) (op : Byte), dispatchMaps cfg op = false ↔
    op ∈ cfg.unmappedOpcodes ∨ (cfg.undocCall = .fault ∧ (op = 0xDD ∨ op = 0xED ∨ op = 0xFD))) ∧
  (∀ s : State, s.halted = false → s.fetchOpen → dispatchMaps s.cfg (s.mem.read s.pc.toNat) = false →
    step s = .fault (.unknownOpcode (s.mem.read s.pc.toNat) s.pc s.afterFetch)) ∧
  (∀ (s left : State) (op : Byte) (addr : Word), s.cfg.unmappedOpcodes = [] → s.cfg.undocCall = .aliasCall →
    step s ≠ .fault (.unknownOpcode op addr left))

/-- No step raises UnsupportedOperand: the decoder produces only legal pairings (60 R284). The one term
without an encoding, MOV M,M, has that fault, which is the model's choice for it (log 11). -/
def Obligations.NoStepRaisesUnsupportedOperand : Prop :=
  (∀ (s left : State) (op : Byte) (operand : OperandName), step s ≠ .fault (.unsupportedOperand op operand left)) ∧
  (∀ s : State, exec (.mov .m .m) s = .fault (.unsupportedOperand 0x76 .m s))

/-- A step answers a next state or one of the spec's faults: it never refuses. -/
def Obligations.StepNeverRefuses : Prop :=
  ∀ (s : State) (r : Refusal), step s ≠ .refused r

/-! ## The ALU -/

/-- SetFlags (00 R17). -/
def Obligations.FlagRule : Prop :=
  ∀ (r : Byte) (carry : Bool),
    ((Flags.ofResult r carry).z = true ↔ r = 0) ∧
    ((Flags.ofResult r carry).s = true ↔ 128 ≤ r.toNat) ∧
    ((Flags.ofResult r carry).p = true ↔ ((List.range 8).filter r.getLsbD).length % 2 = 0) ∧
    (Flags.ofResult r carry).cy = carry

/-- The one-stage and the two-stage forms of addition with carry-in and subtraction with borrow-in agree
in result and in carry (40 R139). -/
def Obligations.TwoStageCarryAgrees : Prop :=
  ∀ (a b : Byte) (cin : Bool),
    (let r1 := add8 a b false
     let r2 := add8 r1.value (BitVec.ofNat 8 cin.toNat) false
     add8 a b cin = { value := r2.value, carry := r1.carry || r2.carry }) ∧
    (let r1 := sub8 a b false
     let r2 := sub8 r1.value (BitVec.ofNat 8 cin.toNat) false
     sub8 a b cin = { value := r2.value, carry := r1.carry || r2.carry })

/-- ADD, ADC, ADI and ACI: encoding, result, the four flags, and the faults (40 R131 to R134). -/
def Obligations.AdditionRules : Prop :=
  ∀ (s : State) (src : R8) (d8 : Byte),
    Encodes (.add src) [BitVec.ofNat 8 (0x80 + src.code)] ∧ Encodes (.adc src) [BitVec.ofNat 8 (0x88 + src.code)] ∧
    Encodes (.adi d8) [0xC6, d8] ∧ Encodes (.aci d8) [0xCE, d8] ∧
    OperandFetchFaults 0xC6 2 ∧ OperandFetchFaults 0xCE 2 ∧
    (s.operandOpen src →
      exec (.add src) s = .next ((s.touched src).withAlu (s.a + s.operand src)
        (decide (255 < s.a.toNat + (s.operand src).toNat))) ∧
      exec (.adc src) s = .next ((s.touched src).withAlu (s.a + s.operand src + BitVec.ofNat 8 s.flags.cy.toNat)
        (decide (255 < s.a.toNat + (s.operand src).toNat + s.flags.cy.toNat)))) ∧
    (¬ s.operandOpen src →
      exec (.add src) s = .fault (.outOfBounds .dataRead s.hl.toNat s) ∧
      exec (.adc src) s = .fault (.outOfBounds .dataRead s.hl.toNat s)) ∧
    exec (.adi d8) s = .next (s.withAlu (s.a + d8) (decide (255 < s.a.toNat + d8.toNat))) ∧
    exec (.aci d8) s = .next (s.withAlu (s.a + d8 + BitVec.ofNat 8 s.flags.cy.toNat)
      (decide (255 < s.a.toNat + d8.toNat + s.flags.cy.toNat)))

/-- SUB, SBB, SUI and SBI: encoding, result, the four flags with CY the borrow, and the faults (40 R135 to R138). -/
def Obligations.SubtractionRules : Prop :=
  ∀ (s : State) (src : R8) (d8 : Byte),
    Encodes (.sub src) [BitVec.ofNat 8 (0x90 + src.code)] ∧ Encodes (.sbb src) [BitVec.ofNat 8 (0x98 + src.code)] ∧
    Encodes (.sui d8) [0xD6, d8] ∧ Encodes (.sbi d8) [0xDE, d8] ∧
    OperandFetchFaults 0xD6 2 ∧ OperandFetchFaults 0xDE 2 ∧
    (s.operandOpen src →
      exec (.sub src) s = .next ((s.touched src).withAlu (s.a - s.operand src)
        (decide (s.a.toNat < (s.operand src).toNat))) ∧
      exec (.sbb src) s = .next ((s.touched src).withAlu (s.a - s.operand src - BitVec.ofNat 8 s.flags.cy.toNat)
        (decide (s.a.toNat < (s.operand src).toNat + s.flags.cy.toNat)))) ∧
    (¬ s.operandOpen src →
      exec (.sub src) s = .fault (.outOfBounds .dataRead s.hl.toNat s) ∧
      exec (.sbb src) s = .fault (.outOfBounds .dataRead s.hl.toNat s)) ∧
    exec (.sui d8) s = .next (s.withAlu (s.a - d8) (decide (s.a.toNat < d8.toNat))) ∧
    exec (.sbi d8) s = .next (s.withAlu (s.a - d8 - BitVec.ofNat 8 s.flags.cy.toNat)
      (decide (s.a.toNat < d8.toNat + s.flags.cy.toNat)))

/-- INR and DCR: the operand, M included, goes up or down by one; Z, S and P from the result; CY unchanged,
or set exactly on the wrap under INR_DCR_WRITE_CARRY (40 R141 to R143; the carry is the spec's decision D8). -/
def Obligations.IncrementDecrementRules : Prop :=
  ∀ (s : State) (dst : R8),
    Encodes (.inr dst) [BitVec.ofNat 8 (0x04 + 8 * dst.code)] ∧ Encodes (.dcr dst) [BitVec.ofNat 8 (0x05 + 8 * dst.code)] ∧
    (s.operandOpen dst →
      exec (.inr dst) s = .next { s.withOperand dst (s.operand dst + 1) with
        flags := Flags.ofResult (s.operand dst + 1)
          (if s.cfg.inrDcrWriteCarry = true then decide (s.operand dst = 0xFF) else s.flags.cy) } ∧
      exec (.dcr dst) s = .next { s.withOperand dst (s.operand dst - 1) with
        flags := Flags.ofResult (s.operand dst - 1)
          (if s.cfg.inrDcrWriteCarry = true then decide (s.operand dst = 0x00) else s.flags.cy) }) ∧
    (¬ s.operandOpen dst →
      exec (.inr dst) s = .fault (.outOfBounds .dataRead s.hl.toNat s) ∧
      exec (.dcr dst) s = .fault (.outOfBounds .dataRead s.hl.toNat s))

/-- DAD, INX and DCX act on the pair as one 16-bit number and wrap; DAD writes CY only, INX and DCX no
flag; none faults (40 R144 to R147). -/
def Obligations.SixteenBitRules : Prop :=
  ∀ (s : State) (rp : Pair),
    Encodes (.dad rp) [BitVec.ofNat 8 (0x01 + 8 * rp.codeQ)] ∧ Encodes (.inx rp) [BitVec.ofNat 8 (0x03 + 8 * rp.code)] ∧
    Encodes (.dcx rp) [BitVec.ofNat 8 (0x03 + 8 * rp.codeQ)] ∧
    exec (.dad rp) s = .next { s.setHL (s.hl + s.pair rp) with
      flags := { s.flags with cy := decide (0xFFFF < s.hl.toNat + (s.pair rp).toNat) } } ∧
    (∃ t, exec (.inx rp) s = .next t ∧ t = s.setPair rp (s.pair rp + 1) ∧
      (t.pair rp).toNat = ((s.pair rp).toNat + 1) % 65536 ∧ t.flags = s.flags) ∧
    (∃ t, exec (.dcx rp) s = .next t ∧ t = s.setPair rp (s.pair rp - 1) ∧
      (t.pair rp).toNat = ((s.pair rp).toNat + 65535) % 65536 ∧ t.flags = s.flags)

/-- DAA by the four classes of 40 R150 (which the spec derives from R149, a reading of its source, D9);
and under DAA_NO_HIGH_FIX_FLAGS = set_carry_clear the classes without a second stage set the flags from
the accumulator with CY = 0. -/
def Obligations.DecimalAdjustClasses : Prop :=
  ∀ s : State,
    let lo := s.a.toNat % 16
    let hi := s.a.toNat / 16
    Encodes .daa [0x27] ∧
    (s.cfg.daaNoHighFix = .unchanged →
      (lo ≤ 9 → hi ≤ 9 → exec .daa s = .next s) ∧
      (9 < lo → hi ≤ 8 → exec .daa s = .next { s with a := s.a + 6 }) ∧
      (9 < lo → hi = 15 → exec .daa s = .next { s with a := s.a + 6 })) ∧
    (s.cfg.daaNoHighFix = .setCarryClear →
      (lo ≤ 9 → hi ≤ 9 → exec .daa s = .next (s.withAlu s.a false)) ∧
      (9 < lo → hi ≤ 8 → exec .daa s = .next (s.withAlu (s.a + 6) false)) ∧
      (9 < lo → hi = 15 → exec .daa s = .next (s.withAlu (s.a + 6) false))) ∧
    (lo ≤ 9 → 9 < hi → exec .daa s = .next (s.withAlu (s.a + 0x60) true)) ∧
    (9 < lo → 9 ≤ hi → hi ≤ 14 → exec .daa s = .next (s.withAlu (s.a + 0x66) true))

/-- ANA, ANI, XRA, XRI, ORA and ORI: encoding, result, Z, S and P from it, CY = 0, and the faults (41 R161 to R166). -/
def Obligations.LogicalRules : Prop :=
  ∀ (s : State) (src : R8) (d8 : Byte),
    Encodes (.ana src) [BitVec.ofNat 8 (0xA0 + src.code)] ∧ Encodes (.xra src) [BitVec.ofNat 8 (0xA8 + src.code)] ∧
    Encodes (.ora src) [BitVec.ofNat 8 (0xB0 + src.code)] ∧
    Encodes (.ani d8) [0xE6, d8] ∧ Encodes (.xri d8) [0xEE, d8] ∧ Encodes (.ori d8) [0xF6, d8] ∧
    OperandFetchFaults 0xE6 2 ∧ OperandFetchFaults 0xEE 2 ∧ OperandFetchFaults 0xF6 2 ∧
    (s.operandOpen src →
      exec (.ana src) s = .next ((s.touched src).withAlu (s.a &&& s.operand src) false) ∧
      exec (.xra src) s = .next ((s.touched src).withAlu (s.a ^^^ s.operand src) false) ∧
      exec (.ora src) s = .next ((s.touched src).withAlu (s.a ||| s.operand src) false)) ∧
    (¬ s.operandOpen src →
      exec (.ana src) s = .fault (.outOfBounds .dataRead s.hl.toNat s) ∧
      exec (.xra src) s = .fault (.outOfBounds .dataRead s.hl.toNat s) ∧
      exec (.ora src) s = .fault (.outOfBounds .dataRead s.hl.toNat s)) ∧
    exec (.ani d8) s = .next (s.withAlu (s.a &&& d8) false) ∧
    exec (.xri d8) s = .next (s.withAlu (s.a ^^^ d8) false) ∧
    exec (.ori d8) s = .next (s.withAlu (s.a ||| d8) false)

/-- CMA inverts every bit of A and writes no flag. CMP and CPI leave A and set the flags of the discarded difference, so that Z says A equals the operand
and CY that it is below it (41 R167 to R169). -/
def Obligations.ComplementAndCompareRules : Prop :=
  ∀ (s : State) (src : R8) (d8 : Byte),
    Encodes .cma [0x2F] ∧ exec .cma s = .next { s with a := ~~~s.a } ∧ exec .cma { s with a := ~~~s.a } = .next s ∧
    Encodes (.cmp src) [BitVec.ofNat 8 (0xB8 + src.code)] ∧ Encodes (.cpi d8) [0xFE, d8] ∧ OperandFetchFaults 0xFE 2 ∧
    (s.operandOpen src → ∃ t, exec (.cmp src) s = .next t ∧
      t = { s.touched src with flags := Flags.ofResult (s.a - s.operand src) (decide (s.a.toNat < (s.operand src).toNat)) } ∧
      (t.flags.z = true ↔ s.a = s.operand src)) ∧
    (¬ s.operandOpen src → exec (.cmp src) s = .fault (.outOfBounds .dataRead s.hl.toNat s)) ∧
    (∃ t, exec (.cpi d8) s = .next t ∧
      t = { s with flags := Flags.ofResult (s.a - d8) (decide (s.a.toNat < d8.toNat)) } ∧
      (t.flags.z = true ↔ s.a = d8))

/-- RLC, RRC, RAL and RAR write the rotated A, the ejected bit to CY, and Z, S and P from the rotated A
(42 R181 to R184). -/
def Obligations.RotateRules : Prop :=
  Encodes .rlc [0x07] ∧ Encodes .rrc [0x0F] ∧ Encodes .ral [0x17] ∧ Encodes .rar [0x1F] ∧
  ∀ s : State,
    exec .rlc s = .next (s.withAlu (s.a.rotateLeft 1) (s.a.getLsbD 7)) ∧
    exec .rrc s = .next (s.withAlu (s.a.rotateRight 1) (s.a.getLsbD 0)) ∧
    exec .ral s = .next (s.withAlu (s.a <<< 1 ||| BitVec.ofNat 8 s.flags.cy.toNat) (s.a.getLsbD 7)) ∧
    exec .rar s = .next (s.withAlu (s.a >>> 1 ||| BitVec.ofNat 8 (128 * s.flags.cy.toNat)) (s.a.getLsbD 0))

/-! ## Data movement -/

/-- MOV d,s and MVI d,d8, every combination but M,M: the destination takes the source's value as it was
before, nothing else changes (MAR aside), and an M operand outside memory faults (43 R191 to R193). -/
def Obligations.MoveRules : Prop :=
  ∀ (s : State) (dst src : R8) (d8 : Byte),
    ((dst, src) ≠ (R8.m, R8.m) →
      Encodes (.mov dst src) [BitVec.ofNat 8 (0x40 + 8 * dst.code + src.code)] ∧
      (s.operandOpen dst → s.operandOpen src →
        exec (.mov dst src) s = .next ((s.touched src).withOperand dst (s.operand src))) ∧
      (¬ s.operandOpen src → exec (.mov dst src) s = .fault (.outOfBounds .dataRead s.hl.toNat s)) ∧
      (¬ s.operandOpen dst → exec (.mov dst src) s = .fault (.outOfBounds .dataWrite s.hl.toNat s))) ∧
    Encodes (.mvi dst d8) [BitVec.ofNat 8 (0x06 + 8 * dst.code), d8] ∧
    OperandFetchFaults (BitVec.ofNat 8 (0x06 + 8 * dst.code)) 2 ∧
    (s.operandOpen dst → exec (.mvi dst d8) s = .next (s.withOperand dst d8)) ∧
    (¬ s.operandOpen dst → exec (.mvi dst d8) s = .fault (.outOfBounds .dataWrite s.hl.toNat s))

/-- LXI, SPHL, PCHL and XCHG (43 R194, R201 to R203). -/
def Obligations.PairLoadRules : Prop :=
  ∀ (s : State) (lo hi : Byte),
    (∀ rp : Pair, Encodes (.lxi rp (joinBytes hi lo)) [BitVec.ofNat 8 (0x01 + 8 * rp.code), lo, hi] ∧
      OperandFetchFaults (BitVec.ofNat 8 (0x01 + 8 * rp.code)) 3) ∧
    exec (.lxi .bc (joinBytes hi lo)) s = .next { s with b := hi, c := lo } ∧
    exec (.lxi .de (joinBytes hi lo)) s = .next { s with d := hi, e := lo } ∧
    exec (.lxi .hl (joinBytes hi lo)) s = .next { s with h := hi, l := lo } ∧
    exec (.lxi .sp (joinBytes hi lo)) s = .next { s with sp := joinBytes hi lo, spWrapped := false } ∧
    Encodes .sphl [0xF9] ∧ exec .sphl s = .next { s with sp := s.hl, spWrapped := false } ∧
    Encodes .pchl [0xE9] ∧ exec .pchl s = .next { s with pc := s.hl, pcWrapped := false } ∧
    Encodes .xchg [0xEB] ∧ exec .xchg s = .next { s with d := s.h, e := s.l, h := s.d, l := s.e }

/-- LDA, STA, LDAX and STAX: A from and to the addressed byte, no flag, OutOfBounds outside memory (43 R195 to R198). -/
def Obligations.AccumulatorLoadStoreRules : Prop :=
  ∀ (s : State) (lo hi : Byte) (rp : IndexPair),
    let a16 := joinBytes hi lo
    Encodes (.lda a16) [0x3A, lo, hi] ∧ Encodes (.sta a16) [0x32, lo, hi] ∧
    OperandFetchFaults 0x3A 3 ∧ OperandFetchFaults 0x32 3 ∧
    Encodes (.ldax .bc) [0x0A] ∧ Encodes (.ldax .de) [0x1A] ∧ Encodes (.stax .bc) [0x02] ∧ Encodes (.stax .de) [0x12] ∧
    (s.byteOpen a16 →
      exec (.lda a16) s = .next { s with mar := a16, a := s.mem.read a16.toNat } ∧
      exec (.sta a16) s = .next { s with mar := a16, mem := s.mem.write a16.toNat s.a }) ∧
    (¬ s.byteOpen a16 →
      exec (.lda a16) s = .fault (.outOfBounds .dataRead a16.toNat s) ∧
      exec (.sta a16) s = .fault (.outOfBounds .dataWrite a16.toNat s)) ∧
    (s.byteOpen (s.indexPair rp) →
      exec (.ldax rp) s = .next { s with mar := s.indexPair rp, a := s.mem.read (s.indexPair rp).toNat } ∧
      exec (.stax rp) s = .next { s with mar := s.indexPair rp, mem := s.mem.write (s.indexPair rp).toNat s.a }) ∧
    (¬ s.byteOpen (s.indexPair rp) →
      exec (.ldax rp) s = .fault (.outOfBounds .dataRead (s.indexPair rp).toNat s) ∧
      exec (.stax rp) s = .fault (.outOfBounds .dataWrite (s.indexPair rp).toNat s))

/-- LHLD and SHLD: L at the operand address and H at the next, which wraps at the top of the space under
the default policy (43 R199, R200; the access order and the wrap are the spec's decisions D20 and D10; that
under TOP_OF_SPACE_POLICY = fault the second byte at 0xFFFF faults at 0x10000 with the kind of the access is
the model's choice, log 14). -/
def Obligations.HLLoadStoreRules : Prop :=
  ∀ (s : State) (lo hi : Byte),
    let a16 := joinBytes hi lo
    Encodes (.lhld a16) [0x2A, lo, hi] ∧ Encodes (.shld a16) [0x22, lo, hi] ∧
    OperandFetchFaults 0x2A 3 ∧ OperandFetchFaults 0x22 3 ∧
    (s.wordOpen a16 →
      exec (.lhld a16) s = .next { s with
        mar := a16 + 1, l := s.mem.read a16.toNat, h := s.mem.read (a16 + 1).toNat } ∧
      exec (.shld a16) s = .next { s with
        mar := a16 + 1, mem := (s.mem.write a16.toNat s.l).write (a16 + 1).toNat s.h }) ∧
    WordFaults .dataRead s a16 (exec (.lhld a16) s) ∧ WordFaults .dataWrite s a16 (exec (.shld a16) s)

/-- XTHL exchanges HL with the two bytes at SP and does not change SP; it never raises StackUnderflow
(43 R204; that it is done by direct accesses is the spec's decision D19, that SP + 1 wraps at 0xFFFF under the
default policy is D10, and that under TOP_OF_SPACE_POLICY = fault XTHL at 0xFFFF faults at 0x10000 is the
model's choice, log 14). -/
def Obligations.ExchangeStackTopRule : Prop :=
  Encodes .xthl [0xE3] ∧
  ∀ s : State,
    (s.wordOpen s.sp → exec .xthl s = .next { s with
      mar := s.sp + 1, l := s.mem.read s.sp.toNat, h := s.mem.read (s.sp + 1).toNat,
      mem := (s.mem.write s.sp.toNat s.l).write (s.sp + 1).toNat s.h }) ∧
    WordFaults .dataRead s s.sp (exec .xthl s) ∧
    (∀ (sp : Word) (left : State), exec .xthl s ≠ .fault (.stackUnderflow sp left))

/-! ## Branches -/

/-- Which flag each condition reads, and at which value it holds (44 R220). -/
def Obligations.ConditionTable : Prop :=
  ∀ f : Flags,
    (f.holds .nz = true ↔ f.z = false) ∧ (f.holds .z = true ↔ f.z = true) ∧
    (f.holds .nc = true ↔ f.cy = false) ∧ (f.holds .c = true ↔ f.cy = true) ∧
    (f.holds .po = true ↔ f.p = false) ∧ (f.holds .pe = true ↔ f.p = true) ∧
    (f.holds .p = true ↔ f.s = false) ∧ (f.holds .m = true ↔ f.s = true)

/-- JMP, and JNZ, JZ, JNC, JC, JPO, JPE, JP, JM: PC takes the address, or keeps the address of the next
instruction when the condition does not hold (44 R222, R223). -/
def Obligations.JumpRules : Prop :=
  ∀ (s : State) (cond : Cond) (lo hi : Byte),
    let a16 := joinBytes hi lo
    Encodes (.jmp a16) [0xC3, lo, hi] ∧ Encodes (.jmp a16) [0xCB, lo, hi] ∧
    Encodes (condJump cond a16) [BitVec.ofNat 8 (0xC2 + 8 * Cond.code cond), lo, hi] ∧
    OperandFetchFaults 0xC3 3 ∧ OperandFetchFaults 0xCB 3 ∧ OperandFetchFaults (BitVec.ofNat 8 (0xC2 + 8 * Cond.code cond)) 3 ∧
    exec (.jmp a16) s = .next { s with pc := a16, pcWrapped := false } ∧
    (s.flags.holds cond = true → exec (condJump cond a16) s = .next { s with pc := a16, pcWrapped := false }) ∧
    (s.flags.holds cond = false → exec (condJump cond a16) s = .next s)

/-- CALL, and CNZ, CZ, CNC, CC, CPO, CPE, CP, CM: PC, the address of the instruction after the call, is
pushed and replaced; not taken, nothing happens, whatever SP is (44 R224, R225; that 0xDD, 0xED and 0xFD are
CALL is the spec's decision D12). -/
def Obligations.CallRules : Prop :=
  ∀ (s : State) (cond : Cond) (lo hi : Byte),
    let a16 := joinBytes hi lo
    Encodes (.call a16) [0xCD, lo, hi] ∧ Encodes (.call a16) [0xDD, lo, hi] ∧ Encodes (.call a16) [0xED, lo, hi] ∧
    Encodes (.call a16) [0xFD, lo, hi] ∧ Encodes (condCall cond a16) [BitVec.ofNat 8 (0xC4 + 8 * Cond.code cond), lo, hi] ∧
    OperandFetchFaults 0xCD 3 ∧ OperandFetchFaults 0xDD 3 ∧ OperandFetchFaults 0xED 3 ∧ OperandFetchFaults 0xFD 3 ∧
    OperandFetchFaults (BitVec.ofNat 8 (0xC4 + 8 * Cond.code cond)) 3 ∧
    (s.pushOpen → exec (.call a16) s = .next ((s.afterPush s.pc).setPC a16)) ∧
    PushFaults s s.pc (exec (.call a16) s) ∧
    (s.flags.holds cond = true →
      (s.pushOpen → exec (condCall cond a16) s = .next ((s.afterPush s.pc).setPC a16)) ∧
      PushFaults s s.pc (exec (condCall cond a16) s)) ∧
    (s.flags.holds cond = false → exec (condCall cond a16) s = .next s)

/-- RET, and RNZ, RZ, RNC, RC, RPO, RPE, RP, RM: PC takes the word at the top of the stack and SP goes up
by 2; not taken, nothing happens (44 R226, R227). -/
def Obligations.ReturnRules : Prop :=
  ∀ (s : State) (cond : Cond),
    Encodes .ret [0xC9] ∧ Encodes .ret [0xD9] ∧ Encodes (condReturn cond) [BitVec.ofNat 8 (0xC0 + 8 * Cond.code cond)] ∧
    (s.popOpen → exec .ret s = .next (s.afterPop.setPC (s.wordAt s.sp))) ∧
    PopFaults s (exec .ret s) ∧
    (s.flags.holds cond = true →
      (s.popOpen → exec (condReturn cond) s = .next (s.afterPop.setPC (s.wordAt s.sp))) ∧
      PopFaults s (exec (condReturn cond) s)) ∧
    (s.flags.holds cond = false → exec (condReturn cond) s = .next s)

/-- RST n pushes PC and jumps to 8 × n; INTE is not changed (44 R228). -/
def Obligations.RestartRule : Prop :=
  ∀ (s : State) (n : BitVec 3),
    Encodes (.rst n) [BitVec.ofNat 8 (0xC7 + 8 * n.toNat)] ∧
    (s.pushOpen → exec (.rst n) s = .next ((s.afterPush s.pc).setPC (BitVec.ofNat 16 (8 * n.toNat)))) ∧
    PushFaults s s.pc (exec (.rst n) s)

/-! ## The stack -/

/-- PUSH B, D, H and PSW: SP goes down by 2, the high byte lies at SP - 1 and the low byte at SP - 2 of the
old SP, and every other byte of memory and every register stays (45 R241, R242). -/
def Obligations.PushRules : Prop :=
  ∀ (s : State) (rp : StackPair),
    Encodes (.push rp) [BitVec.ofNat 8 (0xC5 + 8 * rp.code)] ∧
    PushFaults s (s.stackPair rp) (exec (.push rp) s) ∧
    (s.pushOpen → ∃ t, exec (.push rp) s = .next t ∧
      t.sp = s.sp - 2 ∧
      t.mem.read (s.sp - 1).toNat = (match rp with | .bc => s.b | .de => s.d | .hl => s.h | .psw => s.a) ∧
      t.mem.read (s.sp - 2).toNat = (match rp with | .bc => s.c | .de => s.e | .hl => s.l | .psw => s.flags.toByte) ∧
      (∀ addr, addr ≠ (s.sp - 1).toNat → addr ≠ (s.sp - 2).toNat → t.mem.read addr = s.mem.read addr) ∧
      t = { s with sp := t.sp, spWrapped := false, mar := s.sp - 2, mem := t.mem })

/-- POP B, D, H and PSW: the low register (or the flags) from SP, the high register (or A) from SP + 1, SP
up by 2; POP PSW restores all four flags from bits 7, 6, 2 and 0 (45 R243, R244; that a fault on the second
read leaves the pair unwritten is the spec's decision D13). -/
def Obligations.PopRules : Prop :=
  ∀ (s : State) (rp : StackPair),
    let lo := s.mem.read s.sp.toNat
    let hi := s.mem.read (s.sp + 1).toNat
    Encodes (.pop rp) [BitVec.ofNat 8 (0xC1 + 8 * rp.code)] ∧
    PopFaults s (exec (.pop rp) s) ∧
    (s.popOpen →
      exec (.pop .bc) s = .next { s.afterPop with b := hi, c := lo } ∧
      exec (.pop .de) s = .next { s.afterPop with d := hi, e := lo } ∧
      exec (.pop .hl) s = .next { s.afterPop with h := hi, l := lo } ∧
      exec (.pop .psw) s = .next { s.afterPop with
        a := hi, flags := { s := lo.getLsbD 7, z := lo.getLsbD 6, p := lo.getLsbD 2, cy := lo.getLsbD 0 } })

/-- The flag byte: S in bit 7, Z in bit 6, P in bit 2, CY in bit 0 and every other bit 0; it unpacks to the
flags it was packed from, and packing what was unpacked from b gives b AND 0xC5 (10 R34, R35). -/
def Obligations.FlagByteLayout : Prop :=
  (∀ f : Flags,
    f.toByte.getLsbD 7 = f.s ∧ f.toByte.getLsbD 6 = f.z ∧ f.toByte.getLsbD 5 = false ∧ f.toByte.getLsbD 4 = false ∧
    f.toByte.getLsbD 3 = false ∧ f.toByte.getLsbD 2 = f.p ∧ f.toByte.getLsbD 1 = false ∧ f.toByte.getLsbD 0 = f.cy ∧
    Flags.ofByte f.toByte = f) ∧
  (∀ b : Byte, (Flags.ofByte b).toByte = b &&& 0xC5)

/-- A push and a pop of the same pair complete, restore the registers and flags, and leave SP (10 R31). -/
def Obligations.PushPopRoundTrip : Prop :=
  ∀ (s : State) (rp : StackPair), s.pushOpen →
    ∃ t u, exec (.push rp) s = .next t ∧ exec (.pop rp) t = .next u ∧
      u.sp = s.sp ∧ u.flags = s.flags ∧ ∀ r : RegName, u.reg r = s.reg r

/-- StackUnderflow is raised by PUSH, CALL, a taken Ccc and RST, with SP = 0 at the byte's push, and by no
other instruction (60 R281; interrupt acceptance is stated in InterruptAcceptance). -/
def Obligations.StackUnderflowOnlyByPushes : Prop :=
  ∀ (i : Instr) (s left : State) (sp : Word), exec i s = .fault (.stackUnderflow sp left) →
    sp = 0 ∧ s.sp.toNat ≤ 1 ∧
    ((∃ rp, i = .push rp) ∨ (∃ a16, i = .call a16) ∨ (∃ n, i = .rst n) ∨
      (∃ cond a16, i = condCall cond a16 ∧ s.flags.holds cond = true))

/-! ## Input and output, control -/

/-- IN replaces A with the port's stored value; a number of N_PORTS or more faults (46 R256). -/
def Obligations.InputRule : Prop :=
  ∀ (s : State) (p8 : Byte),
    Encodes (.inp p8) [0xDB, p8] ∧ OperandFetchFaults 0xDB 2 ∧
    (p8.toNat < s.cfg.nPorts → exec (.inp p8) s = .next { s with a := s.ports.read p8.toNat }) ∧
    (s.cfg.nPorts ≤ p8.toNat → exec (.inp p8) s = .fault (.portOutOfRange p8 s))

/-- OUT stores A into the port's cell and changes no other cell; to an ignored port it changes nothing;
the range check comes first (46 R257; the range fault and the ignored set are the spec's decisions D3, D4). -/
def Obligations.OutputRule : Prop :=
  ∀ (s : State) (p8 : Byte),
    Encodes (.out p8) [0xD3, p8] ∧ OperandFetchFaults 0xD3 2 ∧
    (p8.toNat < s.cfg.nPorts → p8 ∉ s.cfg.outIgnoredPorts → ∃ t, exec (.out p8) s = .next t ∧
      t.ports.read p8.toNat = s.a ∧ (∀ k, k ≠ p8.toNat → t.ports.read k = s.ports.read k) ∧
      t = { s with ports := t.ports }) ∧
    (p8.toNat < s.cfg.nPorts → p8 ∈ s.cfg.outIgnoredPorts → exec (.out p8) s = .next s) ∧
    (s.cfg.nPorts ≤ p8.toNat → exec (.out p8) s = .fault (.portOutOfRange p8 s))

/-- NOP and its seven other encodings: the step advances PC by 1, loads MAR by the fetch, reports the cycle
cost, and changes nothing else (47 R265, R266). -/
def Obligations.NopRule : Prop :=
  ∀ (s : State), exec .nop s = .next s ∧
    ∀ op ∈ ([0x00, 0x08, 0x10, 0x18, 0x20, 0x28, 0x30, 0x38] : List Byte),
      Encodes .nop [op] ∧
      (s.halted = false → s.fetchOpen → s.mem.read s.pc.toNat = op → dispatchMaps s.cfg op = true →
        step s = .next { s with
          pc := s.pc + 1, pcWrapped := decide (s.pc = 0xFFFF), mar := s.pc,
          report := .continuing (cycleEntry s.cfg .nop).taken })

/-- DI, STC and CMC (47 R269 to R271). -/
def Obligations.FlagControlRules : Prop :=
  ∀ s : State,
    Encodes .di [0xF3] ∧ exec .di s = .next { s with inte := false } ∧
    Encodes .stc [0x37] ∧ exec .stc s = .next { s with flags := { z := s.flags.z, s := s.flags.s, p := s.flags.p, cy := true } } ∧
    Encodes .cmc [0x3F] ∧ exec .cmc s = .next { s with flags := { z := s.flags.z, s := s.flags.s, p := s.flags.p, cy := !s.flags.cy } }

/-- EI sets INTE in its own step and HLT sets HALTED, and nothing else changes; the step after HLT answers
Halted (47 R267, R268; that EI acts at once and that HLT's own step continues are the spec's decisions D16, D24). -/
def Obligations.EnableAndHaltRules : Prop :=
  ∀ s : State,
    Encodes .ei [0xFB] ∧ exec .ei s = .next { s with inte := true } ∧
    Encodes .hlt [0x76] ∧
    ∃ t, exec .hlt s = .next t ∧ t = { s with halted := true } ∧ step t = .next { t with report := .halted }

/-! ## Frames: what an instruction leaves unchanged -/

/-- Every general register an instruction does not name as written keeps its value: `Instr.destRegs` lists
the written ones (10 R20, R21). -/
def Obligations.GeneralRegisterFrame : Prop :=
  ∀ (i : Instr) (s t : State), exec i s = .next t → ∀ r, r ∉ Instr.destRegs i → t.reg r = s.reg r

/-- Flags outside `Instr.flagsWritten`, the table of 10 R33, keep their values. -/
def Obligations.FlagFrame : Prop :=
  ∀ (i : Instr) (s t : State), exec i s = .next t →
    ((Instr.flagsWritten s.cfg i).zsp = false → t.flags.z = s.flags.z ∧ t.flags.s = s.flags.s ∧ t.flags.p = s.flags.p) ∧
    ((Instr.flagsWritten s.cfg i).cy = false → t.flags.cy = s.flags.cy)

/-- SP is written by LXI SP, INX SP, DCX SP, SPHL, pushes and pops and by nothing else (10 R29); PC is
written, after the fetches, by the instructions of 44 R229 and by nothing else. -/
def Obligations.PointerFrame : Prop :=
  ∀ (i : Instr) (s t : State), exec i s = .next t →
    (Instr.writesSP i = false → t.sp = s.sp ∧ t.spWrapped = s.spWrapped) ∧
    (Instr.writesPC i = false → t.pc = s.pc ∧ t.pcWrapped = s.pcWrapped)

/-- INTE is written by EI and DI only, HALTED by HLT only, PORT by OUT only, and no instruction touches the
configuration or the report; "no step changes" the configuration (10 R20, R39, R40, R41; interrupt acceptance
and the host's port load are not instructions). -/
def Obligations.ControlFrame : Prop :=
  (∀ s t : State, step s = .next t → t.cfg = s.cfg) ∧
  ∀ (i : Instr) (s t : State), exec i s = .next t →
    (i ≠ .ei → i ≠ .di → t.inte = s.inte) ∧ (i ≠ .hlt → t.halted = s.halted) ∧
    ((∀ p8, i ≠ .out p8) → t.ports = s.ports) ∧ t.cfg = s.cfg ∧ t.report = s.report

/-- Every byte of memory outside the addresses an instruction stores to, `Instr.storeAddrs` of the state its
meaning starts in, reads as before (20 R61, R67). -/
def Obligations.MemoryFrame : Prop :=
  ∀ (i : Instr) (s t : State), exec i s = .next t →
    ∀ addr, addr ∉ Instr.storeAddrs s i → t.mem.read addr = s.mem.read addr

/-! ## Reset, invariants, whole-machine rules -/

/-- After reset MEM_SIZE is the image's length and MEM[a] is the image's byte a (70 R322). An image of no byte
or more than 65536 bytes is outside the contract (70 R322); that the model refuses it, an empty one too, is the
treatment of 93 U29 as log 10 takes it. -/
def Obligations.ResetMemoryIsTheImage : Prop :=
  ∀ (s : State) (regs : ResetRegs) (image : List Byte),
    (1 ≤ image.length → image.length ≤ 65536 →
      ∃ t, hostReset regs image s = .next t ∧ t.cfg.memSize = image.length ∧
        ∀ a, a < image.length → some (t.mem.read a) = image[a]?) ∧
    ((image.length < 1 ∨ 65536 < image.length) → hostReset regs image s = .refused (.imageOutOfContract image.length))

/-- After reset PC = 0, HALTED = 0 and INTE = 0 (70 R321, whose INTE is the spec's decision D17), A, B, C, D, E,
H, L, SP, the flags, MAR and the ports are RESET_REGS, whatever they are (70 R323), and the configuration is
the one before, which reset does not touch, but for MEM_SIZE (70 R324). -/
def Obligations.ResetEntryState : Prop :=
  ∀ (s : State) (regs : ResetRegs) (image : List Byte) (t : State), hostReset regs image s = .next t →
    t.cfg = { s.cfg with memSize := image.length } ∧
    t.pc = 0 ∧ t.halted = false ∧ t.inte = false ∧
    t.a = regs.a ∧ t.b = regs.b ∧ t.c = regs.c ∧ t.d = regs.d ∧ t.e = regs.e ∧ t.h = regs.h ∧ t.l = regs.l ∧
    t.sp = regs.sp ∧ t.flags = regs.flags ∧ t.mar = regs.mar ∧
    (∀ n, n < s.cfg.nPorts → n < regs.ports.length → some (t.ports.read n) = regs.ports[n]?)

/-- The state after reset meets the invariant. -/
def Obligations.ResetMeetsTheInvariant : Prop := State.reset.Inv

/-- Every step keeps the invariant: the configuration in range, memory and ports canonical and inside
MEM_SIZE and N_PORTS (00 R7, R8; 20 R60). -/
def Obligations.StepKeepsTheInvariant : Prop :=
  ∀ s t : State, s.Inv → step s = .next t → t.Inv

/-- Every transaction of the host keeps the invariant, whatever RESET_REGS is (00 R6, 60 R300), and none touches
the configuration but a reset, which replaces MEM_SIZE by its image's length (70 R324). -/
def Obligations.TransactionsKeepTheInvariant : Prop :=
  ∀ (regs : ResetRegs) (tr : Transaction) (s t : State), transact regs tr s = .next t →
    (s.Inv → t.Inv) ∧
    ((∀ image, tr ≠ .reset image) → t.cfg = s.cfg) ∧
    (∀ image, tr = .reset image → t.cfg = { s.cfg with memSize := image.length })

/-- Nothing reads MAR: the step from a state with any other value in the latch answers a state that differs
at most in it (10 R42). -/
def Obligations.LatchIsNeverRead : Prop :=
  ∀ (s t : State) (m : Word), step s = .next t →
    ∃ u, step { s with mar := m } = .next u ∧ { u with mar := t.mar } = t

/-- "The architectural state after a step is the same whatever CYCLES table is in use" (70 R335): only the
report and the table itself can differ. -/
def Obligations.CycleTableIsNeverRead : Prop :=
  ∀ (s t : State) (table : List (Byte × CycleCost)), step s = .next t →
    ∃ u, step { s with cfg := { s.cfg with cycleOverrides := table } } = .next u ∧
      { u with cfg := t.cfg, report := t.report } = t

/-- The default CYCLES table, row by row: with no override the count an instruction reports is that of 70 R336,
for conditional calls and returns by the path the flags choose, for the 8-bit operand forms by register or M; it
lies between 4 and 18. The numbers are log 13 (PRESUMED: the spec takes them from general knowledge, D18). -/
def Obligations.DefaultCycleTable : Prop :=
  ∀ s : State, s.cfg.cycleOverrides = [] →
    (∀ i ∈ ([.nop, .ei, .di, .stc, .cmc, .cma, .daa, .rlc, .rrc, .ral, .rar, .xchg] : List Instr), cycleCost i s = 4) ∧
    (∀ dst src, dst ≠ .m → src ≠ .m → cycleCost (.mov dst src) s = 5) ∧
    (∀ r, cycleCost (.mov r .m) s = 7 ∧ cycleCost (.mov .m r) s = 7) ∧
    cycleCost .hlt s = 7 ∧
    (∀ r d8, r ≠ .m → cycleCost (.mvi r d8) s = 7) ∧ (∀ d8, cycleCost (.mvi .m d8) s = 10) ∧
    (∀ rp d16, cycleCost (.lxi rp d16) s = 10) ∧
    (∀ rp, cycleCost (.ldax rp) s = 7 ∧ cycleCost (.stax rp) s = 7) ∧
    (∀ a16, cycleCost (.lda a16) s = 13 ∧ cycleCost (.sta a16) s = 13 ∧
      cycleCost (.lhld a16) s = 16 ∧ cycleCost (.shld a16) s = 16) ∧
    (∀ alu ∈ ([.add, .adc, .sub, .sbb, .ana, .xra, .ora, .cmp] : List (R8 → Instr)),
      (∀ r, r ≠ .m → cycleCost (alu r) s = 4) ∧ cycleCost (alu .m) s = 7) ∧
    (∀ alu ∈ ([.adi, .aci, .sui, .sbi, .ani, .xri, .ori, .cpi] : List (Byte → Instr)), ∀ d8, cycleCost (alu d8) s = 7) ∧
    (∀ r, r ≠ .m → cycleCost (.inr r) s = 5 ∧ cycleCost (.dcr r) s = 5) ∧
    cycleCost (.inr .m) s = 10 ∧ cycleCost (.dcr .m) s = 10 ∧
    (∀ rp, cycleCost (.inx rp) s = 5 ∧ cycleCost (.dcx rp) s = 5 ∧ cycleCost (.dad rp) s = 10) ∧
    (∀ cond a16, cycleCost (.jmp a16) s = 10 ∧ cycleCost (condJump cond a16) s = 10 ∧ cycleCost (.call a16) s = 17 ∧
      cycleCost (condCall cond a16) s = (if s.flags.holds cond then 17 else 11)) ∧
    cycleCost .ret s = 10 ∧ (∀ cond, cycleCost (condReturn cond) s = (if s.flags.holds cond then 11 else 5)) ∧
    (∀ n, cycleCost (.rst n) s = 11) ∧ cycleCost .pchl s = 5 ∧ cycleCost .sphl s = 5 ∧
    (∀ rp, cycleCost (.push rp) s = 11 ∧ cycleCost (.pop rp) s = 10) ∧ cycleCost .xthl s = 18 ∧
    (∀ p8, cycleCost (.inp p8) s = 10 ∧ cycleCost (.out p8) s = 10) ∧
    (∀ i, 4 ≤ (cycleCost i s).toNat ∧ (cycleCost i s).toNat ≤ 18)

/-- A store is seen by the next fetch of the same address, with nothing in between (20 R80). -/
def Obligations.StoreIsSeenByFetch : Prop :=
  ∀ (s : State) (a16 : Word), s.byteOpen a16 →
    ∃ t, exec (.sta a16) s = .next t ∧
      ∃ u, exec (.jmp a16) t = .next u ∧ fetchByte u = .ok s.a u.afterFetch

/-! ## The top of the address space and the host -/

/-- Under TOP_OF_SPACE_POLICY = fault the first stream read after PC ran out of 0xFFFF, with no write of PC in
between, faults at 0x10000, be it of an opcode or of an operand byte, and a jump in between clears the note; SP out of 0xFFFF is treated alike, on its
second read and on the pop after it (10 R28, R30, the alternative of the spec's decision D10; the latches that
note it are the model's, log 6). -/
def Obligations.TopOfSpaceFaultPolicy : Prop :=
  ∀ (s : State) (a16 : Word) (rp : StackPair), s.cfg.topOfSpace = .fault →
    (s.halted = false → s.pcWrapped = true → ∃ left, step s = .fault (.outOfBounds .fetch 65536 left)) ∧
    (∀ k, s.halted = false → dispatchMaps s.cfg (s.mem.read s.pc.toNat) = true → 1 ≤ k →
      k < instrLength (s.mem.read s.pc.toNat) → s.streamOpen k → (s.afterFetches k).pcWrapped = true →
      step s = .fault (.outOfBounds .fetch 65536 (s.afterFetches k))) ∧
    (s.pc = 0xFFFF → s.afterFetch.pcWrapped = true) ∧
    (∃ t, exec (.jmp a16) s = .next t ∧ t.pcWrapped = false) ∧
    (s.spWrapped = true → ∃ left, exec (.pop rp) s = .fault (.outOfBounds .stackRead 65536 left)) ∧
    (s.spWrapped = false → s.cfg.memSize = 65536 →
      (s.sp = 0xFFFF → ∃ left, exec (.pop rp) s = .fault (.outOfBounds .stackRead 65536 left)) ∧
      (s.sp = 0xFFFE → ∃ t, exec (.pop rp) s = .next t ∧ t.sp = 0 ∧ t.spWrapped = true)) ∧
    (∃ t, exec (.lxi .sp a16) s = .next t ∧ t.spWrapped = false)

/-- Acceptance of an interrupt: INTE is cleared, PC is saved on the stack, PC becomes 8 × n, the registers and
flags stay, and the count reported is INT_CYCLES; the faults are those of the push (60 R293, the atomic
form of the spec's decision D15). -/
def Obligations.InterruptAcceptance : Prop :=
  ∀ (s : State) (n : BitVec 3), s.halted = false → (s.inte = true ∨ s.cfg.intGatedByInte = false) →
    (s.pushOpen → ∃ t, interrupt n s = .next t ∧
      t.inte = false ∧ t.pc = BitVec.ofNat 16 (8 * n.toNat) ∧ t.sp = s.sp - 2 ∧
      t.mem.read (s.sp - 1).toNat = hiByte s.pc ∧ t.mem.read (s.sp - 2).toNat = loByte s.pc ∧
      (∀ addr, addr ≠ (s.sp - 1).toNat → addr ≠ (s.sp - 2).toNat → t.mem.read addr = s.mem.read addr) ∧
      t.report = .accepted s.cfg.intCycles ∧
      t = { s with
        inte := false, pc := t.pc, pcWrapped := false, sp := t.sp, spWrapped := false,
        mar := s.sp - 2, mem := t.mem, report := t.report }) ∧
    PushFaults s s.pc (interrupt n s)

/-- A request is ignored, and changes nothing but the report, while the block is halted, and while INTE = 0
under INT_GATED_BY_INTE (60 R292, R294, the spec's decision D14). -/
def Obligations.InterruptIgnored : Prop :=
  ∀ (s : State) (n : BitVec 3),
    (s.halted = true ∨ (s.cfg.intGatedByInte = true ∧ s.inte = false)) →
    interrupt n s = .next { s with report := .ignored }

/-- RET from an accepted interrupt comes back to the interrupted instruction with SP as it was, and leaves
INTE clear (60 R293, R295). -/
def Obligations.ReturnFromInterrupt : Prop :=
  ∀ (s : State) (n : BitVec 3), s.halted = false → s.inte = true → s.pushOpen →
    ∃ t u, interrupt n s = .next t ∧ exec .ret t = .next u ∧
      u.pc = s.pc ∧ u.sp = s.sp ∧ u.inte = false ∧ u.flags = s.flags ∧ ∀ r, u.reg r = s.reg r

/-- One port array: what the host loads, the host observes and IN reads; what OUT stores, the host observes;
and the load changes nothing but the cell (46 R259; one array is the spec's decision D5). -/
def Obligations.OnePortArray : Prop :=
  ∀ (s : State) (p8 v : Byte), p8.toNat < s.cfg.nPorts →
    (∃ t, setInputPort p8 v s = .next t ∧ t = { s with ports := t.ports } ∧
      (∀ k, k ≠ p8.toNat → t.ports.read k = s.ports.read k) ∧
      readOutputPort p8 t = some v ∧ exec (.inp p8) t = .next { t with a := v }) ∧
    (p8 ∉ s.cfg.outIgnoredPorts → ∃ t, exec (.out p8) s = .next t ∧ readOutputPort p8 t = some s.a)
end

