-- ==== Sys2Proof/Laws/Memory.lean ====
section
/-! SUPPORT. Laws of the cell store: a read after a write, and that every operation keeps the canonical
form and the range of keys. -/

namespace Sys2Proof.Machine

@[simp] theorem Cells.read_nil (a : Nat) : Cells.read [] a = unlistedByte := rfl

theorem Cells.read_cons (k : Nat) (v : Byte) (rest : Cells) (a : Nat) :
    Cells.read ((k, v) :: rest) a = if k = a then v else Cells.read rest a := rfl

theorem Cells.read_remove (m : Cells) (a b : Nat) :
    (m.remove a).read b = if a = b then unlistedByte else m.read b := by
  induction m with
  | nil => simp [Cells.remove]
  | cons cell rest ih =>
    obtain ⟨k, v⟩ := cell
    unfold Cells.remove at ih ⊢
    by_cases hk : k = a
    · subst hk
      simp only [List.filter, ne_eq, not_true_eq_false, decide_false, ih, Cells.read_cons]
      split <;> rfl
    · simp only [List.filter, ne_eq, hk, not_false_eq_true, decide_true, Cells.read_cons, ih]
      split
      · have : a ≠ b := by omega
        simp [this]
      · rfl

theorem Cells.read_insert (m : Cells) (a : Nat) (v : Byte) (b : Nat) :
    a ≠ b → (Cells.insert a v m).read b = m.read b := by
  intro hab
  induction m with
  | nil => simp [Cells.insert, Cells.read_cons, hab]
  | cons cell rest ih =>
    obtain ⟨k, x⟩ := cell
    simp only [Cells.insert]
    split
    · rw [Cells.read_cons, if_neg hab]
    · rw [Cells.read_cons, Cells.read_cons, ih]

/-- No cell of the store has key `a`. -/
def Cells.lacks (m : Cells) (a : Nat) : Prop := ∀ cell ∈ m, cell.1 ≠ a

theorem Cells.lacks_remove (m : Cells) (a : Nat) : (m.remove a).lacks a := by
  intro cell h
  simp only [Cells.remove, List.mem_filter, decide_eq_true_eq] at h
  exact h.2

theorem Cells.read_insert_self (m : Cells) (a : Nat) (v : Byte) (h : m.lacks a) :
    (Cells.insert a v m).read a = v := by
  induction m with
  | nil => simp [Cells.insert, Cells.read_cons]
  | cons cell rest ih =>
    obtain ⟨k, x⟩ := cell
    have hk : k ≠ a := h (k, x) (List.mem_cons_self ..)
    simp only [Cells.insert]
    split
    · simp [Cells.read_cons]
    · rw [Cells.read_cons, if_neg hk]
      exact ih fun c hc => h c (List.mem_cons_of_mem _ hc)

/-- A read after a write gives the byte written at its key and leaves every other key alone (20 R74). -/
theorem Cells.read_write (m : Cells) (a : Nat) (v : Byte) (b : Nat) :
    (m.write a v).read b = if a = b then v else m.read b := by
  unfold Cells.write
  by_cases hv : v = unlistedByte
  · rw [if_pos hv, Cells.read_remove, hv]
  · rw [if_neg hv]
    by_cases hab : a = b
    · subst hab
      rw [if_pos rfl, Cells.read_insert_self _ _ _ (Cells.lacks_remove m a)]
    · rw [if_neg hab, Cells.read_insert _ _ _ _ hab, Cells.read_remove, if_neg hab]

@[simp] theorem Cells.read_write_self (m : Cells) (a : Nat) (v : Byte) : (m.write a v).read a = v := by
  rw [Cells.read_write, if_pos rfl]

theorem Cells.read_write_ne (m : Cells) (v : Byte) {a b : Nat} (h : a ≠ b) :
    (m.write a v).read b = m.read b := by
  rw [Cells.read_write, if_neg h]

/-! ## The canonical form -/

theorem Cells.risesFrom_cons (lo k : Nat) (v : Byte) (rest : Cells) :
    Cells.risesFrom lo ((k, v) :: rest) = true ↔
      lo ≤ k ∧ v ≠ unlistedByte ∧ Cells.risesFrom (k + 1) rest = true := by
  simp [Cells.risesFrom, and_assoc]

theorem Cells.risesFrom_mono (m : Cells) {lo lo' : Nat} (h : lo' ≤ lo) (hm : Cells.risesFrom lo m = true) :
    Cells.risesFrom lo' m = true := by
  cases m with
  | nil => rfl
  | cons cell rest =>
    obtain ⟨k, v⟩ := cell
    rw [Cells.risesFrom_cons] at hm ⊢
    exact ⟨by omega, hm.2⟩

theorem Cells.risesFrom_remove (m : Cells) (a lo : Nat) (hm : Cells.risesFrom lo m = true) :
    Cells.risesFrom lo (m.remove a) = true := by
  induction m generalizing lo with
  | nil => rfl
  | cons cell rest ih =>
    obtain ⟨k, v⟩ := cell
    rw [Cells.risesFrom_cons] at hm
    obtain ⟨hlo, hv, hrest⟩ := hm
    have hr := ih (k + 1) hrest
    unfold Cells.remove at hr ⊢
    by_cases hk : k = a
    · simp only [List.filter, ne_eq, hk, not_true_eq_false, decide_false]
      exact Cells.risesFrom_mono _ (by omega) (hk ▸ hr)
    · simp only [List.filter, ne_eq, hk, not_false_eq_true, decide_true]
      exact (Cells.risesFrom_cons ..).2 ⟨hlo, hv, hr⟩

theorem Cells.risesFrom_insert (m : Cells) (a lo : Nat) (v : Byte) (hv : v ≠ unlistedByte)
    (hlack : m.lacks a) (ha : lo ≤ a) (hm : Cells.risesFrom lo m = true) :
    Cells.risesFrom lo (Cells.insert a v m) = true := by
  induction m generalizing lo with
  | nil => simp [Cells.insert, Cells.risesFrom, hv, ha]
  | cons cell rest ih =>
    obtain ⟨k, x⟩ := cell
    have hk : k ≠ a := hlack (k, x) (List.mem_cons_self ..)
    rw [Cells.risesFrom_cons] at hm
    obtain ⟨hlo, hx, hrest⟩ := hm
    simp only [Cells.insert]
    split
    · rw [Cells.risesFrom_cons, Cells.risesFrom_cons]
      exact ⟨ha, hv, by omega, hx, hrest⟩
    · rw [Cells.risesFrom_cons]
      exact ⟨hlo, hx, ih (k + 1) (fun c hc => hlack c (List.mem_cons_of_mem _ hc)) (by omega) hrest⟩

/-- A write keeps the canonical form. -/
theorem Cells.wf_write (m : Cells) (a : Nat) (v : Byte) (h : m.wf = true) : (m.write a v).wf = true := by
  unfold Cells.wf Cells.write at *
  split
  · exact Cells.risesFrom_remove m a 0 h
  · exact Cells.risesFrom_insert _ a 0 v ‹_› (Cells.lacks_remove m a) (by omega) (Cells.risesFrom_remove m a 0 h)

theorem Cells.mem_insert (m : Cells) (a : Nat) (v : Byte) (cell : Host.Cell) :
    cell ∈ Cells.insert a v m ↔ cell = (a, v) ∨ cell ∈ m := by
  induction m with
  | nil => simp [Cells.insert]
  | cons head rest ih =>
    obtain ⟨k, x⟩ := head
    simp only [Cells.insert]
    split
    · simp
    · simp only [List.mem_cons, ih]
      tauto

theorem Cells.below_iff (n : Nat) (m : Cells) : m.below n = true ↔ ∀ cell ∈ m, cell.1 < n := by
  simp [Cells.below]

/-- A write at a key in range keeps every key in range. -/
theorem Cells.below_write (m : Cells) (n a : Nat) (v : Byte) (h : m.below n = true) (ha : a < n) :
    (m.write a v).below n = true := by
  rw [Cells.below_iff] at h ⊢
  intro cell hc
  have hrem : ∀ c ∈ m.remove a, c.1 < n := fun c hc => h c (List.mem_of_mem_filter hc)
  unfold Cells.write at hc
  split at hc
  · exact hrem cell hc
  · rcases (Cells.mem_insert ..).1 hc with rfl | hc
    · exact ha
    · exact hrem cell hc

/-! ## An image -/

theorem Cells.read_ofBytesFrom_lt (image : List Byte) (k a : Nat) (h : a < k) :
    (Cells.ofBytesFrom k image).read a = unlistedByte := by
  induction image generalizing k with
  | nil => rfl
  | cons v rest ih =>
    simp only [Cells.ofBytesFrom]
    split
    · exact ih (k + 1) (by omega)
    · rw [Cells.read_cons, if_neg (by omega)]
      exact ih (k + 1) (by omega)

/-- The store of an image reads as the image's byte at every key inside it, and as the unlisted value
outside (70 R322). -/
theorem Cells.read_ofBytesFrom (image : List Byte) (k a : Nat) :
    (Cells.ofBytesFrom k image).read (k + a) = image.getD a unlistedByte := by
  induction image generalizing k a with
  | nil => simp [Cells.ofBytesFrom]
  | cons v rest ih =>
    simp only [Cells.ofBytesFrom]
    cases a with
    | zero =>
      split
      · rw [Nat.add_zero, Cells.read_ofBytesFrom_lt _ _ _ (by omega)]
        simp_all
      · simp [Cells.read_cons]
    | succ a =>
      have := ih (k + 1) a
      rw [show k + 1 + a = k + (a + 1) by omega] at this
      split
      · simpa using this
      · rw [Cells.read_cons, if_neg (by omega)]
        simpa using this

theorem Cells.read_ofBytes (image : List Byte) (a : Nat) :
    (Cells.ofBytes image).read a = image.getD a unlistedByte := by
  have h := Cells.read_ofBytesFrom image 0 a
  rw [Nat.zero_add] at h
  exact h

theorem Cells.risesFrom_ofBytesFrom (image : List Byte) (k : Nat) :
    Cells.risesFrom k (Cells.ofBytesFrom k image) = true := by
  induction image generalizing k with
  | nil => rfl
  | cons v rest ih =>
    simp only [Cells.ofBytesFrom]
    split
    · exact Cells.risesFrom_mono _ (by omega) (ih (k + 1))
    · exact (Cells.risesFrom_cons ..).2 ⟨le_refl _, ‹_›, ih (k + 1)⟩

/-- The store of an image is canonical. -/
theorem Cells.wf_ofBytes (image : List Byte) : (Cells.ofBytes image).wf = true :=
  Cells.risesFrom_ofBytesFrom image 0

theorem Cells.below_ofBytesFrom (image : List Byte) (k n : Nat) (h : k + image.length ≤ n) :
    (Cells.ofBytesFrom k image).below n = true := by
  rw [Cells.below_iff]
  induction image generalizing k with
  | nil => intro cell hc; cases hc
  | cons v rest ih =>
    simp only [List.length_cons] at h
    have hrest := ih (k + 1) (by omega)
    simp only [Cells.ofBytesFrom]
    split
    · exact hrest
    · intro cell hc
      rcases List.mem_cons.1 hc with rfl | hc
      · simp only; omega
      · exact hrest cell hc

/-- The store of an image lists no key outside it. -/
theorem Cells.below_ofBytes (image : List Byte) (n : Nat) (h : image.length ≤ n) :
    (Cells.ofBytes image).below n = true :=
  Cells.below_ofBytesFrom image 0 n (by omega)

/-- An image of zero bytes lists no cell: `State.reset`'s memory is the image of 65536 zeros (log 4). -/
theorem Cells.ofBytes_zeros (n : Nat) : Cells.ofBytes (List.replicate n unlistedByte) = [] := by
  have h : ∀ n k, Cells.ofBytesFrom k (List.replicate n unlistedByte) = [] := by
    intro n
    induction n with
    | zero => intro k; rfl
    | succ n ih =>
      intro k
      rw [List.replicate_succ, Cells.ofBytesFrom, if_pos rfl]
      exact ih (k + 1)
  exact h n 0

end Sys2Proof.Machine
end

