-- ==== Sys2Proof/Laws/State.lean ====
section
/-! SUPPORT. One lemma per field per named update of the state, true by rfl, and the reads of a pair
after a write of it. -/

namespace Sys2Proof.Machine

/-! ## setPC -/

@[simp] theorem State.setPC_cfg (s : State) (v : Word) : (s.setPC v).cfg = s.cfg := rfl
@[simp] theorem State.setPC_a (s : State) (v : Word) : (s.setPC v).a = s.a := rfl
@[simp] theorem State.setPC_b (s : State) (v : Word) : (s.setPC v).b = s.b := rfl
@[simp] theorem State.setPC_c (s : State) (v : Word) : (s.setPC v).c = s.c := rfl
@[simp] theorem State.setPC_d (s : State) (v : Word) : (s.setPC v).d = s.d := rfl
@[simp] theorem State.setPC_e (s : State) (v : Word) : (s.setPC v).e = s.e := rfl
@[simp] theorem State.setPC_h (s : State) (v : Word) : (s.setPC v).h = s.h := rfl
@[simp] theorem State.setPC_l (s : State) (v : Word) : (s.setPC v).l = s.l := rfl
@[simp] theorem State.setPC_sp (s : State) (v : Word) : (s.setPC v).sp = s.sp := rfl
@[simp] theorem State.setPC_pc (s : State) (v : Word) : (s.setPC v).pc = v := rfl
@[simp] theorem State.setPC_flags (s : State) (v : Word) : (s.setPC v).flags = s.flags := rfl
@[simp] theorem State.setPC_inte (s : State) (v : Word) : (s.setPC v).inte = s.inte := rfl
@[simp] theorem State.setPC_halted (s : State) (v : Word) : (s.setPC v).halted = s.halted := rfl
@[simp] theorem State.setPC_mem (s : State) (v : Word) : (s.setPC v).mem = s.mem := rfl
@[simp] theorem State.setPC_ports (s : State) (v : Word) : (s.setPC v).ports = s.ports := rfl
@[simp] theorem State.setPC_mar (s : State) (v : Word) : (s.setPC v).mar = s.mar := rfl
@[simp] theorem State.setPC_pcWrapped (s : State) (v : Word) : (s.setPC v).pcWrapped = false := rfl
@[simp] theorem State.setPC_spWrapped (s : State) (v : Word) : (s.setPC v).spWrapped = s.spWrapped := rfl
@[simp] theorem State.setPC_report (s : State) (v : Word) : (s.setPC v).report = s.report := rfl

/-! ## setSP -/

@[simp] theorem State.setSP_cfg (s : State) (v : Word) : (s.setSP v).cfg = s.cfg := rfl
@[simp] theorem State.setSP_a (s : State) (v : Word) : (s.setSP v).a = s.a := rfl
@[simp] theorem State.setSP_b (s : State) (v : Word) : (s.setSP v).b = s.b := rfl
@[simp] theorem State.setSP_c (s : State) (v : Word) : (s.setSP v).c = s.c := rfl
@[simp] theorem State.setSP_d (s : State) (v : Word) : (s.setSP v).d = s.d := rfl
@[simp] theorem State.setSP_e (s : State) (v : Word) : (s.setSP v).e = s.e := rfl
@[simp] theorem State.setSP_h (s : State) (v : Word) : (s.setSP v).h = s.h := rfl
@[simp] theorem State.setSP_l (s : State) (v : Word) : (s.setSP v).l = s.l := rfl
@[simp] theorem State.setSP_sp (s : State) (v : Word) : (s.setSP v).sp = v := rfl
@[simp] theorem State.setSP_pc (s : State) (v : Word) : (s.setSP v).pc = s.pc := rfl
@[simp] theorem State.setSP_flags (s : State) (v : Word) : (s.setSP v).flags = s.flags := rfl
@[simp] theorem State.setSP_inte (s : State) (v : Word) : (s.setSP v).inte = s.inte := rfl
@[simp] theorem State.setSP_halted (s : State) (v : Word) : (s.setSP v).halted = s.halted := rfl
@[simp] theorem State.setSP_mem (s : State) (v : Word) : (s.setSP v).mem = s.mem := rfl
@[simp] theorem State.setSP_ports (s : State) (v : Word) : (s.setSP v).ports = s.ports := rfl
@[simp] theorem State.setSP_mar (s : State) (v : Word) : (s.setSP v).mar = s.mar := rfl
@[simp] theorem State.setSP_pcWrapped (s : State) (v : Word) : (s.setSP v).pcWrapped = s.pcWrapped := rfl
@[simp] theorem State.setSP_spWrapped (s : State) (v : Word) : (s.setSP v).spWrapped = false := rfl
@[simp] theorem State.setSP_report (s : State) (v : Word) : (s.setSP v).report = s.report := rfl

/-! ## setBC -/

@[simp] theorem State.setBC_cfg (s : State) (v : Word) : (s.setBC v).cfg = s.cfg := rfl
@[simp] theorem State.setBC_a (s : State) (v : Word) : (s.setBC v).a = s.a := rfl
@[simp] theorem State.setBC_b (s : State) (v : Word) : (s.setBC v).b = hiByte v := rfl
@[simp] theorem State.setBC_c (s : State) (v : Word) : (s.setBC v).c = loByte v := rfl
@[simp] theorem State.setBC_d (s : State) (v : Word) : (s.setBC v).d = s.d := rfl
@[simp] theorem State.setBC_e (s : State) (v : Word) : (s.setBC v).e = s.e := rfl
@[simp] theorem State.setBC_h (s : State) (v : Word) : (s.setBC v).h = s.h := rfl
@[simp] theorem State.setBC_l (s : State) (v : Word) : (s.setBC v).l = s.l := rfl
@[simp] theorem State.setBC_sp (s : State) (v : Word) : (s.setBC v).sp = s.sp := rfl
@[simp] theorem State.setBC_pc (s : State) (v : Word) : (s.setBC v).pc = s.pc := rfl
@[simp] theorem State.setBC_flags (s : State) (v : Word) : (s.setBC v).flags = s.flags := rfl
@[simp] theorem State.setBC_inte (s : State) (v : Word) : (s.setBC v).inte = s.inte := rfl
@[simp] theorem State.setBC_halted (s : State) (v : Word) : (s.setBC v).halted = s.halted := rfl
@[simp] theorem State.setBC_mem (s : State) (v : Word) : (s.setBC v).mem = s.mem := rfl
@[simp] theorem State.setBC_ports (s : State) (v : Word) : (s.setBC v).ports = s.ports := rfl
@[simp] theorem State.setBC_mar (s : State) (v : Word) : (s.setBC v).mar = s.mar := rfl
@[simp] theorem State.setBC_pcWrapped (s : State) (v : Word) : (s.setBC v).pcWrapped = s.pcWrapped := rfl
@[simp] theorem State.setBC_spWrapped (s : State) (v : Word) : (s.setBC v).spWrapped = s.spWrapped := rfl
@[simp] theorem State.setBC_report (s : State) (v : Word) : (s.setBC v).report = s.report := rfl

/-! ## setDE -/

@[simp] theorem State.setDE_cfg (s : State) (v : Word) : (s.setDE v).cfg = s.cfg := rfl
@[simp] theorem State.setDE_a (s : State) (v : Word) : (s.setDE v).a = s.a := rfl
@[simp] theorem State.setDE_b (s : State) (v : Word) : (s.setDE v).b = s.b := rfl
@[simp] theorem State.setDE_c (s : State) (v : Word) : (s.setDE v).c = s.c := rfl
@[simp] theorem State.setDE_d (s : State) (v : Word) : (s.setDE v).d = hiByte v := rfl
@[simp] theorem State.setDE_e (s : State) (v : Word) : (s.setDE v).e = loByte v := rfl
@[simp] theorem State.setDE_h (s : State) (v : Word) : (s.setDE v).h = s.h := rfl
@[simp] theorem State.setDE_l (s : State) (v : Word) : (s.setDE v).l = s.l := rfl
@[simp] theorem State.setDE_sp (s : State) (v : Word) : (s.setDE v).sp = s.sp := rfl
@[simp] theorem State.setDE_pc (s : State) (v : Word) : (s.setDE v).pc = s.pc := rfl
@[simp] theorem State.setDE_flags (s : State) (v : Word) : (s.setDE v).flags = s.flags := rfl
@[simp] theorem State.setDE_inte (s : State) (v : Word) : (s.setDE v).inte = s.inte := rfl
@[simp] theorem State.setDE_halted (s : State) (v : Word) : (s.setDE v).halted = s.halted := rfl
@[simp] theorem State.setDE_mem (s : State) (v : Word) : (s.setDE v).mem = s.mem := rfl
@[simp] theorem State.setDE_ports (s : State) (v : Word) : (s.setDE v).ports = s.ports := rfl
@[simp] theorem State.setDE_mar (s : State) (v : Word) : (s.setDE v).mar = s.mar := rfl
@[simp] theorem State.setDE_pcWrapped (s : State) (v : Word) : (s.setDE v).pcWrapped = s.pcWrapped := rfl
@[simp] theorem State.setDE_spWrapped (s : State) (v : Word) : (s.setDE v).spWrapped = s.spWrapped := rfl
@[simp] theorem State.setDE_report (s : State) (v : Word) : (s.setDE v).report = s.report := rfl

/-! ## setHL -/

@[simp] theorem State.setHL_cfg (s : State) (v : Word) : (s.setHL v).cfg = s.cfg := rfl
@[simp] theorem State.setHL_a (s : State) (v : Word) : (s.setHL v).a = s.a := rfl
@[simp] theorem State.setHL_b (s : State) (v : Word) : (s.setHL v).b = s.b := rfl
@[simp] theorem State.setHL_c (s : State) (v : Word) : (s.setHL v).c = s.c := rfl
@[simp] theorem State.setHL_d (s : State) (v : Word) : (s.setHL v).d = s.d := rfl
@[simp] theorem State.setHL_e (s : State) (v : Word) : (s.setHL v).e = s.e := rfl
@[simp] theorem State.setHL_h (s : State) (v : Word) : (s.setHL v).h = hiByte v := rfl
@[simp] theorem State.setHL_l (s : State) (v : Word) : (s.setHL v).l = loByte v := rfl
@[simp] theorem State.setHL_sp (s : State) (v : Word) : (s.setHL v).sp = s.sp := rfl
@[simp] theorem State.setHL_pc (s : State) (v : Word) : (s.setHL v).pc = s.pc := rfl
@[simp] theorem State.setHL_flags (s : State) (v : Word) : (s.setHL v).flags = s.flags := rfl
@[simp] theorem State.setHL_inte (s : State) (v : Word) : (s.setHL v).inte = s.inte := rfl
@[simp] theorem State.setHL_halted (s : State) (v : Word) : (s.setHL v).halted = s.halted := rfl
@[simp] theorem State.setHL_mem (s : State) (v : Word) : (s.setHL v).mem = s.mem := rfl
@[simp] theorem State.setHL_ports (s : State) (v : Word) : (s.setHL v).ports = s.ports := rfl
@[simp] theorem State.setHL_mar (s : State) (v : Word) : (s.setHL v).mar = s.mar := rfl
@[simp] theorem State.setHL_pcWrapped (s : State) (v : Word) : (s.setHL v).pcWrapped = s.pcWrapped := rfl
@[simp] theorem State.setHL_spWrapped (s : State) (v : Word) : (s.setHL v).spWrapped = s.spWrapped := rfl
@[simp] theorem State.setHL_report (s : State) (v : Word) : (s.setHL v).report = s.report := rfl

/-! ## setFlags -/

@[simp] theorem State.setFlags_cfg (s : State) (r : Byte) (cy : Bool) : (s.setFlags r cy).cfg = s.cfg := rfl
@[simp] theorem State.setFlags_a (s : State) (r : Byte) (cy : Bool) : (s.setFlags r cy).a = s.a := rfl
@[simp] theorem State.setFlags_b (s : State) (r : Byte) (cy : Bool) : (s.setFlags r cy).b = s.b := rfl
@[simp] theorem State.setFlags_c (s : State) (r : Byte) (cy : Bool) : (s.setFlags r cy).c = s.c := rfl
@[simp] theorem State.setFlags_d (s : State) (r : Byte) (cy : Bool) : (s.setFlags r cy).d = s.d := rfl
@[simp] theorem State.setFlags_e (s : State) (r : Byte) (cy : Bool) : (s.setFlags r cy).e = s.e := rfl
@[simp] theorem State.setFlags_h (s : State) (r : Byte) (cy : Bool) : (s.setFlags r cy).h = s.h := rfl
@[simp] theorem State.setFlags_l (s : State) (r : Byte) (cy : Bool) : (s.setFlags r cy).l = s.l := rfl
@[simp] theorem State.setFlags_sp (s : State) (r : Byte) (cy : Bool) : (s.setFlags r cy).sp = s.sp := rfl
@[simp] theorem State.setFlags_pc (s : State) (r : Byte) (cy : Bool) : (s.setFlags r cy).pc = s.pc := rfl
@[simp] theorem State.setFlags_flags (s : State) (r : Byte) (cy : Bool) : (s.setFlags r cy).flags = Flags.ofResult r cy := rfl
@[simp] theorem State.setFlags_inte (s : State) (r : Byte) (cy : Bool) : (s.setFlags r cy).inte = s.inte := rfl
@[simp] theorem State.setFlags_halted (s : State) (r : Byte) (cy : Bool) : (s.setFlags r cy).halted = s.halted := rfl
@[simp] theorem State.setFlags_mem (s : State) (r : Byte) (cy : Bool) : (s.setFlags r cy).mem = s.mem := rfl
@[simp] theorem State.setFlags_ports (s : State) (r : Byte) (cy : Bool) : (s.setFlags r cy).ports = s.ports := rfl
@[simp] theorem State.setFlags_mar (s : State) (r : Byte) (cy : Bool) : (s.setFlags r cy).mar = s.mar := rfl
@[simp] theorem State.setFlags_pcWrapped (s : State) (r : Byte) (cy : Bool) : (s.setFlags r cy).pcWrapped = s.pcWrapped := rfl
@[simp] theorem State.setFlags_spWrapped (s : State) (r : Byte) (cy : Bool) : (s.setFlags r cy).spWrapped = s.spWrapped := rfl
@[simp] theorem State.setFlags_report (s : State) (r : Byte) (cy : Bool) : (s.setFlags r cy).report = s.report := rfl

/-! ## setAlu -/

@[simp] theorem State.setAlu_cfg (s : State) (r : AluResult) : (s.setAlu r).cfg = s.cfg := rfl
@[simp] theorem State.setAlu_a (s : State) (r : AluResult) : (s.setAlu r).a = r.value := rfl
@[simp] theorem State.setAlu_b (s : State) (r : AluResult) : (s.setAlu r).b = s.b := rfl
@[simp] theorem State.setAlu_c (s : State) (r : AluResult) : (s.setAlu r).c = s.c := rfl
@[simp] theorem State.setAlu_d (s : State) (r : AluResult) : (s.setAlu r).d = s.d := rfl
@[simp] theorem State.setAlu_e (s : State) (r : AluResult) : (s.setAlu r).e = s.e := rfl
@[simp] theorem State.setAlu_h (s : State) (r : AluResult) : (s.setAlu r).h = s.h := rfl
@[simp] theorem State.setAlu_l (s : State) (r : AluResult) : (s.setAlu r).l = s.l := rfl
@[simp] theorem State.setAlu_sp (s : State) (r : AluResult) : (s.setAlu r).sp = s.sp := rfl
@[simp] theorem State.setAlu_pc (s : State) (r : AluResult) : (s.setAlu r).pc = s.pc := rfl
@[simp] theorem State.setAlu_flags (s : State) (r : AluResult) : (s.setAlu r).flags = Flags.ofResult r.value r.carry := rfl
@[simp] theorem State.setAlu_inte (s : State) (r : AluResult) : (s.setAlu r).inte = s.inte := rfl
@[simp] theorem State.setAlu_halted (s : State) (r : AluResult) : (s.setAlu r).halted = s.halted := rfl
@[simp] theorem State.setAlu_mem (s : State) (r : AluResult) : (s.setAlu r).mem = s.mem := rfl
@[simp] theorem State.setAlu_ports (s : State) (r : AluResult) : (s.setAlu r).ports = s.ports := rfl
@[simp] theorem State.setAlu_mar (s : State) (r : AluResult) : (s.setAlu r).mar = s.mar := rfl
@[simp] theorem State.setAlu_pcWrapped (s : State) (r : AluResult) : (s.setAlu r).pcWrapped = s.pcWrapped := rfl
@[simp] theorem State.setAlu_spWrapped (s : State) (r : AluResult) : (s.setAlu r).spWrapped = s.spWrapped := rfl
@[simp] theorem State.setAlu_report (s : State) (r : AluResult) : (s.setAlu r).report = s.report := rfl

/-! ## setPair and setStackPair -/

@[simp] theorem State.setPair_cfg (s : State) (p : Pair) (v : Word) : (s.setPair p v).cfg = s.cfg := by cases p <;> rfl
@[simp] theorem State.setPair_a (s : State) (p : Pair) (v : Word) : (s.setPair p v).a = s.a := by cases p <;> rfl
@[simp] theorem State.setPair_pc (s : State) (p : Pair) (v : Word) : (s.setPair p v).pc = s.pc := by cases p <;> rfl
@[simp] theorem State.setPair_flags (s : State) (p : Pair) (v : Word) : (s.setPair p v).flags = s.flags := by cases p <;> rfl
@[simp] theorem State.setPair_inte (s : State) (p : Pair) (v : Word) : (s.setPair p v).inte = s.inte := by cases p <;> rfl
@[simp] theorem State.setPair_halted (s : State) (p : Pair) (v : Word) : (s.setPair p v).halted = s.halted := by cases p <;> rfl
@[simp] theorem State.setPair_mem (s : State) (p : Pair) (v : Word) : (s.setPair p v).mem = s.mem := by cases p <;> rfl
@[simp] theorem State.setPair_ports (s : State) (p : Pair) (v : Word) : (s.setPair p v).ports = s.ports := by cases p <;> rfl
@[simp] theorem State.setPair_mar (s : State) (p : Pair) (v : Word) : (s.setPair p v).mar = s.mar := by cases p <;> rfl
@[simp] theorem State.setPair_pcWrapped (s : State) (p : Pair) (v : Word) : (s.setPair p v).pcWrapped = s.pcWrapped := by cases p <;> rfl
@[simp] theorem State.setPair_report (s : State) (p : Pair) (v : Word) : (s.setPair p v).report = s.report := by cases p <;> rfl

@[simp] theorem State.setStackPair_cfg (s : State) (p : StackPair) (v : Word) : (s.setStackPair p v).cfg = s.cfg := by cases p <;> rfl
@[simp] theorem State.setStackPair_sp (s : State) (p : StackPair) (v : Word) : (s.setStackPair p v).sp = s.sp := by cases p <;> rfl
@[simp] theorem State.setStackPair_pc (s : State) (p : StackPair) (v : Word) : (s.setStackPair p v).pc = s.pc := by cases p <;> rfl
@[simp] theorem State.setStackPair_inte (s : State) (p : StackPair) (v : Word) : (s.setStackPair p v).inte = s.inte := by cases p <;> rfl
@[simp] theorem State.setStackPair_halted (s : State) (p : StackPair) (v : Word) : (s.setStackPair p v).halted = s.halted := by cases p <;> rfl
@[simp] theorem State.setStackPair_mem (s : State) (p : StackPair) (v : Word) : (s.setStackPair p v).mem = s.mem := by cases p <;> rfl
@[simp] theorem State.setStackPair_ports (s : State) (p : StackPair) (v : Word) : (s.setStackPair p v).ports = s.ports := by cases p <;> rfl
@[simp] theorem State.setStackPair_mar (s : State) (p : StackPair) (v : Word) : (s.setStackPair p v).mar = s.mar := by cases p <;> rfl
@[simp] theorem State.setStackPair_pcWrapped (s : State) (p : StackPair) (v : Word) : (s.setStackPair p v).pcWrapped = s.pcWrapped := by cases p <;> rfl
@[simp] theorem State.setStackPair_spWrapped (s : State) (p : StackPair) (v : Word) : (s.setStackPair p v).spWrapped = s.spWrapped := by cases p <;> rfl
@[simp] theorem State.setStackPair_report (s : State) (p : StackPair) (v : Word) : (s.setStackPair p v).report = s.report := by cases p <;> rfl

/-! ## Pairs -/

@[simp] theorem State.setBC_bc (s : State) (v : Word) : (s.setBC v).bc = v := by simp [State.bc]

@[simp] theorem State.setDE_de (s : State) (v : Word) : (s.setDE v).de = v := by simp [State.de]

@[simp] theorem State.setHL_hl (s : State) (v : Word) : (s.setHL v).hl = v := by simp [State.hl]

/-- Reading a pair reads what a write of the pair left (10 R23). -/
@[simp] theorem State.pair_setPair (s : State) (p : Pair) (v : Word) : (s.setPair p v).pair p = v := by
  cases p <;> simp [State.setPair, State.pair]

end Sys2Proof.Machine
end

