-- ==== Sys2Proof/Laws/Ops.lean ====
section
/-! SUPPORT. For each shared operation, one lemma that says once everything it can do: exactly when it
succeeds, with which value and state. Later proofs cite these and do not unfold the operation. -/

namespace Sys2Proof.Machine

/-! ## Sequencing -/

@[simp] theorem Res.bind_ok {α β : Type} (x : α) (s : State) (k : α → State → Res β) :
    (Res.ok x s).bind k = k x s := rfl

@[simp] theorem Res.bind_fault {α β : Type} (f : Fault) (k : α → State → Res β) :
    (Res.fault f : Res α).bind k = .fault f := rfl

@[simp] theorem Res.andThen_ok {α : Type} (x : α) (s : State) (k : α → State → Out) :
    (Res.ok x s).andThen k = k x s := rfl

@[simp] theorem Res.andThen_fault {α : Type} (f : Fault) (k : α → State → Out) :
    (Res.fault f : Res α).andThen k = .fault f := rfl

@[simp] theorem Res.done_ok (u : Unit) (s : State) : (Res.ok u s).done = .next s := rfl

@[simp] theorem Res.done_fault (f : Fault) : (Res.fault f).done = .fault f := rfl

theorem Res.bind_eq_ok {α β : Type} (r : Res α) (k : α → State → Res β) (y : β) (t : State) :
    r.bind k = .ok y t ↔ ∃ x s, r = .ok x s ∧ k x s = .ok y t := by
  cases r <;> simp

theorem Res.andThen_eq_next {α : Type} (r : Res α) (k : α → State → Out) (t : State) :
    r.andThen k = .next t ↔ ∃ x s, r = .ok x s ∧ k x s = .next t := by
  cases r <;> simp

theorem Res.done_eq_next (r : Res Unit) (t : State) : r.done = .next t ↔ r = .ok () t := by
  cases r <;> simp [Res.done, Res.andThen]

/-- No operation refuses: a meaning that ends in an operation's state refuses only where its tail does. -/
theorem Res.andThen_eq_refused {α : Type} (r : Res α) (k : α → State → Out) (q : Refusal) :
    r.andThen k = .refused q ↔ ∃ x s, r = .ok x s ∧ k x s = .refused q := by
  cases r <;> simp

theorem Res.done_ne_refused (r : Res Unit) (q : Refusal) : r.done ≠ .refused q := by
  cases r <;> simp [Res.done, Res.andThen]

/-! ## Stream reads -/

theorem fetchByte_eq_ok (s t : State) (b : Byte) :
    fetchByte s = .ok b t ↔ s.fetchOpen ∧ b = s.mem.read s.pc.toNat ∧ t = s.afterFetch := by
  unfold fetchByte State.fetchOpen State.afterFetch
  split
  · simp_all
  · split
    · simp; omega
    · rename_i h1 h2
      simp only [Res.ok.injEq, eq_comm (a := s.mem.read s.pc.toNat)]
      constructor
      · rintro ⟨rfl, rfl⟩
        exact ⟨⟨by simpa using h1, by omega⟩, rfl, rfl⟩
      · rintro ⟨_, rfl, rfl⟩
        exact ⟨rfl, rfl⟩

theorem fetchByte_of_open {s : State} (h : s.fetchOpen) :
    fetchByte s = .ok (s.mem.read s.pc.toNat) s.afterFetch :=
  (fetchByte_eq_ok _ _ _).2 ⟨h, rfl, rfl⟩

/-! ## Data accesses -/

theorem memRead_eq_ok (addr : Word) (s t : State) (b : Byte) :
    memRead addr s = .ok b t ↔
      addr.toNat < s.cfg.memSize ∧ b = s.mem.read addr.toNat ∧ t = { s with mar := addr } := by
  unfold memRead
  split
  · simp; omega
  · simp only [Res.ok.injEq]
    constructor
    · rintro ⟨rfl, rfl⟩
      exact ⟨by omega, rfl, rfl⟩
    · rintro ⟨_, rfl, rfl⟩
      exact ⟨rfl, rfl⟩

theorem memWrite_eq_ok (addr : Word) (v : Byte) (s t : State) (u : Unit) :
    memWrite addr v s = .ok u t ↔
      addr.toNat < s.cfg.memSize ∧ t = { s with mar := addr, mem := s.mem.write addr.toNat v } := by
  unfold memWrite
  split
  · simp; omega
  · simp only [Res.ok.injEq, true_and]
    constructor
    · rintro rfl
      exact ⟨by omega, rfl⟩
    · rintro ⟨_, rfl⟩
      rfl

theorem nextAddr_eq_ok (kind : AccessKind) (addr addr' : Word) (s t : State) :
    nextAddr kind addr s = .ok addr' t ↔
      (Config.topFaults s.cfg && decide (addr = 0xFFFF)) = false ∧ addr' = addr + 1 ∧ t = s := by
  unfold nextAddr
  split
  · simp_all
  · rename_i h
    simp only [Res.ok.injEq]
    constructor
    · rintro ⟨rfl, rfl⟩
      exact ⟨by simpa using h, rfl, rfl⟩
    · rintro ⟨_, rfl, rfl⟩
      exact ⟨rfl, rfl⟩

theorem memRead16_eq_ok (addr v : Word) (s t : State) :
    memRead16 addr s = .ok v t ↔
      s.wordOpen addr ∧ v = s.wordAt addr ∧
        t = { s with mar := addr + 1 } := by
  simp only [memRead16, Res.bind_eq_ok, memRead_eq_ok, nextAddr_eq_ok, State.wordOpen, State.wordAt, Res.ok.injEq]
  constructor
  · rintro ⟨lo, s1, ⟨h1, rfl, rfl⟩, _, s2, ⟨h2, rfl, rfl⟩, hi, s3, ⟨h3, rfl, rfl⟩, rfl, rfl⟩
    exact ⟨⟨h1, h3, h2⟩, rfl, rfl⟩
  · rintro ⟨⟨h1, h3, h2⟩, rfl, rfl⟩
    exact ⟨_, _, ⟨h1, rfl, rfl⟩, _, _, ⟨h2, rfl, rfl⟩, _, _, ⟨h3, rfl, rfl⟩, rfl, rfl⟩

theorem memWrite16_eq_ok (addr v : Word) (s t : State) (u : Unit) :
    memWrite16 addr v s = .ok u t ↔
      s.wordOpen addr ∧
        t = { s with mar := addr + 1, mem := (s.mem.write addr.toNat (loByte v)).write (addr + 1).toNat (hiByte v) } := by
  simp only [memWrite16, Res.bind_eq_ok, memWrite_eq_ok, nextAddr_eq_ok, State.wordOpen]
  constructor
  · rintro ⟨_, s1, ⟨h1, rfl⟩, _, s2, ⟨h2, rfl, rfl⟩, h3, rfl⟩
    exact ⟨⟨h1, h3, h2⟩, rfl⟩
  · rintro ⟨⟨h1, h3, h2⟩, rfl⟩
    exact ⟨(), _, ⟨h1, rfl⟩, _, _, ⟨h2, rfl, rfl⟩, h3, rfl⟩

/-! ## The stack -/

theorem pushByte_eq_ok (v : Byte) (s t : State) (u : Unit) :
    pushByte v s = .ok u t ↔
      s.sp ≠ 0 ∧ (s.sp - 1).toNat < s.cfg.memSize ∧
        t = { s with sp := s.sp - 1, spWrapped := false, mar := s.sp - 1, mem := s.mem.write (s.sp - 1).toNat v } := by
  unfold pushByte
  split
  · simp_all
  · simp_all [memWrite_eq_ok, State.setSP]

theorem push16_eq_ok (v : Word) (s t : State) (u : Unit) :
    push16 v s = .ok u t ↔ s.pushOpen ∧ t = s.afterPush v := by
  simp only [push16, Res.bind_eq_ok, pushByte_eq_ok, State.pushOpen, State.afterPush]
  have e : s.sp - 1 - 1 = s.sp - 2 := by bv_omega
  constructor
  · rintro ⟨_, s1, ⟨h0, h1, rfl⟩, h2, h3, rfl⟩
    simp only at h2 h3 ⊢
    rw [e]
    refine ⟨⟨?_, ?_⟩, rfl⟩ <;> bv_omega
  · rintro ⟨⟨h1, h2⟩, rfl⟩
    refine ⟨(), _, ⟨?_, ?_, rfl⟩, ?_, ?_, ?_⟩
    · bv_omega
    · bv_omega
    · simp only; bv_omega
    · simp only; bv_omega
    · simp only [e]

theorem popByte_eq_ok (s t : State) (b : Byte) :
    popByte s = .ok b t ↔
      (Config.topFaults s.cfg && s.spWrapped) = false ∧ s.sp.toNat < s.cfg.memSize ∧
        b = s.mem.read s.sp.toNat ∧
        t = { s with mar := s.sp, sp := s.sp + 1, spWrapped := decide (s.sp = 0xFFFF) } := by
  unfold popByte
  split
  · simp_all
  · split
    · simp; omega
    · rename_i h1 h2
      simp only [Res.ok.injEq]
      constructor
      · rintro ⟨rfl, rfl⟩
        exact ⟨by simpa using h1, by omega, rfl, rfl⟩
      · rintro ⟨_, _, rfl, rfl⟩
        exact ⟨rfl, rfl⟩

theorem pop16_eq_ok (s t : State) (v : Word) :
    pop16 s = .ok v t ↔ s.popOpen ∧ v = s.wordAt s.sp ∧ t = s.afterPop := by
  simp only [pop16, Res.bind_eq_ok, popByte_eq_ok, State.popOpen, State.wordAt, State.afterPop, Res.ok.injEq]
  have e : s.sp + 1 + 1 = s.sp + 2 := by bv_omega
  constructor
  · rintro ⟨lo, s1, ⟨h0, h1, rfl, rfl⟩, hi, s2, ⟨h2, h3, rfl, rfl⟩, rfl, rfl⟩
    refine ⟨⟨h1, h3, ?_⟩, rfl, by simp only [e]⟩
    simp_all [Bool.and_or_distrib_left]
  · rintro ⟨⟨h1, h3, h2⟩, rfl, rfl⟩
    simp only [Bool.and_or_distrib_left, Bool.or_eq_false_iff] at h2
    refine ⟨_, _, ⟨h2.1, h1, rfl, rfl⟩, _, _, ⟨h2.2, h3, rfl, rfl⟩, rfl, ?_⟩
    simp only [e]

/-! ## Calls, restarts, interrupt entry and return -/

theorem pushPCAndJump_eq_ok (target : Word) (s t : State) (u : Unit) :
    pushPCAndJump target s = .ok u t ↔ s.pushOpen ∧ t = (s.afterPush s.pc).setPC target := by
  simp only [pushPCAndJump, Res.bind_eq_ok, push16_eq_ok, Res.ok.injEq, true_and]
  constructor
  · rintro ⟨_, _, ⟨h, rfl⟩, rfl⟩
    exact ⟨h, rfl⟩
  · rintro ⟨h, rfl⟩
    exact ⟨(), _, ⟨h, rfl⟩, rfl⟩

/-- Interrupt entry clears INTE, saves PC on the stack and goes to 8n (60 R293); it succeeds exactly
when the push does. -/
theorem acceptInterrupt_eq_ok (n : BitVec 3) (s t : State) (u : Unit) :
    acceptInterrupt n s = .ok u t ↔
      s.pushOpen ∧ t = (({ s with inte := false } : State).afterPush s.pc).setPC (restartAddr n) :=
  pushPCAndJump_eq_ok ..

theorem popPC_eq_ok (s t : State) (u : Unit) :
    popPC s = .ok u t ↔ s.popOpen ∧ t = s.afterPop.setPC (s.wordAt s.sp) := by
  simp only [popPC, Res.bind_eq_ok, pop16_eq_ok, Res.ok.injEq, true_and]
  constructor
  · rintro ⟨_, _, ⟨h, rfl, rfl⟩, rfl⟩
    exact ⟨h, rfl⟩
  · rintro ⟨h, rfl⟩
    exact ⟨_, _, ⟨h, rfl, rfl⟩, rfl⟩

theorem restartAddr_toNat (n : BitVec 3) : (restartAddr n).toNat = 8 * n.toNat := by
  have := n.isLt
  simp only [restartAddr, BitVec.toNat_ofNat]
  omega

/-! ## The faults of the primitives (60 R281, R282) -/

theorem fetchByte_eq_fault (s : State) (f : Fault) :
    fetchByte s = .fault f ↔
      ((Config.topFaults s.cfg && s.pcWrapped) = true ∧ f = .outOfBounds .fetch 65536 s) ∨
      ((Config.topFaults s.cfg && s.pcWrapped) = false ∧ s.cfg.memSize ≤ s.pc.toNat ∧
        f = .outOfBounds .fetch s.pc.toNat s) := by
  unfold fetchByte
  split
  · simp_all [@eq_comm _ f]
  · split <;> simp_all [@eq_comm _ f]

theorem memRead_eq_fault (addr : Word) (s : State) (f : Fault) :
    memRead addr s = .fault f ↔ s.cfg.memSize ≤ addr.toNat ∧ f = .outOfBounds .dataRead addr.toNat s := by
  unfold memRead
  split <;> simp_all [@eq_comm _ f]

theorem memWrite_eq_fault (addr : Word) (v : Byte) (s : State) (f : Fault) :
    memWrite addr v s = .fault f ↔ s.cfg.memSize ≤ addr.toNat ∧ f = .outOfBounds .dataWrite addr.toNat s := by
  unfold memWrite
  split <;> simp_all [@eq_comm _ f]

theorem nextAddr_eq_fault (kind : AccessKind) (addr : Word) (s : State) (f : Fault) :
    nextAddr kind addr s = .fault f ↔
      (Config.topFaults s.cfg && decide (addr = 0xFFFF)) = true ∧ f = .outOfBounds kind 65536 s := by
  unfold nextAddr
  split <;> simp_all [@eq_comm _ f]

theorem pushByte_eq_fault (v : Byte) (s : State) (f : Fault) :
    pushByte v s = .fault f ↔
      (s.sp = 0 ∧ f = .stackUnderflow 0 s) ∨
      (s.sp ≠ 0 ∧ s.cfg.memSize ≤ (s.sp - 1).toNat ∧
        f = .outOfBounds .dataWrite (s.sp - 1).toNat (s.setSP (s.sp - 1))) := by
  unfold pushByte
  split
  · rename_i h
    rw [h]
    simp [@eq_comm _ f]
  · rename_i h
    rw [memWrite_eq_fault]
    simp only [h, false_and, false_or, ne_eq, not_false_eq_true, true_and]
    rfl

theorem popByte_eq_fault (s : State) (f : Fault) :
    popByte s = .fault f ↔
      ((Config.topFaults s.cfg && s.spWrapped) = true ∧ f = .outOfBounds .stackRead 65536 s) ∨
      ((Config.topFaults s.cfg && s.spWrapped) = false ∧ s.cfg.memSize ≤ s.sp.toNat ∧
        f = .outOfBounds .stackRead s.sp.toNat s) := by
  unfold popByte
  split
  · simp_all [@eq_comm _ f]
  · split <;> simp_all [@eq_comm _ f]

/-- An operation faults when its first part does, or when the rest does on the state the first part leaves. -/
theorem Res.bind_eq_fault {α β : Type} (r : Res α) (k : α → State → Res β) (f : Fault) :
    r.bind k = .fault f ↔ r = .fault f ∨ ∃ x s, r = .ok x s ∧ k x s = .fault f := by
  cases r <;> simp

theorem Res.andThen_eq_fault {α : Type} (r : Res α) (k : α → State → Out) (f : Fault) :
    r.andThen k = .fault f ↔ r = .fault f ∨ ∃ x s, r = .ok x s ∧ k x s = .fault f := by
  cases r <;> simp

theorem Res.done_eq_fault (r : Res Unit) (f : Fault) : r.done = .fault f ↔ r = .fault f := by
  cases r <;> simp [Res.done, Res.andThen]

/-! ## The faults of the 16-bit accesses, pushes and pops: the first byte's, then the second's -/

theorem memRead16_eq_fault (addr : Word) (s : State) (f : Fault) :
    memRead16 addr s = .fault f ↔
      (s.cfg.memSize ≤ addr.toNat ∧ f = .outOfBounds .dataRead addr.toNat s) ∨
      (addr.toNat < s.cfg.memSize ∧ (Config.topFaults s.cfg && decide (addr = 0xFFFF)) = true ∧
        f = .outOfBounds .dataRead 65536 { s with mar := addr }) ∨
      (addr.toNat < s.cfg.memSize ∧ (Config.topFaults s.cfg && decide (addr = 0xFFFF)) = false ∧
        s.cfg.memSize ≤ (addr + 1).toNat ∧
        f = .outOfBounds .dataRead (addr + 1).toNat { s with mar := addr }) := by
  simp only [memRead16, Res.bind_eq_fault, memRead_eq_fault, memRead_eq_ok, nextAddr_eq_fault, nextAddr_eq_ok]
  aesop

theorem memWrite16_eq_fault (addr v : Word) (s : State) (f : Fault) :
    memWrite16 addr v s = .fault f ↔
      (s.cfg.memSize ≤ addr.toNat ∧ f = .outOfBounds .dataWrite addr.toNat s) ∨
      (addr.toNat < s.cfg.memSize ∧ (Config.topFaults s.cfg && decide (addr = 0xFFFF)) = true ∧
        f = .outOfBounds .dataWrite 65536 { s with mar := addr, mem := s.mem.write addr.toNat (loByte v) }) ∨
      (addr.toNat < s.cfg.memSize ∧ (Config.topFaults s.cfg && decide (addr = 0xFFFF)) = false ∧
        s.cfg.memSize ≤ (addr + 1).toNat ∧
        f = .outOfBounds .dataWrite (addr + 1).toNat { s with mar := addr, mem := s.mem.write addr.toNat (loByte v) }) := by
  simp only [memWrite16, Res.bind_eq_fault, memWrite_eq_fault, memWrite_eq_ok, nextAddr_eq_fault, nextAddr_eq_ok]
  aesop

theorem push16_eq_fault (v : Word) (s : State) (f : Fault) :
    push16 v s = .fault f ↔
      pushByte (hiByte v) s = .fault f ∨
      (s.sp ≠ 0 ∧ (s.sp - 1).toNat < s.cfg.memSize ∧
        pushByte (loByte v) { s with
          sp := s.sp - 1, spWrapped := false, mar := s.sp - 1, mem := s.mem.write (s.sp - 1).toNat (hiByte v) } = .fault f) := by
  simp only [push16, Res.bind_eq_fault, pushByte_eq_ok]
  aesop

theorem pop16_eq_fault (s : State) (f : Fault) :
    pop16 s = .fault f ↔
      popByte s = .fault f ∨
      ((Config.topFaults s.cfg && s.spWrapped) = false ∧ s.sp.toNat < s.cfg.memSize ∧
        popByte { s with mar := s.sp, sp := s.sp + 1, spWrapped := decide (s.sp = 0xFFFF) } = .fault f) := by
  simp only [pop16, Res.bind_eq_fault, popByte_eq_ok]
  aesop

end Sys2Proof.Machine
end

