-- ==== Sys2Proof/Laws/Operands.lean ====
section
/-! SUPPORT. What access to an operand does (spec 00 R18), and the flag byte's round trip (10 R35). -/

namespace Sys2Proof.Machine

theorem readR8_eq_ok (o : R8) (s t : State) (v : Byte) :
    readR8 o s = .ok v t ↔ s.operandOpen o ∧ v = s.operand o ∧ t = s.touched o := by
  cases o
  case m => simp [readR8, memRead_eq_ok, State.operandOpen, State.byteOpen, State.operand, State.touched]
  all_goals
    simp only [readR8, State.operandOpen, State.operand, State.touched, Res.ok.injEq, reduceCtorEq,
      false_implies, true_and, if_false, eq_comm]

theorem writeR8_eq_ok (o : R8) (v : Byte) (s t : State) (u : Unit) :
    writeR8 o v s = .ok u t ↔ s.operandOpen o ∧ t = s.withOperand o v := by
  cases o
  case m => simp [writeR8, memWrite_eq_ok, State.operandOpen, State.byteOpen, State.withOperand]
  all_goals
    simp only [writeR8, State.operandOpen, State.withOperand, Res.ok.injEq, reduceCtorEq,
      false_implies, true_and, eq_comm]

theorem readR8_of_open {s : State} {o : R8} (h : s.operandOpen o) :
    readR8 o s = .ok (s.operand o) (s.touched o) :=
  (readR8_eq_ok _ _ _ _).2 ⟨h, rfl, rfl⟩

theorem writeR8_of_open {s : State} {o : R8} (v : Byte) (h : s.operandOpen o) :
    writeR8 o v s = .ok () (s.withOperand o v) :=
  (writeR8_eq_ok _ _ _ _ _).2 ⟨h, rfl⟩

/-- The flags survive the flag byte: "internally consistent (round-trips correctly)" (10 R35). -/
@[simp] theorem Flags.ofByte_toByte (f : Flags) : Flags.ofByte f.toByte = f := by
  obtain ⟨z, s, p, cy⟩ := f
  cases z <;> cases s <;> cases p <;> cases cy <;> rfl

@[simp] theorem Flags.ofResult_z (r : Byte) (c : Bool) : (Flags.ofResult r c).z = decide (r = 0) := rfl
@[simp] theorem Flags.ofResult_s (r : Byte) (c : Bool) : (Flags.ofResult r c).s = r.getLsbD 7 := rfl
@[simp] theorem Flags.ofResult_p (r : Byte) (c : Bool) : (Flags.ofResult r c).p = evenParity r := rfl
@[simp] theorem Flags.ofResult_cy (r : Byte) (c : Bool) : (Flags.ofResult r c).cy = c := rfl

end Sys2Proof.Machine
end

