-- ==== Sys2Proof/Laws/Flags.lean ====
section
/-! SUPPORT. The adder and subtractor as wrapping BitVec arithmetic beside an exact carry (40 R130), and
when a condition's two complements hold (44 R220). -/

namespace Sys2Proof.Machine

theorem add8_value (a b : Byte) (c : Bool) : (add8 a b c).value = a + b + BitVec.ofNat 8 c.toNat := by
  apply BitVec.eq_of_toNat_eq
  simp [add8, BitVec.toNat_add, Nat.add_mod]

theorem add8_carry (a b : Byte) (c : Bool) :
    (add8 a b c).carry = decide (255 < a.toNat + b.toNat + c.toNat) := rfl

theorem sub8_value (a b : Byte) (c : Bool) : (sub8 a b c).value = a - b - BitVec.ofNat 8 c.toNat := by
  apply BitVec.eq_of_toNat_eq
  have ha := a.isLt
  have hb := b.isLt
  cases c <;> simp only [sub8, BitVec.toNat_ofInt, BitVec.toNat_sub, BitVec.toNat_ofNat, Bool.toNat_true,
    Bool.toNat_false] <;> omega

/-- The borrow: the subtrahend with the borrow-in is greater than the minuend (40 R130). -/
theorem sub8_carry (a b : Byte) (c : Bool) :
    (sub8 a b c).carry = decide (a.toNat < b.toNat + c.toNat) := by
  simp only [sub8, decide_eq_decide]
  omega

end Sys2Proof.Machine
end

