-- ==== Sys2Proof/Laws/Host.lean ====
section
/-! SUPPORT. What each transaction of the host can answer. -/

namespace Sys2Proof.Machine

@[simp] theorem State.resetImage_cfg (cfg : Config) (regs : ResetRegs) (image : List Byte) :
    (State.resetImage cfg regs image).cfg = { cfg with memSize := image.length } := rfl

@[simp] theorem State.resetImage_mem (cfg : Config) (regs : ResetRegs) (image : List Byte) :
    (State.resetImage cfg regs image).mem = Cells.ofBytes image := rfl

@[simp] theorem State.resetImage_ports (cfg : Config) (regs : ResetRegs) (image : List Byte) :
    (State.resetImage cfg regs image).ports = Cells.ofBytes (regs.ports.take cfg.nPorts) := rfl

theorem hostReset_eq_next (regs : ResetRegs) (image : List Byte) (s t : State) :
    hostReset regs image s = .next t ↔
      1 ≤ image.length ∧ image.length ≤ 65536 ∧ t = State.resetImage s.cfg regs image := by
  unfold hostReset
  split <;> simp_all [@eq_comm _ t]

theorem hostReset_eq_refused (regs : ResetRegs) (image : List Byte) (s : State) (r : Refusal) :
    hostReset regs image s = .refused r ↔
      (image.length < 1 ∨ 65536 < image.length) ∧ r = .imageOutOfContract image.length := by
  have : ¬ (1 ≤ image.length ∧ image.length ≤ 65536) ↔ image.length < 1 ∨ 65536 < image.length := by omega
  unfold hostReset
  rw [← this]
  split <;> simp_all [@eq_comm _ r]

theorem setInputPort_eq_next (port v : Byte) (s t : State) :
    setInputPort port v s = .next t ↔
      port.toNat < s.cfg.nPorts ∧ t = { s with ports := s.ports.write port.toNat v } := by
  unfold setInputPort
  split <;> simp_all [@eq_comm _ t]

theorem interrupt_eq_next (n : BitVec 3) (s t : State) :
    interrupt n s = .next t ↔
      ((s.halted || (s.cfg.intGatedByInte && !s.inte)) = true ∧ t = { s with report := .ignored }) ∨
      ((s.halted || (s.cfg.intGatedByInte && !s.inte)) = false ∧
        ∃ u, acceptInterrupt n s = .ok () u ∧ t = { u with report := .accepted s.cfg.intCycles }) := by
  unfold interrupt
  split
  · rename_i h
    simp [h, @eq_comm _ t]
  · rename_i h
    rw [Bool.not_eq_true] at h
    cases acceptInterrupt n s <;> simp [h, @eq_comm _ t, Res.andThen]

end Sys2Proof.Machine
end

