-- ==== Sys2Proof/Laws/PerInstr.lean ====
section
/-! SUPPORT. The per-instruction family EncodingLength: an instruction's encoding has the length the
decoder tells from its first byte (spec 30 R94, R100). -/

def Sys2Proof.Laws.EncodingLength.Statement (i : Sys2Proof.Instr) : Prop :=
  i.length = Sys2Proof.instrLength (Sys2Proof.firstByte i)

theorem Sys2Proof.Laws.EncodingLength.add (src : Sys2Proof.R8) :
    Sys2Proof.Laws.EncodingLength.Statement (.add src) := by cases src <;> rfl

theorem Sys2Proof.Laws.EncodingLength.adc (src : Sys2Proof.R8) :
    Sys2Proof.Laws.EncodingLength.Statement (.adc src) := by cases src <;> rfl

theorem Sys2Proof.Laws.EncodingLength.adi (d8 : Sys2Proof.Byte) :
    Sys2Proof.Laws.EncodingLength.Statement (.adi d8) := by
  have h : 2 = Sys2Proof.instrLength 0xC6 := by decide
  exact h

theorem Sys2Proof.Laws.EncodingLength.aci (d8 : Sys2Proof.Byte) :
    Sys2Proof.Laws.EncodingLength.Statement (.aci d8) := by
  have h : 2 = Sys2Proof.instrLength 0xCE := by decide
  exact h

theorem Sys2Proof.Laws.EncodingLength.sub (src : Sys2Proof.R8) :
    Sys2Proof.Laws.EncodingLength.Statement (.sub src) := by cases src <;> rfl

theorem Sys2Proof.Laws.EncodingLength.sbb (src : Sys2Proof.R8) :
    Sys2Proof.Laws.EncodingLength.Statement (.sbb src) := by cases src <;> rfl

theorem Sys2Proof.Laws.EncodingLength.sui (d8 : Sys2Proof.Byte) :
    Sys2Proof.Laws.EncodingLength.Statement (.sui d8) := by
  have h : 2 = Sys2Proof.instrLength 0xD6 := by decide
  exact h

theorem Sys2Proof.Laws.EncodingLength.sbi (d8 : Sys2Proof.Byte) :
    Sys2Proof.Laws.EncodingLength.Statement (.sbi d8) := by
  have h : 2 = Sys2Proof.instrLength 0xDE := by decide
  exact h

theorem Sys2Proof.Laws.EncodingLength.inr (dst : Sys2Proof.R8) :
    Sys2Proof.Laws.EncodingLength.Statement (.inr dst) := by cases dst <;> rfl

theorem Sys2Proof.Laws.EncodingLength.dcr (dst : Sys2Proof.R8) :
    Sys2Proof.Laws.EncodingLength.Statement (.dcr dst) := by cases dst <;> rfl

theorem Sys2Proof.Laws.EncodingLength.dad (rp : Sys2Proof.Pair) :
    Sys2Proof.Laws.EncodingLength.Statement (.dad rp) := by cases rp <;> rfl

theorem Sys2Proof.Laws.EncodingLength.inx (rp : Sys2Proof.Pair) :
    Sys2Proof.Laws.EncodingLength.Statement (.inx rp) := by cases rp <;> rfl

theorem Sys2Proof.Laws.EncodingLength.dcx (rp : Sys2Proof.Pair) :
    Sys2Proof.Laws.EncodingLength.Statement (.dcx rp) := by cases rp <;> rfl

theorem Sys2Proof.Laws.EncodingLength.daa :
    Sys2Proof.Laws.EncodingLength.Statement .daa := by
  have h : 1 = Sys2Proof.instrLength 0x27 := by decide
  exact h

theorem Sys2Proof.Laws.EncodingLength.ana (src : Sys2Proof.R8) :
    Sys2Proof.Laws.EncodingLength.Statement (.ana src) := by cases src <;> rfl

theorem Sys2Proof.Laws.EncodingLength.ani (d8 : Sys2Proof.Byte) :
    Sys2Proof.Laws.EncodingLength.Statement (.ani d8) := by
  have h : 2 = Sys2Proof.instrLength 0xE6 := by decide
  exact h

theorem Sys2Proof.Laws.EncodingLength.xra (src : Sys2Proof.R8) :
    Sys2Proof.Laws.EncodingLength.Statement (.xra src) := by cases src <;> rfl

theorem Sys2Proof.Laws.EncodingLength.xri (d8 : Sys2Proof.Byte) :
    Sys2Proof.Laws.EncodingLength.Statement (.xri d8) := by
  have h : 2 = Sys2Proof.instrLength 0xEE := by decide
  exact h

theorem Sys2Proof.Laws.EncodingLength.ora (src : Sys2Proof.R8) :
    Sys2Proof.Laws.EncodingLength.Statement (.ora src) := by cases src <;> rfl

theorem Sys2Proof.Laws.EncodingLength.ori (d8 : Sys2Proof.Byte) :
    Sys2Proof.Laws.EncodingLength.Statement (.ori d8) := by
  have h : 2 = Sys2Proof.instrLength 0xF6 := by decide
  exact h

theorem Sys2Proof.Laws.EncodingLength.cma :
    Sys2Proof.Laws.EncodingLength.Statement .cma := by
  have h : 1 = Sys2Proof.instrLength 0x2F := by decide
  exact h

theorem Sys2Proof.Laws.EncodingLength.cmp (src : Sys2Proof.R8) :
    Sys2Proof.Laws.EncodingLength.Statement (.cmp src) := by cases src <;> rfl

theorem Sys2Proof.Laws.EncodingLength.cpi (d8 : Sys2Proof.Byte) :
    Sys2Proof.Laws.EncodingLength.Statement (.cpi d8) := by
  have h : 2 = Sys2Proof.instrLength 0xFE := by decide
  exact h

theorem Sys2Proof.Laws.EncodingLength.rlc :
    Sys2Proof.Laws.EncodingLength.Statement .rlc := by
  have h : 1 = Sys2Proof.instrLength 0x07 := by decide
  exact h

theorem Sys2Proof.Laws.EncodingLength.rrc :
    Sys2Proof.Laws.EncodingLength.Statement .rrc := by
  have h : 1 = Sys2Proof.instrLength 0x0F := by decide
  exact h

theorem Sys2Proof.Laws.EncodingLength.ral :
    Sys2Proof.Laws.EncodingLength.Statement .ral := by
  have h : 1 = Sys2Proof.instrLength 0x17 := by decide
  exact h

theorem Sys2Proof.Laws.EncodingLength.rar :
    Sys2Proof.Laws.EncodingLength.Statement .rar := by
  have h : 1 = Sys2Proof.instrLength 0x1F := by decide
  exact h

theorem Sys2Proof.Laws.EncodingLength.mov (dst : Sys2Proof.R8) (src : Sys2Proof.R8) :
    Sys2Proof.Laws.EncodingLength.Statement (.mov dst src) := by cases dst <;> cases src <;> rfl

theorem Sys2Proof.Laws.EncodingLength.mvi (dst : Sys2Proof.R8) (d8 : Sys2Proof.Byte) :
    Sys2Proof.Laws.EncodingLength.Statement (.mvi dst d8) := by
  have h : 2 = Sys2Proof.instrLength (Sys2Proof.opByte 0 dst.code 6) := by cases dst <;> decide
  exact h

theorem Sys2Proof.Laws.EncodingLength.lxi (rp : Sys2Proof.Pair) (d16 : Sys2Proof.Word) :
    Sys2Proof.Laws.EncodingLength.Statement (.lxi rp d16) := by
  have h : 3 = Sys2Proof.instrLength (Sys2Proof.opByte 0 rp.code 1) := by cases rp <;> decide
  exact h

theorem Sys2Proof.Laws.EncodingLength.lda (a16 : Sys2Proof.Word) :
    Sys2Proof.Laws.EncodingLength.Statement (.lda a16) := by
  have h : 3 = Sys2Proof.instrLength 0x3A := by decide
  exact h

theorem Sys2Proof.Laws.EncodingLength.sta (a16 : Sys2Proof.Word) :
    Sys2Proof.Laws.EncodingLength.Statement (.sta a16) := by
  have h : 3 = Sys2Proof.instrLength 0x32 := by decide
  exact h

theorem Sys2Proof.Laws.EncodingLength.ldax (rp : Sys2Proof.IndexPair) :
    Sys2Proof.Laws.EncodingLength.Statement (.ldax rp) := by cases rp <;> rfl

theorem Sys2Proof.Laws.EncodingLength.stax (rp : Sys2Proof.IndexPair) :
    Sys2Proof.Laws.EncodingLength.Statement (.stax rp) := by cases rp <;> rfl

theorem Sys2Proof.Laws.EncodingLength.lhld (a16 : Sys2Proof.Word) :
    Sys2Proof.Laws.EncodingLength.Statement (.lhld a16) := by
  have h : 3 = Sys2Proof.instrLength 0x2A := by decide
  exact h

theorem Sys2Proof.Laws.EncodingLength.shld (a16 : Sys2Proof.Word) :
    Sys2Proof.Laws.EncodingLength.Statement (.shld a16) := by
  have h : 3 = Sys2Proof.instrLength 0x22 := by decide
  exact h

theorem Sys2Proof.Laws.EncodingLength.sphl :
    Sys2Proof.Laws.EncodingLength.Statement .sphl := by
  have h : 1 = Sys2Proof.instrLength 0xF9 := by decide
  exact h

theorem Sys2Proof.Laws.EncodingLength.pchl :
    Sys2Proof.Laws.EncodingLength.Statement .pchl := by
  have h : 1 = Sys2Proof.instrLength 0xE9 := by decide
  exact h

theorem Sys2Proof.Laws.EncodingLength.xchg :
    Sys2Proof.Laws.EncodingLength.Statement .xchg := by
  have h : 1 = Sys2Proof.instrLength 0xEB := by decide
  exact h

theorem Sys2Proof.Laws.EncodingLength.xthl :
    Sys2Proof.Laws.EncodingLength.Statement .xthl := by
  have h : 1 = Sys2Proof.instrLength 0xE3 := by decide
  exact h

theorem Sys2Proof.Laws.EncodingLength.jmp (a16 : Sys2Proof.Word) :
    Sys2Proof.Laws.EncodingLength.Statement (.jmp a16) := by
  have h : 3 = Sys2Proof.instrLength 0xC3 := by decide
  exact h

theorem Sys2Proof.Laws.EncodingLength.jnz (a16 : Sys2Proof.Word) :
    Sys2Proof.Laws.EncodingLength.Statement (.jnz a16) := by
  have h : 3 = Sys2Proof.instrLength 0xC2 := by decide
  exact h

theorem Sys2Proof.Laws.EncodingLength.jz (a16 : Sys2Proof.Word) :
    Sys2Proof.Laws.EncodingLength.Statement (.jz a16) := by
  have h : 3 = Sys2Proof.instrLength 0xCA := by decide
  exact h

theorem Sys2Proof.Laws.EncodingLength.jnc (a16 : Sys2Proof.Word) :
    Sys2Proof.Laws.EncodingLength.Statement (.jnc a16) := by
  have h : 3 = Sys2Proof.instrLength 0xD2 := by decide
  exact h

theorem Sys2Proof.Laws.EncodingLength.jc (a16 : Sys2Proof.Word) :
    Sys2Proof.Laws.EncodingLength.Statement (.jc a16) := by
  have h : 3 = Sys2Proof.instrLength 0xDA := by decide
  exact h

theorem Sys2Proof.Laws.EncodingLength.jpo (a16 : Sys2Proof.Word) :
    Sys2Proof.Laws.EncodingLength.Statement (.jpo a16) := by
  have h : 3 = Sys2Proof.instrLength 0xE2 := by decide
  exact h

theorem Sys2Proof.Laws.EncodingLength.jpe (a16 : Sys2Proof.Word) :
    Sys2Proof.Laws.EncodingLength.Statement (.jpe a16) := by
  have h : 3 = Sys2Proof.instrLength 0xEA := by decide
  exact h

theorem Sys2Proof.Laws.EncodingLength.jp (a16 : Sys2Proof.Word) :
    Sys2Proof.Laws.EncodingLength.Statement (.jp a16) := by
  have h : 3 = Sys2Proof.instrLength 0xF2 := by decide
  exact h

theorem Sys2Proof.Laws.EncodingLength.jm (a16 : Sys2Proof.Word) :
    Sys2Proof.Laws.EncodingLength.Statement (.jm a16) := by
  have h : 3 = Sys2Proof.instrLength 0xFA := by decide
  exact h

theorem Sys2Proof.Laws.EncodingLength.call (a16 : Sys2Proof.Word) :
    Sys2Proof.Laws.EncodingLength.Statement (.call a16) := by
  have h : 3 = Sys2Proof.instrLength 0xCD := by decide
  exact h

theorem Sys2Proof.Laws.EncodingLength.cnz (a16 : Sys2Proof.Word) :
    Sys2Proof.Laws.EncodingLength.Statement (.cnz a16) := by
  have h : 3 = Sys2Proof.instrLength 0xC4 := by decide
  exact h

theorem Sys2Proof.Laws.EncodingLength.cz (a16 : Sys2Proof.Word) :
    Sys2Proof.Laws.EncodingLength.Statement (.cz a16) := by
  have h : 3 = Sys2Proof.instrLength 0xCC := by decide
  exact h

theorem Sys2Proof.Laws.EncodingLength.cnc (a16 : Sys2Proof.Word) :
    Sys2Proof.Laws.EncodingLength.Statement (.cnc a16) := by
  have h : 3 = Sys2Proof.instrLength 0xD4 := by decide
  exact h

theorem Sys2Proof.Laws.EncodingLength.cc (a16 : Sys2Proof.Word) :
    Sys2Proof.Laws.EncodingLength.Statement (.cc a16) := by
  have h : 3 = Sys2Proof.instrLength 0xDC := by decide
  exact h

theorem Sys2Proof.Laws.EncodingLength.cpo (a16 : Sys2Proof.Word) :
    Sys2Proof.Laws.EncodingLength.Statement (.cpo a16) := by
  have h : 3 = Sys2Proof.instrLength 0xE4 := by decide
  exact h

theorem Sys2Proof.Laws.EncodingLength.cpe (a16 : Sys2Proof.Word) :
    Sys2Proof.Laws.EncodingLength.Statement (.cpe a16) := by
  have h : 3 = Sys2Proof.instrLength 0xEC := by decide
  exact h

theorem Sys2Proof.Laws.EncodingLength.cp (a16 : Sys2Proof.Word) :
    Sys2Proof.Laws.EncodingLength.Statement (.cp a16) := by
  have h : 3 = Sys2Proof.instrLength 0xF4 := by decide
  exact h

theorem Sys2Proof.Laws.EncodingLength.cm (a16 : Sys2Proof.Word) :
    Sys2Proof.Laws.EncodingLength.Statement (.cm a16) := by
  have h : 3 = Sys2Proof.instrLength 0xFC := by decide
  exact h

theorem Sys2Proof.Laws.EncodingLength.ret :
    Sys2Proof.Laws.EncodingLength.Statement .ret := by
  have h : 1 = Sys2Proof.instrLength 0xC9 := by decide
  exact h

theorem Sys2Proof.Laws.EncodingLength.rnz :
    Sys2Proof.Laws.EncodingLength.Statement .rnz := by
  have h : 1 = Sys2Proof.instrLength 0xC0 := by decide
  exact h

theorem Sys2Proof.Laws.EncodingLength.rz :
    Sys2Proof.Laws.EncodingLength.Statement .rz := by
  have h : 1 = Sys2Proof.instrLength 0xC8 := by decide
  exact h

theorem Sys2Proof.Laws.EncodingLength.rnc :
    Sys2Proof.Laws.EncodingLength.Statement .rnc := by
  have h : 1 = Sys2Proof.instrLength 0xD0 := by decide
  exact h

theorem Sys2Proof.Laws.EncodingLength.rc :
    Sys2Proof.Laws.EncodingLength.Statement .rc := by
  have h : 1 = Sys2Proof.instrLength 0xD8 := by decide
  exact h

theorem Sys2Proof.Laws.EncodingLength.rpo :
    Sys2Proof.Laws.EncodingLength.Statement .rpo := by
  have h : 1 = Sys2Proof.instrLength 0xE0 := by decide
  exact h

theorem Sys2Proof.Laws.EncodingLength.rpe :
    Sys2Proof.Laws.EncodingLength.Statement .rpe := by
  have h : 1 = Sys2Proof.instrLength 0xE8 := by decide
  exact h

theorem Sys2Proof.Laws.EncodingLength.rp :
    Sys2Proof.Laws.EncodingLength.Statement .rp := by
  have h : 1 = Sys2Proof.instrLength 0xF0 := by decide
  exact h

theorem Sys2Proof.Laws.EncodingLength.rm :
    Sys2Proof.Laws.EncodingLength.Statement .rm := by
  have h : 1 = Sys2Proof.instrLength 0xF8 := by decide
  exact h

theorem Sys2Proof.Laws.EncodingLength.rst (n : BitVec 3) :
    Sys2Proof.Laws.EncodingLength.Statement (.rst n) := by
  revert n
  unfold Sys2Proof.Laws.EncodingLength.Statement
  decide

theorem Sys2Proof.Laws.EncodingLength.push (rp : Sys2Proof.StackPair) :
    Sys2Proof.Laws.EncodingLength.Statement (.push rp) := by cases rp <;> rfl

theorem Sys2Proof.Laws.EncodingLength.pop (rp : Sys2Proof.StackPair) :
    Sys2Proof.Laws.EncodingLength.Statement (.pop rp) := by cases rp <;> rfl

theorem Sys2Proof.Laws.EncodingLength.inp (p8 : Sys2Proof.Byte) :
    Sys2Proof.Laws.EncodingLength.Statement (.inp p8) := by
  have h : 2 = Sys2Proof.instrLength 0xDB := by decide
  exact h

theorem Sys2Proof.Laws.EncodingLength.out (p8 : Sys2Proof.Byte) :
    Sys2Proof.Laws.EncodingLength.Statement (.out p8) := by
  have h : 2 = Sys2Proof.instrLength 0xD3 := by decide
  exact h

theorem Sys2Proof.Laws.EncodingLength.nop :
    Sys2Proof.Laws.EncodingLength.Statement .nop := by
  have h : 1 = Sys2Proof.instrLength 0x00 := by decide
  exact h

theorem Sys2Proof.Laws.EncodingLength.hlt :
    Sys2Proof.Laws.EncodingLength.Statement .hlt := by
  have h : 1 = Sys2Proof.instrLength 0x76 := by decide
  exact h

theorem Sys2Proof.Laws.EncodingLength.ei :
    Sys2Proof.Laws.EncodingLength.Statement .ei := by
  have h : 1 = Sys2Proof.instrLength 0xFB := by decide
  exact h

theorem Sys2Proof.Laws.EncodingLength.di :
    Sys2Proof.Laws.EncodingLength.Statement .di := by
  have h : 1 = Sys2Proof.instrLength 0xF3 := by decide
  exact h

theorem Sys2Proof.Laws.EncodingLength.stc :
    Sys2Proof.Laws.EncodingLength.Statement .stc := by
  have h : 1 = Sys2Proof.instrLength 0x37 := by decide
  exact h

theorem Sys2Proof.Laws.EncodingLength.cmc :
    Sys2Proof.Laws.EncodingLength.Statement .cmc := by
  have h : 1 = Sys2Proof.instrLength 0x3F := by decide
  exact h
end

