-- ==== Sys2Proof/Laws/Timing.lean ====
section
/-! SUPPORT. What the cycle count of an instruction can be: the default table when nothing overrides it, and
the path a condition chooses. -/

namespace Sys2Proof.Machine

/-- With no override the entry is that of the default table (70 R336). -/
theorem cycleEntry_of_default (cfg : Config) (i : Instr) (h : cfg.cycleOverrides = []) :
    cycleEntry cfg i = defaultCycles i := by
  rw [cycleEntry, h, List.find?_nil]

theorem cycleCost_of_default (i : Instr) (s : State) (h : s.cfg.cycleOverrides = []) :
    cycleCost i s = if Instr.taken i s.flags then (defaultCycles i).taken else (defaultCycles i).notTaken := by
  rw [cycleCost, cycleEntry_of_default _ _ h]

@[simp] theorem taken_condJump (cond : Cond) (a16 : Word) (f : Flags) :
    Instr.taken (condJump cond a16) f = f.holds cond := by
  cases cond <;> rfl

@[simp] theorem taken_condCall (cond : Cond) (a16 : Word) (f : Flags) :
    Instr.taken (condCall cond a16) f = f.holds cond := by
  cases cond <;> rfl

@[simp] theorem taken_condReturn (cond : Cond) (f : Flags) : Instr.taken (condReturn cond) f = f.holds cond := by
  cases cond <;> rfl

@[simp] theorem defaultCycles_condJump (cond : Cond) (a16 : Word) : defaultCycles (condJump cond a16) = flat 10 := by
  cases cond <;> rfl

@[simp] theorem defaultCycles_condCall (cond : Cond) (a16 : Word) :
    defaultCycles (condCall cond a16) = { taken := 17, notTaken := 11 } := by
  cases cond <;> rfl

@[simp] theorem defaultCycles_condReturn (cond : Cond) :
    defaultCycles (condReturn cond) = { taken := 11, notTaken := 5 } := by
  cases cond <;> rfl

end Sys2Proof.Machine
end

