-- ==== Sys2Proof/Tests/Slice0.lean ====
section
/-! SUPPORT. The model's own tests: the well-formedness check, decoding by words written out from spec 30,
one step each on the vectors of spec 95 section 2 (computed there from the rules, not by this model), the
host's transactions, and for every statement with hypotheses a state and operands that meet them. -/

namespace Sys2Proof.Tests

open Sys2Proof Sys2Proof.Machine

/-! ## Helpers -/

/-- The start of a vector of spec 95 section 2: the code at PC, SP = 0x2400, all else as at reset, then changed. -/
def start (pc : Word) (code : List Byte) (change : State → State) : State :=
  change { State.reset with pc := pc, sp := 0x2400, mem := storeBytes [] pc code }

/-- The outcome is a next state of which the test holds. -/
def gives (o : Out) (p : State → Bool) : Bool :=
  match o with
  | .next t => p t
  | _ => false

/-- The outcome is a fault of which the test holds. -/
def faults (o : Out) (p : Fault → Bool) : Bool :=
  match o with
  | .fault f => p f
  | _ => false

/-- The outcome is a refusal of which the test holds. -/
def refuses (o : Out) (p : Refusal → Bool) : Bool :=
  match o with
  | .refused r => p r
  | _ => false

/-! ## Well-formedness -/

/-- The one ill-formed term, and only in both places at once (30 R104, 43 R191). -/
theorem test_wf_refuses_mov_m_m :
    Instr.wf (.mov .m .m) = false ∧ Instr.wf (.mov .m .a) = true ∧ Instr.wf (.mov .a .m) = true := by
  decide

/-- The byte of the M,M slot is HLT, and the ill-formed term has no effect (30 R104). -/
theorem test_mov_m_m_is_no_instruction :
    decodeTableWord 8 0b01110110 = some .hlt ∧
      faults (exec (.mov .m .m) State.reset)
        (fun f => match f with | .unsupportedOperand _ o _ => decide (o = .m) | _ => false) = true := by
  decide

/-! ## Decoding (spec 95 section 2.11, fields of spec 30 R95 to R106) -/

theorem test_decode_arithmetic :
    decodeTableWord 8 0b10000110 = some (.add .m) ∧ decodeTableWord 8 0b00110100 = some (.inr .m) ∧
      decodeTableWord 8 0b00111101 = some (.dcr .a) ∧ decodeTableWord 8 0b00001001 = some (.dad .bc) ∧
      decodeTableWord 8 0b00110011 = some (.inx .sp) ∧ decodeTableWord 8 0b00100111 = some .daa ∧
      decodeTableWord 16 0b10111110_11001110 = some (.aci 0xBE) := by
  decide

theorem test_decode_logical :
    decodeTableWord 8 0b10100001 = some (.ana .c) ∧ decodeTableWord 8 0b10111111 = some (.cmp .a) ∧
      decodeTableWord 16 0b01000000_11111110 = some (.cpi 0x40) := by
  decide

theorem test_decode_rotate :
    decodeTableWord 8 0b00000111 = some .rlc ∧ decodeTableWord 8 0b00001111 = some .rrc ∧
      decodeTableWord 8 0b00010111 = some .ral ∧ decodeTableWord 8 0b00011111 = some .rar := by
  decide

theorem test_decode_move :
    decodeTableWord 8 0b01110111 = some (.mov .m .a) ∧ decodeTableWord 8 0b01111110 = some (.mov .a .m) ∧
      decodeTableWord 16 0b11111111_00110110 = some (.mvi .m 0xFF) ∧
      decodeTableWord 24 0b00010010_00110100_00110001 = some (.lxi .sp 0x1234) ∧
      decodeTableWord 8 0b00000010 = some (.stax .bc) ∧ decodeTableWord 8 0b00011010 = some (.ldax .de) ∧
      decodeTableWord 24 0b00000001_00001010_00100010 = some (.shld 0x010A) ∧
      decodeTableWord 24 0b00100100_00000000_00111010 = some (.lda 0x2400) ∧
      decodeTableWord 8 0b11100011 = some .xthl ∧ decodeTableWord 8 0b11101011 = some .xchg ∧
      decodeTableWord 8 0b11111001 = some .sphl := by
  decide

theorem test_decode_branch :
    decodeTableWord 24 0b00111110_00000000_11000011 = some (.jmp 0x3E00) ∧
      decodeTableWord 24 0b00100000_00000000_11111010 = some (.jm 0x2000) ∧
      decodeTableWord 24 0b00100000_00000000_11001101 = some (.call 0x2000) ∧
      decodeTableWord 24 0b00100000_00000000_11000100 = some (.cnz 0x2000) ∧
      decodeTableWord 8 0b11001001 = some .ret ∧ decodeTableWord 8 0b11000000 = some .rnz ∧
      decodeTableWord 8 0b11101001 = some .pchl ∧
      decodeTableWord 8 0b11000111 = some (.rst 0) ∧ decodeTableWord 8 0b11111111 = some (.rst 7) := by
  decide

theorem test_decode_stack_io_control :
    decodeTableWord 8 0b11110101 = some (.push .psw) ∧ decodeTableWord 8 0b11110001 = some (.pop .psw) ∧
      decodeTableWord 16 0b00000001_11011011 = some (.inp 1) ∧ decodeTableWord 16 0b00000011_11010011 = some (.out 3) ∧
      decodeTableWord 8 0b11110011 = some .di ∧ decodeTableWord 8 0b11111011 = some .ei ∧
      decodeTableWord 8 0b00110111 = some .stc ∧ decodeTableWord 8 0b00111111 = some .cmc := by
  decide

/-- A word cut short, or empty, is not an instruction. -/
theorem test_decode_needs_its_operands :
    decode [] = .error .noOpcode ∧ decode [0x3E] = .error (.operandBytesMissing 0x3E) ∧
      decode [0xC3, 0x00] = .error (.operandBytesMissing 0xC3) := ⟨rfl, rfl, rfl⟩

/-! ## One step per vector -/

/-! ### Arithmetic (spec 95 section 2.1) -/

theorem test_add_A1 :
    gives (step (start 0x0100 [0x80] fun s => { s with a := 0xFF, b := 0x01 }))
      (fun t => decide (t.a = 0x00 ∧ t.pc = 0x0101 ∧ t.flags = ⟨true, false, true, true⟩ ∧ t.report = .continuing 4)) = true := by
  decide

theorem test_add_A3 :
    gives (step (start 0x0100 [0x86] fun s => { s with a := 0x6C, h := 0x20, l := 0x00, mem := (s.mem.write 0x2000 0x2E) }))
      (fun t => decide (t.a = 0x9A ∧ t.pc = 0x0101 ∧ t.flags = ⟨false, true, true, false⟩ ∧ t.report = .continuing 7)) = true := by
  decide

theorem test_adc_A6 :
    gives (step (start 0x0100 [0x88] fun s => { s with a := 0xFF, b := 0xFF, flags := { s.flags with cy := true } }))
      (fun t => decide (t.a = 0xFF ∧ t.pc = 0x0101 ∧ t.flags = ⟨false, true, true, true⟩ ∧ t.report = .continuing 4)) = true := by
  decide

theorem test_adc_A8 :
    gives (step (start 0x0100 [0x88] fun s => { s with a := 0x00, b := 0xFF, flags := { s.flags with cy := true } }))
      (fun t => decide (t.a = 0x00 ∧ t.pc = 0x0101 ∧ t.flags = ⟨true, false, true, true⟩ ∧ t.report = .continuing 4)) = true := by
  decide

theorem test_adi_A9 :
    gives (step (start 0x0100 [0xC6, 0x42] fun s => { s with a := 0x14 }))
      (fun t => decide (t.a = 0x56 ∧ t.pc = 0x0102 ∧ t.flags = ⟨false, false, true, false⟩ ∧ t.report = .continuing 7)) = true := by
  decide

theorem test_aci_A10 :
    gives (step (start 0x0100 [0xCE, 0xBE] fun s => { s with a := 0x56, flags := { s.flags with cy := true } }))
      (fun t => decide (t.a = 0x15 ∧ t.pc = 0x0102 ∧ t.flags = ⟨false, false, false, true⟩ ∧ t.report = .continuing 7)) = true := by
  decide

theorem test_sub_A11 :
    gives (step (start 0x0100 [0x90] fun s => { s with a := 0x00, b := 0x01 }))
      (fun t => decide (t.a = 0xFF ∧ t.pc = 0x0101 ∧ t.flags = ⟨false, true, true, true⟩ ∧ t.report = .continuing 4)) = true := by
  decide

theorem test_sub_A13 :
    gives (step (start 0x0100 [0x96] fun s => { s with a := 0x80, h := 0x20, l := 0x00, mem := (s.mem.write 0x2000 0x01) }))
      (fun t => decide (t.a = 0x7F ∧ t.pc = 0x0101 ∧ t.flags = ⟨false, false, false, false⟩ ∧ t.report = .continuing 7)) = true := by
  decide

theorem test_sbb_A15 :
    gives (step (start 0x0100 [0x98] fun s => { s with a := 0x00, b := 0xFF, flags := { s.flags with cy := true } }))
      (fun t => decide (t.a = 0x00 ∧ t.pc = 0x0101 ∧ t.flags = ⟨true, false, true, true⟩ ∧ t.report = .continuing 4)) = true := by
  decide

theorem test_sbb_A16 :
    gives (step (start 0x0100 [0x98] fun s => { s with a := 0x00, b := 0x00, flags := { s.flags with cy := true } }))
      (fun t => decide (t.a = 0xFF ∧ t.pc = 0x0101 ∧ t.flags = ⟨false, true, true, true⟩ ∧ t.report = .continuing 4)) = true := by
  decide

theorem test_sui_A17 :
    gives (step (start 0x0100 [0xD6, 0x01] fun s => { s with a := 0x00 }))
      (fun t => decide (t.a = 0xFF ∧ t.pc = 0x0102 ∧ t.flags = ⟨false, true, true, true⟩ ∧ t.report = .continuing 7)) = true := by
  decide

theorem test_sbi_A18 :
    gives (step (start 0x0100 [0xDE, 0x01] fun s => { s with a := 0x00, flags := { s.flags with cy := true } }))
      (fun t => decide (t.a = 0xFE ∧ t.pc = 0x0102 ∧ t.flags = ⟨false, true, false, true⟩ ∧ t.report = .continuing 7)) = true := by
  decide

theorem test_inr_A19 :
    gives (step (start 0x0100 [0x0C] fun s => { s with c := 0xFF, flags := { s.flags with cy := false } }))
      (fun t => decide (t.c = 0x00 ∧ t.pc = 0x0101 ∧ t.flags = ⟨true, false, true, false⟩ ∧ t.report = .continuing 5)) = true := by
  decide

theorem test_inr_A21 :
    gives (step (start 0x0100 [0x34] fun s => { s with h := 0x20, l := 0x00, flags := { s.flags with cy := true }, mem := (s.mem.write 0x2000 0xFF) }))
      (fun t => decide (t.mem.read 0x2000 = 0x00 ∧ t.pc = 0x0101 ∧ t.flags = ⟨true, false, true, true⟩ ∧ t.report = .continuing 10)) = true := by
  decide

theorem test_dcr_A23 :
    gives (step (start 0x0100 [0x05] fun s => { s with b := 0x00, flags := { s.flags with cy := false } }))
      (fun t => decide (t.b = 0xFF ∧ t.pc = 0x0101 ∧ t.flags = ⟨false, true, true, false⟩ ∧ t.report = .continuing 5)) = true := by
  decide

theorem test_dcr_A24 :
    gives (step (start 0x0100 [0x35] fun s => { s with h := 0x20, l := 0x00, mem := (s.mem.write 0x2000 0x80) }))
      (fun t => decide (t.mem.read 0x2000 = 0x7F ∧ t.pc = 0x0101 ∧ t.flags = ⟨false, false, false, false⟩ ∧ t.report = .continuing 10)) = true := by
  decide

theorem test_dad_A25 :
    gives (step (start 0x0100 [0x09] fun s => { s with h := 0xFF, l := 0xFF, b := 0x00, c := 0x01, flags := { s.flags with z := true } }))
      (fun t => decide (t.h = 0x00 ∧ t.l = 0x00 ∧ t.pc = 0x0101 ∧ t.flags = ⟨true, false, false, true⟩ ∧ t.report = .continuing 10)) = true := by
  decide

theorem test_dad_A27 :
    gives (step (start 0x0100 [0x39] fun s => { s with h := 0x01, l := 0x00, sp := 0x2400 }))
      (fun t => decide (t.h = 0x25 ∧ t.l = 0x00 ∧ t.pc = 0x0101 ∧ t.flags = ⟨false, false, false, false⟩ ∧ t.report = .continuing 10)) = true := by
  decide

theorem test_inx_A28 :
    gives (step (start 0x0100 [0x13] fun s => { s with d := 0x01, e := 0xFF, flags := { s.flags with z := true, cy := true } }))
      (fun t => decide (t.d = 0x02 ∧ t.e = 0x00 ∧ t.pc = 0x0101 ∧ t.flags = ⟨true, false, false, true⟩ ∧ t.report = .continuing 5)) = true := by
  decide

theorem test_inx_A29 :
    gives (step (start 0x0100 [0x33] fun s => { s with sp := 0xFFFF }))
      (fun t => decide (t.sp = 0x0000 ∧ t.pc = 0x0101 ∧ t.flags = ⟨false, false, false, false⟩ ∧ t.report = .continuing 5)) = true := by
  decide

theorem test_dcx_A29b :
    gives (step (start 0x0100 [0x2B] fun s => { s with h := 0x00, l := 0x00 }))
      (fun t => decide (t.h = 0xFF ∧ t.l = 0xFF ∧ t.pc = 0x0101 ∧ t.flags = ⟨false, false, false, false⟩ ∧ t.report = .continuing 5)) = true := by
  decide

theorem test_dcx_A29c :
    gives (step (start 0x0100 [0x3B] fun s => { s with sp := 0x0000 }))
      (fun t => decide (t.sp = 0xFFFF ∧ t.pc = 0x0101 ∧ t.flags = ⟨false, false, false, false⟩ ∧ t.report = .continuing 5)) = true := by
  decide

theorem test_daa_A30 :
    gives (step (start 0x0100 [0x27] fun s => { s with a := 0x9A }))
      (fun t => decide (t.a = 0x00 ∧ t.pc = 0x0101 ∧ t.flags = ⟨true, false, true, true⟩ ∧ t.report = .continuing 4)) = true := by
  decide

theorem test_daa_A33 :
    gives (step (start 0x0100 [0x27] fun s => { s with a := 0xFA, flags := { s.flags with s := true } }))
      (fun t => decide (t.a = 0x00 ∧ t.pc = 0x0101 ∧ t.flags = ⟨false, true, false, false⟩ ∧ t.report = .continuing 4)) = true := by
  decide

/-! ### Logical (2.2) -/

theorem test_ana_L1 :
    gives (step (start 0x0100 [0xA1] fun s => { s with a := 0xFC, c := 0x0F, flags := { s.flags with cy := true } }))
      (fun t => decide (t.a = 0x0C ∧ t.pc = 0x0101 ∧ t.flags = ⟨false, false, true, false⟩ ∧ t.report = .continuing 4)) = true := by
  decide

theorem test_ana_L2 :
    gives (step (start 0x0100 [0xA7] fun s => { s with a := 0x80, flags := { s.flags with cy := true } }))
      (fun t => decide (t.a = 0x80 ∧ t.pc = 0x0101 ∧ t.flags = ⟨false, true, false, false⟩ ∧ t.report = .continuing 4)) = true := by
  decide

theorem test_ani_L3 :
    gives (step (start 0x0100 [0xE6, 0x0F] fun s => { s with a := 0x3A }))
      (fun t => decide (t.a = 0x0A ∧ t.pc = 0x0102 ∧ t.flags = ⟨false, false, true, false⟩ ∧ t.report = .continuing 7)) = true := by
  decide

theorem test_xra_L4 :
    gives (step (start 0x0100 [0xAF] fun s => { s with a := 0x5C, flags := { s.flags with cy := true, s := true } }))
      (fun t => decide (t.a = 0x00 ∧ t.pc = 0x0101 ∧ t.flags = ⟨true, false, true, false⟩ ∧ t.report = .continuing 4)) = true := by
  decide

theorem test_xra_L5 :
    gives (step (start 0x0100 [0xA8] fun s => { s with a := 0x5C, b := 0x78 }))
      (fun t => decide (t.a = 0x24 ∧ t.pc = 0x0101 ∧ t.flags = ⟨false, false, true, false⟩ ∧ t.report = .continuing 4)) = true := by
  decide

theorem test_xri_L6 :
    gives (step (start 0x0100 [0xEE, 0x81] fun s => { s with a := 0x3B }))
      (fun t => decide (t.a = 0xBA ∧ t.pc = 0x0102 ∧ t.flags = ⟨false, true, false, false⟩ ∧ t.report = .continuing 7)) = true := by
  decide

theorem test_ora_L7 :
    gives (step (start 0x0100 [0xB0] fun s => { s with a := 0x33, b := 0x0F, flags := { s.flags with cy := true } }))
      (fun t => decide (t.a = 0x3F ∧ t.pc = 0x0101 ∧ t.flags = ⟨false, false, true, false⟩ ∧ t.report = .continuing 4)) = true := by
  decide

theorem test_ora_L8 :
    gives (step (start 0x0100 [0xB6] fun s => { s with a := 0x00, h := 0x20, l := 0x00, mem := (s.mem.write 0x2000 0x00) }))
      (fun t => decide (t.a = 0x00 ∧ t.pc = 0x0101 ∧ t.flags = ⟨true, false, true, false⟩ ∧ t.report = .continuing 7)) = true := by
  decide

theorem test_ori_L9 :
    gives (step (start 0x0100 [0xF6, 0x0F] fun s => { s with a := 0xB5 }))
      (fun t => decide (t.a = 0xBF ∧ t.pc = 0x0102 ∧ t.flags = ⟨false, true, false, false⟩ ∧ t.report = .continuing 7)) = true := by
  decide

theorem test_cma_L10 :
    gives (step (start 0x0100 [0x2F] fun s => { s with a := 0x51, flags := { s.flags with z := true, cy := true } }))
      (fun t => decide (t.a = 0xAE ∧ t.pc = 0x0101 ∧ t.flags = ⟨true, false, false, true⟩ ∧ t.report = .continuing 4)) = true := by
  decide

theorem test_cmp_L11 :
    gives (step (start 0x0100 [0xBB] fun s => { s with a := 0x02, e := 0x05 }))
      (fun t => decide (t.pc = 0x0101 ∧ t.flags = ⟨false, true, false, true⟩ ∧ t.report = .continuing 4)) = true := by
  decide

theorem test_cmp_L12 :
    gives (step (start 0x0100 [0xBB] fun s => { s with a := 0x05, e := 0x05, flags := { s.flags with cy := true } }))
      (fun t => decide (t.pc = 0x0101 ∧ t.flags = ⟨true, false, true, false⟩ ∧ t.report = .continuing 4)) = true := by
  decide

theorem test_cpi_L15 :
    gives (step (start 0x0100 [0xFE, 0x40] fun s => { s with a := 0x4A }))
      (fun t => decide (t.pc = 0x0102 ∧ t.flags = ⟨false, false, true, false⟩ ∧ t.report = .continuing 7)) = true := by
  decide

theorem test_cpi_L16 :
    gives (step (start 0x0100 [0xFE, 0xFF] fun s => { s with a := 0x00 }))
      (fun t => decide (t.pc = 0x0102 ∧ t.flags = ⟨false, false, false, true⟩ ∧ t.report = .continuing 7)) = true := by
  decide

/-! ### Rotate (2.3) -/

theorem test_rlc_T1 :
    gives (step (start 0x0100 [0x07] fun s => { s with a := 0xF2 }))
      (fun t => decide (t.a = 0xE5 ∧ t.pc = 0x0101 ∧ t.flags = ⟨false, true, false, true⟩ ∧ t.report = .continuing 4)) = true := by
  decide

theorem test_rlc_T2 :
    gives (step (start 0x0100 [0x07] fun s => { s with a := 0x00, flags := { s.flags with cy := true, s := true } }))
      (fun t => decide (t.a = 0x00 ∧ t.pc = 0x0101 ∧ t.flags = ⟨true, false, true, false⟩ ∧ t.report = .continuing 4)) = true := by
  decide

theorem test_rrc_T3 :
    gives (step (start 0x0100 [0x0F] fun s => { s with a := 0xF2, flags := { s.flags with cy := true } }))
      (fun t => decide (t.a = 0x79 ∧ t.pc = 0x0101 ∧ t.flags = ⟨false, false, false, false⟩ ∧ t.report = .continuing 4)) = true := by
  decide

theorem test_rrc_T4 :
    gives (step (start 0x0100 [0x0F] fun s => { s with a := 0x01 }))
      (fun t => decide (t.a = 0x80 ∧ t.pc = 0x0101 ∧ t.flags = ⟨false, true, false, true⟩ ∧ t.report = .continuing 4)) = true := by
  decide

theorem test_ral_T5 :
    gives (step (start 0x0100 [0x17] fun s => { s with a := 0xB5, flags := { s.flags with cy := false } }))
      (fun t => decide (t.a = 0x6A ∧ t.pc = 0x0101 ∧ t.flags = ⟨false, false, true, true⟩ ∧ t.report = .continuing 4)) = true := by
  decide

theorem test_ral_T7 :
    gives (step (start 0x0100 [0x17] fun s => { s with a := 0x00, flags := { s.flags with cy := true } }))
      (fun t => decide (t.a = 0x01 ∧ t.pc = 0x0101 ∧ t.flags = ⟨false, false, false, false⟩ ∧ t.report = .continuing 4)) = true := by
  decide

theorem test_rar_T8 :
    gives (step (start 0x0100 [0x1F] fun s => { s with a := 0x6A, flags := { s.flags with cy := true } }))
      (fun t => decide (t.a = 0xB5 ∧ t.pc = 0x0101 ∧ t.flags = ⟨false, true, false, false⟩ ∧ t.report = .continuing 4)) = true := by
  decide

theorem test_rar_T9 :
    gives (step (start 0x0100 [0x1F] fun s => { s with a := 0x01, flags := { s.flags with cy := false } }))
      (fun t => decide (t.a = 0x00 ∧ t.pc = 0x0101 ∧ t.flags = ⟨true, false, true, true⟩ ∧ t.report = .continuing 4)) = true := by
  decide

/-! ### Data movement (2.4, 2.9) -/

theorem test_mov_M4 :
    gives (step (start 0x0100 [0x66] fun s => { s with h := 0x20, l := 0x10, mem := (s.mem.write 0x2010 0x99) }))
      (fun t => decide (t.h = 0x99 ∧ t.pc = 0x0101 ∧ t.flags = ⟨false, false, false, false⟩ ∧ t.report = .continuing 7)) = true := by
  decide

theorem test_mov_M5 :
    gives (step (start 0x0100 [0x74] fun s => { s with h := 0x20, l := 0x10 }))
      (fun t => decide (t.mem.read 0x2010 = 0x20 ∧ t.pc = 0x0101 ∧ t.flags = ⟨false, false, false, false⟩ ∧ t.report = .continuing 7)) = true := by
  decide

theorem test_mvi_M7 :
    gives (step (start 0x0100 [0x36, 0xFF] fun s => { s with h := 0x20, l := 0x00 }))
      (fun t => decide (t.mem.read 0x2000 = 0xFF ∧ t.pc = 0x0102 ∧ t.flags = ⟨false, false, false, false⟩ ∧ t.report = .continuing 10)) = true := by
  decide

theorem test_mvi_F7 :
    faults (step (start 0x0007 [0x3E] fun s => { s with sp := 0x0000, cfg := { s.cfg with memSize := 8 } }))
      (fun f => match f with | .outOfBounds k a _ => decide (k = .fetch ∧ a = 0x0008) | _ => false) = true := by
  decide

theorem test_lxi_M8 :
    gives (step (start 0x0100 [0x21, 0x10, 0x20] id))
      (fun t => decide (t.h = 0x20 ∧ t.l = 0x10 ∧ t.pc = 0x0103 ∧ t.flags = ⟨false, false, false, false⟩ ∧ t.report = .continuing 10)) = true := by
  decide

theorem test_lxi_M9 :
    gives (step (start 0x0100 [0x31, 0x34, 0x12] id))
      (fun t => decide (t.sp = 0x1234 ∧ t.pc = 0x0103 ∧ t.flags = ⟨false, false, false, false⟩ ∧ t.report = .continuing 10)) = true := by
  decide

theorem test_lda_M10 :
    gives (step (start 0x0100 [0x3A, 0x00, 0x24] fun s => { s with mem := (s.mem.write 0x2400 0x7E) }))
      (fun t => decide (t.a = 0x7E ∧ t.pc = 0x0103 ∧ t.flags = ⟨false, false, false, false⟩ ∧ t.report = .continuing 13)) = true := by
  decide

theorem test_sta_M11 :
    gives (step (start 0x0100 [0x32, 0x00, 0x24] fun s => { s with a := 0x5A }))
      (fun t => decide (t.mem.read 0x2400 = 0x5A ∧ t.pc = 0x0103 ∧ t.flags = ⟨false, false, false, false⟩ ∧ t.report = .continuing 13)) = true := by
  decide

theorem test_sta_F12 :
    faults (step (start 0x0000 [0x32, 0x08, 0x00] fun s => { s with sp := 0x0000, a := 0x55, cfg := { s.cfg with memSize := 8 } }))
      (fun f => match f with | .outOfBounds k a _ => decide (k = .dataWrite ∧ a = 0x0008) | _ => false) = true := by
  decide

theorem test_ldax_M12 :
    gives (step (start 0x0100 [0x1A] fun s => { s with d := 0x24, e := 0x01, mem := (s.mem.write 0x2401 0x11) }))
      (fun t => decide (t.a = 0x11 ∧ t.pc = 0x0101 ∧ t.flags = ⟨false, false, false, false⟩ ∧ t.report = .continuing 7)) = true := by
  decide

theorem test_stax_M13 :
    gives (step (start 0x0100 [0x02] fun s => { s with a := 0xC3, b := 0x24, c := 0x02 }))
      (fun t => decide (t.mem.read 0x2402 = 0xC3 ∧ t.pc = 0x0101 ∧ t.flags = ⟨false, false, false, false⟩ ∧ t.report = .continuing 7)) = true := by
  decide

theorem test_lhld_M14 :
    gives (step (start 0x0100 [0x2A, 0x00, 0x24] fun s => { s with mem := ((s.mem.write 0x2400 0x34).write 0x2401 0x12) }))
      (fun t => decide (t.h = 0x12 ∧ t.l = 0x34 ∧ t.pc = 0x0103 ∧ t.flags = ⟨false, false, false, false⟩ ∧ t.report = .continuing 16)) = true := by
  decide

theorem test_lhld_M16 :
    gives (step (start 0x0100 [0x2A, 0xFF, 0xFF] fun s => { s with mem := ((s.mem.write 0x0000 0xAB).write 0xFFFF 0xCD) }))
      (fun t => decide (t.h = 0xAB ∧ t.l = 0xCD ∧ t.pc = 0x0103 ∧ t.flags = ⟨false, false, false, false⟩ ∧ t.report = .continuing 16)) = true := by
  decide

theorem test_shld_M15 :
    gives (step (start 0x0100 [0x22, 0x0A, 0x01] fun s => { s with h := 0xAE, l := 0x29 }))
      (fun t => decide (t.mem.read 0x010A = 0x29 ∧ t.mem.read 0x010B = 0xAE ∧ t.pc = 0x0103 ∧ t.flags = ⟨false, false, false, false⟩ ∧ t.report = .continuing 16)) = true := by
  decide

theorem test_shld_F13 :
    faults (step (start 0x0000 [0x22, 0x07, 0x00] fun s => { s with sp := 0x0000, h := 0xAA, l := 0xBB, cfg := { s.cfg with memSize := 8 } }))
      (fun f => match f with | .outOfBounds k a _ => decide (k = .dataWrite ∧ a = 0x0008) | _ => false) = true := by
  decide

theorem test_sphl_M17 :
    gives (step (start 0x0100 [0xF9] fun s => { s with h := 0x50, l := 0x6C }))
      (fun t => decide (t.sp = 0x506C ∧ t.pc = 0x0101 ∧ t.flags = ⟨false, false, false, false⟩ ∧ t.report = .continuing 5)) = true := by
  decide

theorem test_pchl_M18 :
    gives (step (start 0x0100 [0xE9] fun s => { s with h := 0x41, l := 0x3E }))
      (fun t => decide (t.pc = 0x413E ∧ t.flags = ⟨false, false, false, false⟩ ∧ t.report = .continuing 5)) = true := by
  decide

theorem test_xchg_M19 :
    gives (step (start 0x0100 [0xEB] fun s => { s with d := 0x33, e := 0x55, h := 0x00, l := 0xFF }))
      (fun t => decide (t.d = 0x00 ∧ t.e = 0xFF ∧ t.h = 0x33 ∧ t.l = 0x55 ∧ t.pc = 0x0101 ∧ t.flags = ⟨false, false, false, false⟩ ∧ t.report = .continuing 4)) = true := by
  decide

theorem test_xthl_M20 :
    gives (step (start 0x0100 [0xE3] fun s => { s with sp := 0x10AD, h := 0x0B, l := 0x3C, mem := ((s.mem.write 0x10AD 0xF0).write 0x10AE 0x0D) }))
      (fun t => decide (t.h = 0x0D ∧ t.l = 0xF0 ∧ t.mem.read 0x10AD = 0x3C ∧ t.mem.read 0x10AE = 0x0B ∧ t.pc = 0x0101 ∧ t.flags = ⟨false, false, false, false⟩ ∧ t.report = .continuing 18)) = true := by
  decide

theorem test_xthl_M21 :
    gives (step (start 0x0100 [0xE3] fun s => { s with sp := 0x0000, h := 0x11, l := 0x22, mem := ((s.mem.write 0x0000 0x33).write 0x0001 0x44) }))
      (fun t => decide (t.h = 0x44 ∧ t.l = 0x33 ∧ t.mem.read 0x0000 = 0x22 ∧ t.mem.read 0x0001 = 0x11 ∧ t.pc = 0x0101 ∧ t.flags = ⟨false, false, false, false⟩ ∧ t.report = .continuing 18)) = true := by
  decide

/-! ### Branches (2.5, 2.9) -/

theorem test_jmp_B1 :
    gives (step (start 0x0100 [0xC3, 0x00, 0x3E] fun s => { s with flags := { s.flags with z := true, cy := true } }))
      (fun t => decide (t.pc = 0x3E00 ∧ t.flags = ⟨true, false, false, true⟩ ∧ t.report = .continuing 10)) = true := by
  decide

theorem test_jmp_B14 :
    gives (step (start 0x0100 [0xCB, 0x00, 0x3E] id))
      (fun t => decide (t.pc = 0x3E00 ∧ t.flags = ⟨false, false, false, false⟩ ∧ t.report = .continuing 10)) = true := by
  decide

theorem test_jnz_B2 :
    gives (step (start 0x0100 [0xC2, 0x34, 0x12] fun s => { s with flags := { s.flags with z := true } }))
      (fun t => decide (t.pc = 0x0103 ∧ t.flags = ⟨true, false, false, false⟩ ∧ t.report = .continuing 10)) = true := by
  decide

theorem test_jnz_B3 :
    gives (step (start 0x0100 [0xC2, 0x34, 0x12] fun s => { s with flags := { s.flags with z := false } }))
      (fun t => decide (t.pc = 0x1234 ∧ t.flags = ⟨false, false, false, false⟩ ∧ t.report = .continuing 10)) = true := by
  decide

theorem test_jpe_B4 :
    gives (step (start 0x0100 [0xEA, 0x00, 0x20] fun s => { s with flags := { s.flags with p := true } }))
      (fun t => decide (t.pc = 0x2000 ∧ t.flags = ⟨false, false, true, false⟩ ∧ t.report = .continuing 10)) = true := by
  decide

theorem test_jm_B4b :
    gives (step (start 0x0100 [0xFA, 0x00, 0x20] fun s => { s with flags := { s.flags with s := false } }))
      (fun t => decide (t.pc = 0x0103 ∧ t.flags = ⟨false, false, false, false⟩ ∧ t.report = .continuing 10)) = true := by
  decide

theorem test_call_B5 :
    gives (step (start 0x0100 [0xCD, 0x00, 0x20] id))
      (fun t => decide (t.sp = 0x23FE ∧ t.mem.read 0x23FE = 0x03 ∧ t.mem.read 0x23FF = 0x01 ∧ t.pc = 0x2000 ∧ t.flags = ⟨false, false, false, false⟩ ∧ t.report = .continuing 17)) = true := by
  decide

theorem test_call_F3 :
    faults (step (start 0x0100 [0xCD, 0x00, 0x20] fun s => { s with sp := 0x0001 }))
      (fun f => match f with | .stackUnderflow sp _ => decide (sp = 0x0000) | _ => false) = true := by
  decide

theorem test_cc_B6 :
    gives (step (start 0x0100 [0xDC, 0x00, 0x20] fun s => { s with flags := { s.flags with cy := false } }))
      (fun t => decide (t.pc = 0x0103 ∧ t.flags = ⟨false, false, false, false⟩ ∧ t.report = .continuing 11)) = true := by
  decide

theorem test_cc_B7c :
    gives (step (start 0x0010 [0xDC, 0x00, 0x20] fun s => { s with flags := { s.flags with cy := true } }))
      (fun t => decide (t.sp = 0x23FE ∧ t.mem.read 0x23FE = 0x13 ∧ t.mem.read 0x23FF = 0x00 ∧ t.pc = 0x2000 ∧ t.flags = ⟨false, false, false, true⟩ ∧ t.report = .continuing 17)) = true := by
  decide

theorem test_cnz_B8 :
    gives (step (start 0x0100 [0xC4, 0x00, 0x20] fun s => { s with sp := 0x0000, flags := { s.flags with z := true } }))
      (fun t => decide (t.pc = 0x0103 ∧ t.flags = ⟨true, false, false, false⟩ ∧ t.report = .continuing 11)) = true := by
  decide

theorem test_ret_B9 :
    gives (step (start 0x0100 [0xC9] fun s => { s with sp := 0x23FE, mem := ((s.mem.write 0x23FE 0x13).write 0x23FF 0x00) }))
      (fun t => decide (t.sp = 0x2400 ∧ t.pc = 0x0013 ∧ t.flags = ⟨false, false, false, false⟩ ∧ t.report = .continuing 10)) = true := by
  decide

theorem test_ret_F9 :
    faults (step (start 0x0000 [0xC9] fun s => { s with sp := 0x0008, cfg := { s.cfg with memSize := 8 } }))
      (fun f => match f with | .outOfBounds k a _ => decide (k = .stackRead ∧ a = 0x0008) | _ => false) = true := by
  decide

theorem test_rz_B10 :
    gives (step (start 0x0100 [0xC8] fun s => { s with sp := 0x23FE, flags := { s.flags with z := false }, mem := ((s.mem.write 0x23FE 0x13).write 0x23FF 0x00) }))
      (fun t => decide (t.pc = 0x0101 ∧ t.flags = ⟨false, false, false, false⟩ ∧ t.report = .continuing 5)) = true := by
  decide

theorem test_rz_B11 :
    gives (step (start 0x0100 [0xC8] fun s => { s with sp := 0x23FE, flags := { s.flags with z := true }, mem := ((s.mem.write 0x23FE 0x13).write 0x23FF 0x00) }))
      (fun t => decide (t.sp = 0x2400 ∧ t.pc = 0x0013 ∧ t.flags = ⟨true, false, false, false⟩ ∧ t.report = .continuing 11)) = true := by
  decide

theorem test_rst_B12 :
    gives (step (start 0x1234 [0xD7] id))
      (fun t => decide (t.sp = 0x23FE ∧ t.mem.read 0x23FE = 0x35 ∧ t.mem.read 0x23FF = 0x12 ∧ t.pc = 0x0010 ∧ t.flags = ⟨false, false, false, false⟩ ∧ t.report = .continuing 11)) = true := by
  decide

theorem test_rst_F4 :
    faults (step (start 0x0100 [0xCF] fun s => { s with sp := 0x0000 }))
      (fun f => match f with | .stackUnderflow sp _ => decide (sp = 0x0000) | _ => false) = true := by
  decide

/-! The conditional instructions without a vector of their own: the table of 44 R220, R223, R225, R227. -/

theorem test_rnz_taken :
    gives (step (start 0x0100 [0xC0] fun s => { s with flags := ⟨false, false, false, false⟩, mem := s.mem.write 0x2400 0x13 }))
      (fun t => decide (t.pc = 0x0013 ∧ t.sp = 0x2402 ∧ t.report = .continuing 11)) = true := by
  decide

theorem test_jz_taken :
    gives (step (start 0x0100 [0xCA, 0x34, 0x12] fun s => { s with flags := ⟨true, false, false, false⟩ }))
      (fun t => decide (t.pc = 0x1234 ∧ t.report = .continuing 10)) = true := by
  decide

theorem test_cz_taken :
    gives (step (start 0x0100 [0xCC, 0x34, 0x12] fun s => { s with flags := ⟨true, false, false, false⟩ }))
      (fun t => decide (t.pc = 0x1234 ∧ t.sp = 0x23FE ∧ t.mem.read 0x23FE = 0x03 ∧ t.report = .continuing 17)) = true := by
  decide

theorem test_jnc_not_taken :
    gives (step (start 0x0100 [0xD2, 0x34, 0x12] fun s => { s with flags := ⟨false, false, false, true⟩ }))
      (fun t => decide (t.pc = 0x0103 ∧ t.report = .continuing 10)) = true := by
  decide

theorem test_cnc_not_taken :
    gives (step (start 0x0100 [0xD4, 0x34, 0x12] fun s => { s with flags := ⟨false, false, false, true⟩ }))
      (fun t => decide (t.pc = 0x0103 ∧ t.sp = 0x2400 ∧ t.report = .continuing 11)) = true := by
  decide

theorem test_rnc_not_taken :
    gives (step (start 0x0100 [0xD0] fun s => { s with flags := ⟨false, false, false, true⟩, mem := s.mem.write 0x2400 0x13 }))
      (fun t => decide (t.pc = 0x0101 ∧ t.sp = 0x2400 ∧ t.report = .continuing 5)) = true := by
  decide

theorem test_jc_taken :
    gives (step (start 0x0100 [0xDA, 0x34, 0x12] fun s => { s with flags := ⟨false, false, false, true⟩ }))
      (fun t => decide (t.pc = 0x1234 ∧ t.report = .continuing 10)) = true := by
  decide

theorem test_rc_taken :
    gives (step (start 0x0100 [0xD8] fun s => { s with flags := ⟨false, false, false, true⟩, mem := s.mem.write 0x2400 0x13 }))
      (fun t => decide (t.pc = 0x0013 ∧ t.sp = 0x2402 ∧ t.report = .continuing 11)) = true := by
  decide

theorem test_jpo_not_taken :
    gives (step (start 0x0100 [0xE2, 0x34, 0x12] fun s => { s with flags := ⟨false, false, true, false⟩ }))
      (fun t => decide (t.pc = 0x0103 ∧ t.report = .continuing 10)) = true := by
  decide

theorem test_cpo_taken :
    gives (step (start 0x0100 [0xE4, 0x34, 0x12] fun s => { s with flags := ⟨false, false, false, false⟩ }))
      (fun t => decide (t.pc = 0x1234 ∧ t.sp = 0x23FE ∧ t.mem.read 0x23FE = 0x03 ∧ t.report = .continuing 17)) = true := by
  decide

theorem test_rpo_not_taken :
    gives (step (start 0x0100 [0xE0] fun s => { s with flags := ⟨false, false, true, false⟩, mem := s.mem.write 0x2400 0x13 }))
      (fun t => decide (t.pc = 0x0101 ∧ t.sp = 0x2400 ∧ t.report = .continuing 5)) = true := by
  decide

theorem test_cpe_not_taken :
    gives (step (start 0x0100 [0xEC, 0x34, 0x12] fun s => { s with flags := ⟨false, false, false, false⟩ }))
      (fun t => decide (t.pc = 0x0103 ∧ t.sp = 0x2400 ∧ t.report = .continuing 11)) = true := by
  decide

theorem test_rpe_taken :
    gives (step (start 0x0100 [0xE8] fun s => { s with flags := ⟨false, false, true, false⟩, mem := s.mem.write 0x2400 0x13 }))
      (fun t => decide (t.pc = 0x0013 ∧ t.sp = 0x2402 ∧ t.report = .continuing 11)) = true := by
  decide

theorem test_jp_taken :
    gives (step (start 0x0100 [0xF2, 0x34, 0x12] fun s => { s with flags := ⟨false, false, false, false⟩ }))
      (fun t => decide (t.pc = 0x1234 ∧ t.report = .continuing 10)) = true := by
  decide

theorem test_cp_taken :
    gives (step (start 0x0100 [0xF4, 0x34, 0x12] fun s => { s with flags := ⟨false, false, false, false⟩ }))
      (fun t => decide (t.pc = 0x1234 ∧ t.sp = 0x23FE ∧ t.mem.read 0x23FE = 0x03 ∧ t.report = .continuing 17)) = true := by
  decide

theorem test_rp_not_taken :
    gives (step (start 0x0100 [0xF0] fun s => { s with flags := ⟨false, true, false, false⟩, mem := s.mem.write 0x2400 0x13 }))
      (fun t => decide (t.pc = 0x0101 ∧ t.sp = 0x2400 ∧ t.report = .continuing 5)) = true := by
  decide

theorem test_cm_not_taken :
    gives (step (start 0x0100 [0xFC, 0x34, 0x12] fun s => { s with flags := ⟨false, false, false, false⟩ }))
      (fun t => decide (t.pc = 0x0103 ∧ t.sp = 0x2400 ∧ t.report = .continuing 11)) = true := by
  decide

theorem test_rm_taken :
    gives (step (start 0x0100 [0xF8] fun s => { s with flags := ⟨false, true, false, false⟩, mem := s.mem.write 0x2400 0x13 }))
      (fun t => decide (t.pc = 0x0013 ∧ t.sp = 0x2402 ∧ t.report = .continuing 11)) = true := by
  decide

/-! ### The stack (2.6, 2.9) -/

theorem test_push_K2 :
    gives (step (start 0x0100 [0xF5] fun s => { s with a := 0x1F, sp := 0x502A, flags := { s.flags with cy := true, z := true, p := true, s := false } }))
      (fun t => decide (t.sp = 0x5028 ∧ t.mem.read 0x5028 = 0x45 ∧ t.mem.read 0x5029 = 0x1F ∧ t.pc = 0x0101 ∧ t.flags = ⟨true, false, true, true⟩ ∧ t.report = .continuing 11)) = true := by
  decide

theorem test_push_F2 :
    faults (step (start 0x0100 [0xC5] fun s => { s with b := 0x12, c := 0x34, sp := 0x0001 }))
      (fun f => match f with | .stackUnderflow sp _ => decide (sp = 0x0000) | _ => false) = true := by
  decide

theorem test_pop_K5 :
    gives (step (start 0x0100 [0xF1] fun s => { s with sp := 0x2C00, mem := ((s.mem.write 0x2C00 0xC3).write 0x2C01 0xFF) }))
      (fun t => decide (t.a = 0xFF ∧ t.sp = 0x2C02 ∧ t.pc = 0x0101 ∧ t.flags = ⟨true, true, false, true⟩ ∧ t.report = .continuing 10)) = true := by
  decide

theorem test_pop_K7 :
    gives (step (start 0x0100 [0xC1] fun s => { s with sp := 0xFFFF, mem := ((s.mem.write 0x0000 0x22).write 0xFFFF 0x11) }))
      (fun t => decide (t.b = 0x22 ∧ t.c = 0x11 ∧ t.sp = 0x0001 ∧ t.pc = 0x0101 ∧ t.flags = ⟨false, false, false, false⟩ ∧ t.report = .continuing 10)) = true := by
  decide

/-! ### Input and output (2.7) -/

theorem test_inp_I1 :
    gives (step (start 0x0100 [0xDB, 0x01] fun s => { s with flags := { s.flags with z := true, cy := true }, ports := (s.ports.write 1 0x81) }))
      (fun t => decide (t.a = 0x81 ∧ t.pc = 0x0102 ∧ t.flags = ⟨true, false, false, true⟩ ∧ t.report = .continuing 10)) = true := by
  decide

theorem test_inp_I4 :
    faults (step (start 0x0100 [0xDB, 0x08] fun s => { s with a := 0x55 }))
      (fun f => match f with | .portOutOfRange p _ => decide (p = 8) | _ => false) = true := by
  decide

theorem test_out_I2 :
    gives (step (start 0x0100 [0xD3, 0x03] fun s => { s with a := 0x2A }))
      (fun t => decide (t.ports.read 3 = 0x2A ∧ t.pc = 0x0102 ∧ t.flags = ⟨false, false, false, false⟩ ∧ t.report = .continuing 10)) = true := by
  decide

theorem test_out_I3 :
    gives (step (start 0x0100 [0xD3, 0x03] fun s => { s with a := 0x2A, cfg := { s.cfg with outIgnoredPorts := [3] } }))
      (fun t => decide (t.pc = 0x0102 ∧ t.ports.read 3 = 0 ∧ t.flags = ⟨false, false, false, false⟩ ∧ t.report = .continuing 10)) = true := by
  decide

/-! ### Control (2.8) and a fetch past memory (2.9) -/

theorem test_nop_C1 :
    gives (step (start 0x0100 [0x00] fun s => { s with flags := { s.flags with z := true, cy := true } }))
      (fun t => decide (t.pc = 0x0101 ∧ t.flags = ⟨true, false, false, true⟩ ∧ t.report = .continuing 4)) = true := by
  decide

theorem test_fetch_F6 :
    faults (step (start 0x0008 [] fun s => { s with sp := 0x0000, cfg := { s.cfg with memSize := 8 } }))
      (fun f => match f with | .outOfBounds k a _ => decide (k = .fetch ∧ a = 0x0008) | _ => false) = true := by
  decide

theorem test_hlt_C3 :
    gives (step (start 0x0100 [0x76] fun s => { s with inte := true, flags := { s.flags with z := true, cy := true } }))
      (fun t => decide (t.halted = true ∧ t.pc = 0x0101 ∧ t.flags = ⟨true, false, false, true⟩ ∧ t.report = .continuing 7)) = true := by
  decide

theorem test_ei_C4 :
    gives (step (start 0x0100 [0xFB] fun s => { s with flags := { s.flags with z := true, cy := true } }))
      (fun t => decide (t.inte = true ∧ t.pc = 0x0101 ∧ t.flags = ⟨true, false, false, true⟩ ∧ t.report = .continuing 4)) = true := by
  decide

theorem test_di_C5 :
    gives (step (start 0x0100 [0xF3] fun s => { s with inte := true }))
      (fun t => decide (t.inte = false ∧ t.pc = 0x0101 ∧ t.flags = ⟨false, false, false, false⟩ ∧ t.report = .continuing 4)) = true := by
  decide

theorem test_stc_C6 :
    gives (step (start 0x0100 [0x37] fun s => { s with flags := { s.flags with z := true, s := true } }))
      (fun t => decide (t.pc = 0x0101 ∧ t.flags = ⟨true, true, false, true⟩ ∧ t.report = .continuing 4)) = true := by
  decide

theorem test_cmc_C7 :
    gives (step (start 0x0100 [0x3F] fun s => { s with flags := { s.flags with cy := true, p := true } }))
      (fun t => decide (t.pc = 0x0101 ∧ t.flags = ⟨false, false, true, false⟩ ∧ t.report = .continuing 4)) = true := by
  decide

theorem test_cmc_C8 :
    gives (step (start 0x0100 [0x3F] fun s => { s with flags := { s.flags with cy := false } }))
      (fun t => decide (t.pc = 0x0101 ∧ t.flags = ⟨false, false, false, true⟩ ∧ t.report = .continuing 4)) = true := by
  decide

/-! ## Placing an instruction, and the host's transactions -/

/-- The placed instruction is what the next step runs, as the first after reset too. -/
theorem test_withFetchWord :
    gives (step (State.reset.withFetchWord 24 0x3E00C3)) (fun t => decide (t.pc = 0x3E00)) = true ∧
      gives (step (State.reset.withFetchWord 16 0x053E)) (fun t => decide (t.a = 5 ∧ t.pc = 2)) = true := by
  decide

/-- 95 N1: accepted between steps. -/
theorem test_interrupt_N1 :
    gives (interrupt 2 (start 0x0123 [] fun s => { s with inte := true }))
      (fun t => decide (t.sp = 0x23FE ∧ t.inte = false ∧ t.mem.read 0x23FE = 0x23 ∧ t.mem.read 0x23FF = 0x01 ∧
        t.pc = 0x0010 ∧ t.report = .accepted 11)) = true := by
  decide

/-- 95 N2: lost while INTE = 0. -/
theorem test_interrupt_N2 :
    gives (interrupt 2 (start 0x0123 [] id)) (fun t => decide (t.pc = 0x0123 ∧ t.sp = 0x2400 ∧ t.report = .ignored)) = true := by
  decide

/-- 95 N3: accepted all the same without the gate. -/
theorem test_interrupt_N3 :
    gives (interrupt 2 (start 0x0123 [] fun s => { s with cfg := { s.cfg with intGatedByInte := false } }))
      (fun t => decide (t.pc = 0x0010 ∧ t.mem.read 0x23FE = 0x23 ∧ t.report = .accepted 11)) = true := by
  decide

/-- 95 N5: a halted block ignores it. -/
theorem test_interrupt_N5 :
    gives (interrupt 7 (start 0x0100 [] fun s => { s with inte := true, halted := true }))
      (fun t => decide (t.pc = 0x0100 ∧ t.report = .ignored)) = true := by
  decide

/-- 95 N6: no room on the stack. -/
theorem test_interrupt_N6 :
    faults (interrupt 1 (start 0x0100 [] fun s => { s with inte := true, sp := 0 }))
      (fun f => match f with
        | .stackUnderflow sp t => decide (sp = 0 ∧ t.inte = false ∧ t.pc = 0x0100)
        | _ => false) = true := by
  decide

/-- 95 section 2.8, K3: the step after HLT answers Halted and changes nothing. -/
theorem test_halted_K3 :
    gives (step (start 0x0101 [] fun s => { s with halted := true, inte := true }))
      (fun t => decide (t.pc = 0x0101 ∧ t.halted = true ∧ t.inte = true ∧ t.report = .halted)) = true := by
  decide

/-- 46 R259: a load outside the array is outside the contract; inside, IN reads it (95 I1). -/
theorem test_host_port :
    refuses (setInputPort 8 0x81 State.reset)
      (fun r => match r with | .hostPortOutOfContract p => decide (p = 8) | _ => false) = true ∧
      gives (setInputPort 1 0x81 State.reset) (fun t => decide (readOutputPort 1 t = some 0x81)) = true := by
  decide

/-- 60 R301: the frame is a window of memory, and must lie in it. -/
theorem test_frame_view :
    frameView 0x0100 2 (start 0x0100 [0xAB, 0xCD] id) = some [0xAB, 0xCD] ∧ frameView 65535 2 State.reset = none := by
  decide

/-- 30 R111, 60 R283: under UNDOC_CALL_POLICY = fault the byte 0xDD has no handler. -/
theorem test_undoc_call_fault :
    faults (step (start 0x0100 [0xDD, 0x00, 0x20] fun s => { s with cfg := { s.cfg with undocCall := .fault } }))
      (fun f => match f with | .unknownOpcode op a _ => decide (op = 0xDD ∧ a = 0x0100) | _ => false) = true := by
  decide

/-- Reset keeps N_PORTS and the policies, and takes MEM_SIZE from the image (70 R324). -/
theorem test_reset_keeps_configuration :
    ∃ t, hostReset ResetRegs.zeros [0x76, 0x00]
        { State.reset with cfg := { Config.default with nPorts := 3, topOfSpace := .fault, intCycles := 9 } } = .next t ∧
      t.cfg = { Config.default with nPorts := 3, topOfSpace := .fault, intCycles := 9, memSize := 2 } := ⟨_, rfl, rfl⟩

/-! ## Witnesses: states and operands that meet the hypotheses of the statements -/

/-- A machine with a small memory. -/
def small (n : Nat) : State := { State.reset with cfg := { Config.default with memSize := n } }

/-- Eight bytes of memory and H:L at the given address. -/
def smallHL (l : Byte) : State := { small 8 with l := l }

/-- The default machine with SP given. -/
def atSP (sp : Word) : State := { State.reset with sp := sp }

/-- Under TOP_OF_SPACE_POLICY = fault. -/
def topFault : State := { State.reset with cfg := { Config.default with topOfSpace := .fault } }

/-- Under TOP_OF_SPACE_POLICY = fault with a smaller memory. -/
def smallTopFault (n : Nat) : State :=
  { State.reset with cfg := { Config.default with memSize := n, topOfSpace := .fault } }

/-! ### Encoding -/

theorem witness_DecodeEncodeRoundTrip : Instr.wf (.lxi .sp 0xFFFF) = true ∧ Instr.wf (.mov .m .a) = true := by decide

theorem witness_EncodeDecodeRoundTrip :
    decode [0xC3, 0x34, 0x12, 0x00] = .ok (.jmp 0x1234, [0x00]) ∧ (0xC3 : Byte) ∉ undefinedBytes ∧
      decode [0xD9] = .ok (.ret, []) ∧ (0xD9 : Byte) ∈ undefinedBytes :=
  ⟨rfl, by decide, rfl, by decide⟩

theorem witness_LengthFromFirstByte :
    (0x31 : Byte).toNat / 64 = 0 ∧ (0x31 : Byte).toNat % 8 = 1 ∧ (0x31 : Byte).toNat / 8 % 8 % 2 = 0 ∧
      (0x22 : Byte).toNat % 8 = 2 ∧ 4 ≤ (0x22 : Byte).toNat / 8 % 8 ∧
      (0xFA : Byte).toNat / 64 = 3 ∧ (0xFA : Byte).toNat % 8 = 2 ∧ (0xFC : Byte).toNat % 8 = 4 ∧
      (0x3E : Byte).toNat / 64 = 0 ∧ (0x3E : Byte).toNat % 8 = 6 ∧ (0xFE : Byte).toNat / 64 = 3 ∧ (0xFE : Byte).toNat % 8 = 6 ∧
      (0x76 : Byte).toNat / 64 = 1 := by
  decide

/-! ### The step -/

theorem witness_StepRunsDecodedInstruction :
    let s := start 0x0100 [0xC3, 0x00, 0x3E] id
    s.halted = false ∧ dispatchMaps s.cfg (s.mem.read s.pc.toNat) = true ∧ s.streamOpen (Instr.length (.jmp 0x3E00)) ∧
      decode (s.streamBytes (Instr.length (.jmp 0x3E00))) = .ok (.jmp 0x3E00, []) :=
  ⟨rfl, by decide, ⟨⟨by decide, by decide⟩, ⟨by decide, by decide⟩, ⟨by decide, by decide⟩, trivial⟩, rfl⟩

theorem witness_HaltedStepChangesNothing : State.halted { State.reset with halted := true } = true := rfl

/-- The opcode fetch past the end, under both policies, and the operand fetches: 95 F7 (k = 1), 95 F8 (k = 2). -/
theorem witness_FetchPastMemoryFaults_opcode : ∀ s ∈ [{ small 8 with pc := 8 }, { smallTopFault 8 with pc := 8 }],
    s.halted = false ∧ (Config.topFaults s.cfg && s.pcWrapped) = false ∧ s.cfg.memSize ≤ s.pc.toNat := by
  decide

theorem witness_OperandFetchFaults_first :
    ∀ s ∈ [{ small 8 with pc := 7, mem := [(7, 0x3E)] }, { smallTopFault 8 with pc := 7, mem := [(7, 0x3E)] }],
    s.halted = false ∧ s.mem.read s.pc.toNat = 0x3E ∧ dispatchMaps s.cfg 0x3E = true ∧
      1 ≤ 1 ∧ 1 < instrLength 0x3E ∧ s.streamOpen 1 ∧
      (Config.topFaults s.cfg && (s.afterFetches 1).pcWrapped) = false ∧ s.cfg.memSize ≤ (s.afterFetches 1).pc.toNat := by
  unfold State.streamOpen State.streamOpen State.fetchOpen
  decide

theorem witness_OperandFetchFaults_second :
    ∀ s ∈ [{ small 8 with pc := 6, mem := [(6, 0xC3)] }, { smallTopFault 8 with pc := 6, mem := [(6, 0xC3)] }],
    s.halted = false ∧ s.mem.read s.pc.toNat = 0xC3 ∧ dispatchMaps s.cfg 0xC3 = true ∧
      1 ≤ 2 ∧ 2 < instrLength 0xC3 ∧ s.streamOpen 2 ∧
      (Config.topFaults s.cfg && (s.afterFetches 2).pcWrapped) = false ∧ s.cfg.memSize ≤ (s.afterFetches 2).pc.toNat := by
  unfold State.streamOpen State.streamOpen State.streamOpen State.fetchOpen
  decide

theorem witness_UnmappedOpcodeFaults :
    let s := start 0x0100 [0xDD] fun s => { s with cfg := { s.cfg with undocCall := .fault } }
    (s.halted = false ∧ s.fetchOpen ∧ dispatchMaps s.cfg (s.mem.read s.pc.toNat) = false) ∧
      dispatchMaps s.cfg 0xDC = true ∧ dispatchMaps { Config.default with unmappedOpcodes := [0x00] } 0x00 = false ∧
      State.reset.cfg.unmappedOpcodes = [] ∧ State.reset.cfg.undocCall = .aliasCall :=
  ⟨⟨rfl, ⟨by decide, by decide⟩, by decide⟩, by decide, by decide, rfl, rfl⟩

/-! ### 8-bit operands: the last byte of memory is open, the one after it is not -/

theorem witness_operandOpen : (smallHL 7).operandOpen .m ∧ (smallHL 8).operandOpen .a ∧ ¬ (smallHL 8).operandOpen .m :=
  ⟨fun _ => by unfold State.byteOpen; decide, fun h => absurd h (by decide),
    fun h => absurd (h rfl) (by unfold State.byteOpen; decide)⟩

theorem witness_AdditionRules : (smallHL 7).operandOpen .m ∧ ¬ (smallHL 8).operandOpen .m :=
  ⟨witness_operandOpen.1, witness_operandOpen.2.2⟩

theorem witness_SubtractionRules : (smallHL 7).operandOpen .m ∧ ¬ (smallHL 8).operandOpen .m := witness_AdditionRules

theorem witness_IncrementDecrementRules : (smallHL 7).operandOpen .m ∧ ¬ (smallHL 8).operandOpen .m := witness_AdditionRules

theorem witness_LogicalRules : (smallHL 7).operandOpen .m ∧ ¬ (smallHL 8).operandOpen .m := witness_AdditionRules

theorem witness_ComplementAndCompareRules : (smallHL 7).operandOpen .m ∧ ¬ (smallHL 8).operandOpen .m := witness_AdditionRules

theorem witness_MoveRules :
    ((R8.m, R8.a) ≠ (R8.m, R8.m) ∧ (smallHL 7).operandOpen .m ∧ (smallHL 7).operandOpen .a) ∧
      ((R8.a, R8.m) ≠ (R8.m, R8.m) ∧ ¬ (smallHL 8).operandOpen .m) ∧ (R8.m, R8.b) ≠ (R8.m, R8.m) :=
  ⟨⟨by decide, witness_operandOpen.1, fun h => absurd h (by decide)⟩, ⟨by decide, witness_operandOpen.2.2⟩, by decide⟩

/-- One accumulator per class of 40 R150 (95 A30 to A36), and the two policies. -/
theorem witness_DecimalAdjustClasses :
    State.reset.cfg.daaNoHighFix = .unchanged ∧
      ({ State.reset with cfg := { Config.default with daaNoHighFix := .setCarryClear } } : State).cfg.daaNoHighFix = .setCarryClear ∧
      ((0x99 : Byte).toNat % 16 ≤ 9 ∧ (0x99 : Byte).toNat / 16 ≤ 9) ∧
      (9 < (0x8A : Byte).toNat % 16 ∧ (0x8A : Byte).toNat / 16 ≤ 8) ∧
      (9 < (0xFA : Byte).toNat % 16 ∧ (0xFA : Byte).toNat / 16 = 15) ∧
      ((0xA9 : Byte).toNat % 16 ≤ 9 ∧ 9 < (0xA9 : Byte).toNat / 16) ∧
      (9 < (0x9A : Byte).toNat % 16 ∧ 9 ≤ (0x9A : Byte).toNat / 16 ∧ (0x9A : Byte).toNat / 16 ≤ 14) ∧
      (9 < (0xEF : Byte).toNat % 16 ∧ 9 ≤ (0xEF : Byte).toNat / 16 ∧ (0xEF : Byte).toNat / 16 ≤ 14) := by
  decide

/-! ### Byte and word accesses -/

theorem witness_AccumulatorLoadStoreRules :
    (small 8).byteOpen 7 ∧ ¬ (small 8).byteOpen 8 ∧ ({ small 8 with e := 7 } : State).byteOpen (State.indexPair { small 8 with e := 7 } .de) ∧
      ¬ ({ small 8 with e := 8 } : State).byteOpen (State.indexPair { small 8 with e := 8 } .de) := by
  unfold State.byteOpen
  decide

theorem witness_wordOpen :
    (small 8).wordOpen 6 ∧ State.reset.wordOpen 0xFFFF ∧ topFault.wordOpen 0xFFFE := by
  unfold State.wordOpen
  decide

/-- The three clauses of WordFaults: the first byte out; the second byte out, under both policies; the top of
the space. -/
theorem witness_WordFaults :
    (small 8).cfg.memSize ≤ (8 : Word).toNat ∧
      (∀ s ∈ [small 8, smallTopFault 8], (7 : Word).toNat < s.cfg.memSize ∧
        (Config.topFaults s.cfg && decide ((7 : Word) = 0xFFFF)) = false ∧ s.cfg.memSize ≤ ((7 : Word) + 1).toNat) ∧
      ((0xFFFF : Word).toNat < topFault.cfg.memSize ∧ topFault.cfg.topOfSpace = .fault) := by
  decide

theorem witness_HLLoadStoreRules : (small 8).wordOpen 6 ∧ State.reset.wordOpen 0xFFFF :=
  ⟨witness_wordOpen.1, witness_wordOpen.2.1⟩

theorem witness_ExchangeStackTopRule : ({ small 8 with sp := 6 } : State).wordOpen 6 ∧ ({ small 8 with sp := 0 } : State).wordOpen 0 := by
  unfold State.wordOpen
  decide

/-! ### The stack -/

/-- The lowest push and the push that ends at the top of memory (95 K8, F15). -/
theorem witness_pushOpen : (atSP 2).pushOpen ∧ ({ small 8 with sp := 8 } : State).pushOpen ∧ ¬ (atSP 1).pushOpen := by
  unfold State.pushOpen
  decide

/-- The three clauses of PushFaults (95 F1, F2, F14). -/
theorem witness_PushFaults :
    (atSP 0).sp = 0 ∧ ((atSP 1).sp = 1 ∧ 1 ≤ (atSP 1).cfg.memSize) ∧
      (2 ≤ ({ small 8 with sp := 9 } : State).sp.toNat ∧ (small 8).cfg.memSize < ({ small 8 with sp := 9 } : State).sp.toNat) := by
  decide

/-- The highest pop inside a small memory, and the pop that wraps (95 K7). -/
theorem witness_popOpen : ({ small 8 with sp := 6 } : State).popOpen ∧ (atSP 0xFFFF).popOpen := by
  unfold State.popOpen
  decide

/-- The two clauses of PopFaults (95 F9, F10), under both policies. -/
theorem witness_PopFaults :
    (∀ s ∈ [{ small 8 with sp := 8 }, { smallTopFault 8 with sp := 8 }],
      (Config.topFaults s.cfg && s.spWrapped) = false ∧ s.cfg.memSize ≤ s.sp.toNat) ∧
    (∀ s ∈ [{ small 8 with sp := 7 }, { smallTopFault 8 with sp := 7 }],
      (Config.topFaults s.cfg && (s.spWrapped || decide (s.sp = 0xFFFF))) = false ∧
        s.sp.toNat < s.cfg.memSize ∧ s.cfg.memSize ≤ (s.sp + 1).toNat) := by
  decide

theorem witness_JumpRules :
    (⟨true, false, false, false⟩ : Flags).holds .z = true ∧ (⟨true, false, false, false⟩ : Flags).holds .nz = false := by
  decide

theorem witness_CallRules :
    (atSP 2).pushOpen ∧ State.reset.flags.holds .nc = true ∧ State.reset.flags.holds .c = false :=
  ⟨witness_pushOpen.1, by decide, by decide⟩

theorem witness_ReturnRules :
    (atSP 0xFFFF).popOpen ∧ State.reset.flags.holds .po = true ∧ State.reset.flags.holds .pe = false :=
  ⟨witness_popOpen.2, by decide, by decide⟩

theorem witness_RestartRule : (atSP 2).pushOpen := witness_pushOpen.1

theorem witness_PushRules : (atSP 2).pushOpen := witness_pushOpen.1

theorem witness_PopRules : (atSP 0xFFFF).popOpen := witness_popOpen.2

theorem witness_PushPopRoundTrip : (atSP 2).pushOpen ∧ ({ small 8 with sp := 8 } : State).pushOpen :=
  ⟨witness_pushOpen.1, witness_pushOpen.2.1⟩

theorem witness_StackUnderflowOnlyByPushes :
    exec (.push .bc) (atSP 0) = .fault (.stackUnderflow 0 (atSP 0)) ∧
      exec (.cnz 0) (atSP 0) = .fault (.stackUnderflow 0 (atSP 0)) := ⟨rfl, rfl⟩

/-! ### Input and output, control -/

theorem witness_InputRule : (7 : Byte).toNat < State.reset.cfg.nPorts ∧ State.reset.cfg.nPorts ≤ (8 : Byte).toNat := by
  decide

theorem witness_OutputRule :
    ((7 : Byte).toNat < State.reset.cfg.nPorts ∧ (7 : Byte) ∉ State.reset.cfg.outIgnoredPorts) ∧
      (3 : Byte) ∈ ({ Config.default with outIgnoredPorts := [3] } : Config).outIgnoredPorts ∧
      State.reset.cfg.nPorts ≤ (8 : Byte).toNat := by
  decide

theorem witness_NopRule :
    let s := start 0xFFFF [0x38] id
    s.halted = false ∧ s.fetchOpen ∧ s.mem.read s.pc.toNat = 0x38 ∧ dispatchMaps s.cfg 0x38 = true :=
  ⟨rfl, ⟨by decide, by decide⟩, by decide, by decide⟩

/-! ### Frames -/

theorem witness_GeneralRegisterFrame :
    exec (.add .b) State.reset = .next (State.reset.withAlu 0 false) ∧ RegName.b ∉ Instr.destRegs (.add .b) :=
  ⟨rfl, by decide⟩

theorem witness_FlagFrame :
    (∃ t, exec (.inr .b) State.reset = .next t) ∧ (Instr.flagsWritten State.reset.cfg (.inr .b)).cy = false ∧
      (∃ t, exec .stc State.reset = .next t) ∧ (Instr.flagsWritten State.reset.cfg .stc).zsp = false :=
  ⟨⟨_, rfl⟩, rfl, ⟨_, rfl⟩, rfl⟩

theorem witness_PointerFrame :
    (∃ t, exec .xthl (atSP 6) = .next t) ∧ Instr.writesSP .xthl = false ∧ Instr.writesPC .xthl = false :=
  ⟨⟨_, rfl⟩, rfl, rfl⟩

theorem witness_ControlFrame :
    (∃ t, step (start 0x0100 [0x76] id) = .next t) ∧ (∃ t, exec .stc State.reset = .next t) ∧
      Instr.stc ≠ .ei ∧ Instr.stc ≠ .di ∧ Instr.stc ≠ .hlt ∧ ∀ p8, Instr.stc ≠ .out p8 :=
  ⟨⟨_, rfl⟩, ⟨_, rfl⟩, by decide, by decide, by decide, fun _ h => by cases h⟩

theorem witness_MemoryFrame :
    (∃ t, exec (.push .bc) (atSP 2) = .next t) ∧ 2 ∉ Instr.storeAddrs (atSP 2) (.push .bc) ∧
      1 ∈ Instr.storeAddrs (atSP 2) (.push .bc) ∧ 0 ∈ Instr.storeAddrs (atSP 2) (.push .bc) :=
  ⟨⟨_, rfl⟩, by decide, by decide, by decide⟩

/-! ### Reset, invariants, whole-machine rules -/

/-- The shortest and the longest image, and the lengths next to them. -/
theorem witness_ResetMemoryIsTheImage :
    (1 ≤ ([0x76] : List Byte).length ∧ ([0x76] : List Byte).length ≤ 65536) ∧
      (1 ≤ (List.replicate 65536 (0 : Byte)).length ∧ (List.replicate 65536 (0 : Byte)).length ≤ 65536) ∧
      ([] : List Byte).length < 1 ∧ 65536 < (List.replicate 65537 (0 : Byte)).length := by
  rw [List.length_replicate, List.length_replicate]
  decide

theorem witness_ResetEntryState :
    (∃ t, hostReset { ResetRegs.zeros with ports := [1, 2, 3, 4, 5, 6, 7, 8] } [0x76] topFault = .next t) ∧
      7 < topFault.cfg.nPorts ∧ 7 < ([1, 2, 3, 4, 5, 6, 7, 8] : List Byte).length :=
  ⟨⟨_, rfl⟩, by decide, by decide⟩

theorem witness_StepKeepsTheInvariant :
    (start 0x0100 [0x76] id).Inv ∧ ∃ t, step (start 0x0100 [0x76] id) = .next t :=
  ⟨by decide, _, rfl⟩

theorem witness_TransactionsKeepTheInvariant :
    State.reset.Inv ∧
      (∃ t, transact ResetRegs.zeros (.reset [0x76]) State.reset = .next t) ∧
      ((∃ t, transact ResetRegs.zeros .step State.reset = .next t) ∧ ∀ image, Transaction.step ≠ .reset image) ∧
      (∃ t, transact ResetRegs.zeros (.interrupt 7) State.reset = .next t) ∧
      ∃ t, transact ResetRegs.zeros (.portLoad 7 1) State.reset = .next t :=
  ⟨by decide, ⟨_, rfl⟩, ⟨⟨_, rfl⟩, fun _ h => by cases h⟩, ⟨_, rfl⟩, ⟨_, rfl⟩⟩

theorem witness_LatchIsNeverRead : ∃ t, step State.reset = .next t := ⟨_, rfl⟩

theorem witness_CycleTableIsNeverRead : ∃ t, step State.reset = .next t := ⟨_, rfl⟩

/-- The default table is in use, and both paths of a conditional call and return are met. -/
theorem witness_DefaultCycleTable :
    State.reset.cfg.cycleOverrides = [] ∧ (R8.a ≠ .m ∧ R8.b ≠ .m) ∧
      State.reset.flags.holds .nc = true ∧ State.reset.flags.holds .c = false := by
  decide

theorem witness_StoreIsSeenByFetch : (small 8).byteOpen 7 := by
  unfold State.byteOpen
  decide

/-! ### The top of the address space and the host -/

theorem witness_TopOfSpaceFaultPolicy :
    topFault.cfg.topOfSpace = .fault ∧ topFault.halted = false ∧ ({ topFault with pcWrapped := true } : State).pcWrapped = true ∧
      ({ topFault with pc := 0xFFFF } : State).pc = 0xFFFF ∧ ({ topFault with spWrapped := true } : State).spWrapped = true ∧
      topFault.spWrapped = false ∧ topFault.cfg.memSize = 65536 ∧ ({ topFault with sp := 0xFFFF } : State).sp = 0xFFFF ∧
      ({ topFault with sp := 0xFFFE } : State).sp = 0xFFFE := by
  decide

/-- The clause on operand bytes: MVI A at 0xFFFF, its operand byte beyond the top. -/
theorem witness_TopOfSpaceFaultPolicy_operand :
    let s := { topFault with pc := 0xFFFF, mem := [(0xFFFF, 0x3E)] }
    s.halted = false ∧ dispatchMaps s.cfg (s.mem.read s.pc.toNat) = true ∧ 1 ≤ 1 ∧
      1 < instrLength (s.mem.read s.pc.toNat) ∧ s.streamOpen 1 ∧ (s.afterFetches 1).pcWrapped = true :=
  ⟨rfl, by decide, by decide, by decide, ⟨⟨by decide, by decide⟩, trivial⟩, by decide⟩

theorem witness_InterruptAcceptance :
    let s := { atSP 2 with inte := true }
    s.halted = false ∧ (s.inte = true ∨ s.cfg.intGatedByInte = false) ∧ s.pushOpen := by
  unfold State.pushOpen
  decide

theorem witness_InterruptIgnored :
    State.halted { State.reset with halted := true } = true ∧ State.reset.cfg.intGatedByInte = true ∧ State.reset.inte = false := by
  decide

theorem witness_ReturnFromInterrupt :
    let s := { atSP 2 with inte := true }
    s.halted = false ∧ s.inte = true ∧ s.pushOpen := by
  unfold State.pushOpen
  decide

theorem witness_OnePortArray : (7 : Byte).toNat < State.reset.cfg.nPorts ∧ (7 : Byte) ∉ State.reset.cfg.outIgnoredPorts := by
  decide

end Sys2Proof.Tests
end

