-- ==== Sys2Proof/Proofs/FlagRule.lean ====
section
/-! PROOFS. SetFlags (spec 00 R17): each flag as the rule's own words read it off the result byte. -/

namespace Sys2Proof.Machine

/-- The number of 1 bits (00 section 7), counted as the bit positions that hold a 1. -/
theorem popcount_eq_length_filter (b : Byte) :
    popcount b = ((List.range 8).filter b.getLsbD).length := by
  have range_eq : List.range 8 = [0, 1, 2, 3, 4, 5, 6, 7] := rfl
  rw [range_eq, ← List.countP_eq_length_filter]
  simp only [popcount, List.countP_cons, List.countP_nil, Bool.toNat, cond_eq_ite]
  omega

theorem evenParity_iff (b : Byte) :
    evenParity b = true ↔ ((List.range 8).filter b.getLsbD).length % 2 = 0 := by
  rw [evenParity, decide_eq_true_iff, popcount_eq_length_filter]

/-- Bit 7 of a byte is its most significant bit, so it says which half of the range the byte is in. -/
theorem getLsbD_seven_iff (b : Byte) : b.getLsbD 7 = true ↔ 128 ≤ b.toNat := by
  have msb_eq : b.msb = b.getLsbD 7 := BitVec.msb_eq_getLsbD_last b
  rw [← msb_eq, BitVec.msb_eq_decide, decide_eq_true_iff]

/-- Settles O12: one fact per flag, P from the two readings of popcount and S from the top bit. -/
theorem flagRule : Obligations.FlagRule := by
  intro r carry
  refine ⟨?_, ?_, ?_, Flags.ofResult_cy r carry⟩
  · rw [Flags.ofResult_z, decide_eq_true_iff]
  · rw [Flags.ofResult_s, getLsbD_seven_iff]
  · rw [Flags.ofResult_p, evenParity_iff]

end Sys2Proof.Machine
end

