-- ==== Sys2Proof/Proofs/FlagByte.lean ====
section
/-! PROOFS. The flag byte (spec 10 R34, R35): its eight bits as one list, from which the layout and the
effect of unpacking and packing an arbitrary byte follow. -/

namespace Sys2Proof.Machine

/-- The flag byte is the bit list S Z 0 0 0 P 0 CY (10 R34), least significant bit first. -/
theorem Flags.toByte_eq_ofBoolListLE (f : Flags) :
    f.toByte = BitVec.ofBoolListLE [f.cy, false, f.p, false, false, false, f.z, f.s] := by
  obtain ⟨z, s, p, cy⟩ := f
  cases z <;> cases s <;> cases p <;> cases cy <;> rfl

theorem Flags.getLsbD_toByte (f : Flags) (i : Nat) :
    f.toByte.getLsbD i = [f.cy, false, f.p, false, false, false, f.z, f.s].getD i false := by
  rw [Flags.toByte_eq_ofBoolListLE]
  exact BitVec.getLsbD_ofBoolListLE

/-- Packing the unpacked byte keeps the four flag bits, the 1 bits of 0xC5, and clears the others (10 R35). -/
theorem Flags.toByte_ofByte (b : Byte) : (Flags.ofByte b).toByte = b &&& 0xC5 := by
  apply BitVec.eq_of_getLsbD_eq
  intro i hi
  rw [Flags.getLsbD_toByte, BitVec.getLsbD_and]
  interval_cases i <;> simp [Flags.ofByte]

/-- Settles O34: each bit is read off the bit list. -/
theorem flagByteLayout : Obligations.FlagByteLayout :=
  ⟨fun f => ⟨f.getLsbD_toByte 7, f.getLsbD_toByte 6, f.getLsbD_toByte 5, f.getLsbD_toByte 4,
    f.getLsbD_toByte 3, f.getLsbD_toByte 2, f.getLsbD_toByte 1, f.getLsbD_toByte 0, f.ofByte_toByte⟩,
    Flags.toByte_ofByte⟩

end Sys2Proof.Machine
end

