-- ==== Sys2Proof/Proofs/PushPop.lean ====
section
/-! PROOFS. PUSH and POP as whole next states (spec 45 R241 to R244), and a pop after a push of the same
pair (10 R31). -/

namespace Sys2Proof.Machine

/-! ## The two instructions -/

theorem exec_push_of_pushOpen {s : State} (rp : StackPair) (h : s.pushOpen) :
    exec (.push rp) s = .next (s.afterPush (s.stackPair rp)) :=
  (Res.done_eq_next ..).2 ((push16_eq_ok ..).2 ⟨h, rfl⟩)

theorem exec_pop_of_popOpen {s : State} (rp : StackPair) (h : s.popOpen) :
    exec (.pop rp) s = .next (s.afterPop.setStackPair rp (s.wordAt s.sp)) :=
  (Res.andThen_eq_next ..).2 ⟨_, _, (pop16_eq_ok ..).2 ⟨h, rfl, rfl⟩, rfl⟩

/-! ## A pop after a push -/

/-- The two bytes just pushed can be popped: they lie in memory, and SP is too low to run out of 0xFFFF. -/
theorem State.popOpen_afterPush {s : State} (v : Word) (h : s.pushOpen) : (s.afterPush v).popOpen := by
  obtain ⟨room, inMemory⟩ := h
  have sp_ne_top : s.sp - 2 ≠ 0xFFFF := by bv_omega
  refine ⟨?_, ?_, ?_⟩
  · change (s.sp - 2).toNat < s.cfg.memSize
    bv_omega
  · change (s.sp - 2 + 1).toNat < s.cfg.memSize
    bv_omega
  · change (Config.topFaults s.cfg && decide (s.sp - 2 = 0xFFFF)) = false
    rw [decide_eq_false sp_ne_top, Bool.and_false]

/-- The word at the new top of the stack is the word pushed (10 R31). -/
theorem State.wordAt_afterPush (s : State) (v : Word) : (s.afterPush v).wordAt (s.afterPush v).sp = v := by
  have sp_eq : (s.afterPush v).sp = s.sp - 2 := rfl
  have hi_addr : s.sp - 2 + 1 = s.sp - 1 := by bv_omega
  have addr_ne : (s.sp - 2).toNat ≠ (s.sp - 1).toNat := by bv_omega
  rw [State.wordAt, sp_eq, hi_addr, State.afterPush, Cells.read_write_ne _ _ addr_ne, Cells.read_write_self,
    Cells.read_write_self, joinBytes_hiByte_loByte]

theorem State.sp_afterPop_afterPush (s : State) (v : Word) : (s.afterPush v).afterPop.sp = s.sp := by
  change s.sp - 2 + 2 = s.sp
  bv_omega

/-- Writing back what a stack pair holds changes nothing; for PSW the flags survive the flag byte (10 R35). -/
@[simp] theorem State.setStackPair_stackPair (s : State) (rp : StackPair) :
    s.setStackPair rp (s.stackPair rp) = s := by
  cases rp with
  | bc => simp [State.setStackPair, State.stackPair, State.setBC, State.bc]
  | de => simp [State.setStackPair, State.stackPair, State.setDE, State.de]
  | hl => simp [State.setStackPair, State.stackPair, State.setHL, State.hl]
  | psw => simp [State.setStackPair, State.stackPair]

/-- Pushes and pops move no register of a stack pair. -/
theorem State.stackPair_afterPop_afterPush (s : State) (v : Word) (rp : StackPair) :
    (s.afterPush v).afterPop.stackPair rp = s.stackPair rp := by
  cases rp <;> rfl

/-- A pop of the pair just pushed writes back what the pair holds, so it leaves only the moves of SP and the
stored bytes. -/
theorem exec_pop_afterPush {s : State} (rp : StackPair) (h : s.pushOpen) :
    exec (.pop rp) (s.afterPush (s.stackPair rp)) = .next (s.afterPush (s.stackPair rp)).afterPop := by
  have pair_kept := s.stackPair_afterPop_afterPush (s.stackPair rp) rp
  have written_back := (s.afterPush (s.stackPair rp)).afterPop.setStackPair_stackPair rp
  rw [pair_kept] at written_back
  rw [exec_pop_of_popOpen rp (State.popOpen_afterPush _ h), State.wordAt_afterPush, written_back]

/-- Settles O35: the last state is the first one but for MAR, the note on SP and the two stored bytes. -/
theorem pushPopRoundTrip : Obligations.PushPopRoundTrip := by
  intro s rp h
  refine ⟨_, _, exec_push_of_pushOpen rp h, exec_pop_afterPush rp h, s.sp_afterPop_afterPush _, rfl, ?_⟩
  intro r
  cases r <;> rfl

end Sys2Proof.Machine
end

