-- ==== Sys2Proof/Proofs/InstructionBytes.lean ====
section
/-! PROOFS. Reading an instruction's bytes: what an encoding of one or two bytes decodes to (spec 30 R91), and
the operand fetch that finds no byte (60 R282). -/

namespace Sys2Proof

/-- No instruction is longer than three bytes (30 R94). -/
theorem instrLength_le_three (op : Byte) : instrLength op ≤ 3 := by
  unfold instrLength
  split
  case h_1 | h_2 | h_10 => split <;> decide
  all_goals decide

end Sys2Proof

namespace Sys2Proof.Machine

/-! ## Encodings -/

theorem encodes_oneByte {op : Byte} (length_eq : instrLength op = 1) : Encodes (decodeOp op 0 0) [op] := by
  intro rest
  simp only [List.cons_append, List.nil_append, decode, length_eq]

theorem encodes_twoBytes {op : Byte} (b : Byte) (length_eq : instrLength op = 2) :
    Encodes (decodeOp op b 0) [op, b] := by
  intro rest
  simp only [List.cons_append, List.nil_append, decode, length_eq]

/-! ## Operand fetches -/

theorem fetchByte_of_past {s : State} (latch : (Config.topFaults s.cfg && s.pcWrapped) = false)
    (past : s.cfg.memSize ≤ s.pc.toNat) : fetchByte s = .fault (.outOfBounds .fetch s.pc.toNat s) :=
  (fetchByte_eq_fault ..).2 (.inr ⟨latch, past, rfl⟩)

/-- The operand fetches of an instruction of `n` bytes stop at the first one, after `k` that find their byte,
that finds none. -/
theorem fetchOperands_of_past {s : State} {n k : Nat} (k_lt : k + 1 < n) (n_le : n ≤ 3)
    (found : s.streamOpen k) (latch : (Config.topFaults s.cfg && (s.afterFetches k).pcWrapped) = false)
    (past : s.cfg.memSize ≤ (s.afterFetches k).pc.toNat) :
    fetchOperands n s = .fault (.outOfBounds .fetch (s.afterFetches k).pc.toNat (s.afterFetches k)) := by
  have second_or_third : k = 0 ∧ (n = 2 ∨ n = 3) ∨ k = 1 ∧ n = 3 := by omega
  obtain ⟨rfl, rfl | rfl⟩ | ⟨rfl, rfl⟩ := second_or_third
  · rw [fetchOperands, fetchByte_of_past latch past, Res.bind_fault, State.afterFetches]
  · rw [fetchOperands, fetchByte_of_past latch past, Res.bind_fault, State.afterFetches]
  · obtain ⟨first, -⟩ := found
    have missing : fetchByte s.afterFetch = _ := fetchByte_of_past latch past
    rw [fetchOperands, fetchByte_of_open first, Res.bind_ok, missing, Res.bind_fault]
    rfl

/-- Every first byte's operand fetches fault at the first byte they do not find (60 R282 (a)). -/
theorem operandFetchFaults (op : Byte) : OperandFetchFaults op (instrLength op) := by
  intro s k running opcode mapped one_le k_lt found latch past
  obtain ⟨j, rfl⟩ := Nat.exists_eq_add_of_le' one_le
  obtain ⟨first, rest⟩ := found
  have operands := fetchOperands_of_past (s := s.afterFetch) k_lt (instrLength_le_three op) rest latch past
  have mapped_after : dispatchMaps s.afterFetch.cfg op = true := mapped
  have fetched : fetchInstr s = .fault (.outOfBounds .fetch (s.afterFetches (j + 1)).pc.toNat (s.afterFetches (j + 1))) := by
    rw [fetchInstr, fetchByte_of_open first, Res.bind_ok, opcode, if_pos mapped_after, operands, Res.bind_fault]
    rfl
  rw [step, running, if_neg Bool.false_ne_true, fetched, Res.andThen_fault]

end Sys2Proof.Machine
end

