-- ==== Sys2Proof/Proofs/Arithmetic.lean ====
section
/-! PROOFS. The arithmetic instructions (spec 40 R131 to R147): the two forms of the carry, addition and
subtraction on a register, memory or immediate operand, and the 16-bit instructions on a pair. -/

namespace Sys2Proof.Machine

/-! ## The adder and the subtractor -/

theorem add8_eq (a b : Byte) (c : Bool) :
    add8 a b c = { value := a + b + BitVec.ofNat 8 c.toNat, carry := decide (255 < a.toNat + b.toNat + c.toNat) } := by
  rw [← add8_value, ← add8_carry]

theorem sub8_eq (a b : Byte) (c : Bool) :
    sub8 a b c = { value := a - b - BitVec.ofNat 8 c.toNat, carry := decide (a.toNat < b.toNat + c.toNat) } := by
  rw [← sub8_value, ← sub8_carry]

theorem add8_false (a b : Byte) :
    add8 a b false = { value := a + b, carry := decide (255 < a.toNat + b.toNat) } := by
  simp [add8_eq]

theorem sub8_false (a b : Byte) :
    sub8 a b false = { value := a - b, carry := decide (a.toNat < b.toNat) } := by
  simp [sub8_eq]

/-- At most one of the two additions carries, and one does exactly when the exact sum exceeds 255 (40 R139). -/
theorem add8_eq_twoStage (a b : Byte) (cin : Bool) :
    add8 a b cin =
      { value := (add8 (add8 a b false).value (BitVec.ofNat 8 cin.toNat) false).value
        carry := (add8 a b false).carry || (add8 (add8 a b false).value (BitVec.ofNat 8 cin.toNat) false).carry } := by
  have carry_iff : 255 < a.toNat + b.toNat + cin.toNat ↔
      255 < a.toNat + b.toNat ∨ 255 < (a + b).toNat + (BitVec.ofNat 8 cin.toNat).toNat := by
    have cin_le := cin.toNat_le
    rw [BitVec.toNat_add, BitVec.toNat_ofNat]
    omega
  rw [add8_eq, add8_false, add8_false, ← Bool.decide_or, decide_eq_decide.2 carry_iff]

/-- One of the two subtractions borrows exactly when the exact difference is negative (40 R139). -/
theorem sub8_eq_twoStage (a b : Byte) (bin : Bool) :
    sub8 a b bin =
      { value := (sub8 (sub8 a b false).value (BitVec.ofNat 8 bin.toNat) false).value
        carry := (sub8 a b false).carry || (sub8 (sub8 a b false).value (BitVec.ofNat 8 bin.toNat) false).carry } := by
  have borrow_iff : a.toNat < b.toNat + bin.toNat ↔
      a.toNat < b.toNat ∨ (a - b).toNat < (BitVec.ofNat 8 bin.toNat).toNat := by
    have bin_le := bin.toNat_le
    rw [BitVec.toNat_sub, BitVec.toNat_ofNat]
    omega
  rw [sub8_eq, sub8_false, sub8_false, ← Bool.decide_or, decide_eq_decide.2 borrow_iff]

/-- Settles O13: the carry of each form, read off the exact sum and the exact difference. -/
theorem twoStageCarryAgrees : Obligations.TwoStageCarryAgrees :=
  fun a b cin => ⟨add8_eq_twoStage a b cin, sub8_eq_twoStage a b cin⟩

/-! ## The operand -/

@[simp] theorem State.touched_a (s : State) (o : R8) : (s.touched o).a = s.a := by
  cases o <;> rfl

@[simp] theorem State.touched_flags (s : State) (o : R8) : (s.touched o).flags = s.flags := by
  cases o <;> rfl

/-- The one operand that cannot be read is M with H:L outside memory (00 R13, R18). -/
theorem State.not_operandOpen_iff (s : State) (o : R8) :
    ¬ s.operandOpen o ↔ o = .m ∧ s.cfg.memSize ≤ s.hl.toNat := by
  rw [State.operandOpen, State.byteOpen, Classical.not_imp, Nat.not_lt]

theorem readR8_of_not_open {s : State} {o : R8} (h : ¬ s.operandOpen o) :
    readR8 o s = .fault (.outOfBounds .dataRead s.hl.toNat s) := by
  obtain ⟨rfl, past⟩ := (s.not_operandOpen_iff o).1 h
  exact (memRead_eq_fault ..).2 ⟨past, rfl⟩

/-- Reading an operand leaves A and the flags, so an ALU operation on it is computed from those before. -/
theorem readR8_andThen_setAlu {s : State} {src : R8} (h : s.operandOpen src) (alu : Byte → Byte → Flags → AluResult) :
    ((readR8 src s).andThen fun v t => .next (t.setAlu (alu t.a v t.flags))) =
      .next ((s.touched src).setAlu (alu s.a (s.operand src) s.flags)) := by
  rw [readR8_of_open h, Res.andThen_ok, State.touched_a, State.touched_flags]

theorem readR8_andThen_of_not_open {s : State} {src : R8} (h : ¬ s.operandOpen src) (k : Byte → State → Out) :
    (readR8 src s).andThen k = .fault (.outOfBounds .dataRead s.hl.toNat s) := by
  rw [readR8_of_not_open h, Res.andThen_fault]

/-! ## Addition -/

theorem State.setAlu_add8 (s : State) (a b : Byte) (c : Bool) :
    s.setAlu (add8 a b c) =
      s.withAlu (a + b + BitVec.ofNat 8 c.toNat) (decide (255 < a.toNat + b.toNat + c.toNat)) := by
  rw [add8_eq]
  rfl

theorem State.setAlu_add8_false (s : State) (a b : Byte) :
    s.setAlu (add8 a b false) = s.withAlu (a + b) (decide (255 < a.toNat + b.toNat)) := by
  rw [add8_false]
  rfl

theorem encodes_add (src : R8) : Encodes (.add src) [BitVec.ofNat 8 (0x80 + src.code)] := by
  cases src <;> exact encodes_oneByte rfl

theorem encodes_adc (src : R8) : Encodes (.adc src) [BitVec.ofNat 8 (0x88 + src.code)] := by
  cases src <;> exact encodes_oneByte rfl

theorem exec_add_of_open {s : State} {src : R8} (h : s.operandOpen src) :
    exec (.add src) s =
      .next ((s.touched src).withAlu (s.a + s.operand src) (decide (255 < s.a.toNat + (s.operand src).toNat))) := by
  rw [← State.setAlu_add8_false]
  exact readR8_andThen_setAlu h fun a v _ => add8 a v false

theorem exec_adc_of_open {s : State} {src : R8} (h : s.operandOpen src) :
    exec (.adc src) s =
      .next ((s.touched src).withAlu (s.a + s.operand src + BitVec.ofNat 8 s.flags.cy.toNat)
        (decide (255 < s.a.toNat + (s.operand src).toNat + s.flags.cy.toNat))) := by
  rw [← State.setAlu_add8]
  exact readR8_andThen_setAlu h fun a v f => add8 a v f.cy

/-- Settles O14: the register forms by whether the operand can be read, the immediate forms directly. -/
theorem additionRules : Obligations.AdditionRules := by
  intro s src d8
  refine ⟨encodes_add src, encodes_adc src, encodes_twoBytes d8 rfl, encodes_twoBytes d8 rfl,
    operandFetchFaults 0xC6, operandFetchFaults 0xCE, ?readable, ?unreadable, ?adi, ?aci⟩
  case readable => exact fun h => ⟨exec_add_of_open h, exec_adc_of_open h⟩
  case unreadable => exact fun h => ⟨readR8_andThen_of_not_open h _, readR8_andThen_of_not_open h _⟩
  case adi => exact congrArg Host.Outcome.next (s.setAlu_add8_false s.a d8)
  case aci => exact congrArg Host.Outcome.next (s.setAlu_add8 s.a d8 s.flags.cy)

/-! ## Subtraction -/

theorem State.setAlu_sub8 (s : State) (a b : Byte) (c : Bool) :
    s.setAlu (sub8 a b c) =
      s.withAlu (a - b - BitVec.ofNat 8 c.toNat) (decide (a.toNat < b.toNat + c.toNat)) := by
  rw [sub8_eq]
  rfl

theorem State.setAlu_sub8_false (s : State) (a b : Byte) :
    s.setAlu (sub8 a b false) = s.withAlu (a - b) (decide (a.toNat < b.toNat)) := by
  rw [sub8_false]
  rfl

theorem encodes_sub (src : R8) : Encodes (.sub src) [BitVec.ofNat 8 (0x90 + src.code)] := by
  cases src <;> exact encodes_oneByte rfl

theorem encodes_sbb (src : R8) : Encodes (.sbb src) [BitVec.ofNat 8 (0x98 + src.code)] := by
  cases src <;> exact encodes_oneByte rfl

theorem exec_sub_of_open {s : State} {src : R8} (h : s.operandOpen src) :
    exec (.sub src) s =
      .next ((s.touched src).withAlu (s.a - s.operand src) (decide (s.a.toNat < (s.operand src).toNat))) := by
  rw [← State.setAlu_sub8_false]
  exact readR8_andThen_setAlu h fun a v _ => sub8 a v false

theorem exec_sbb_of_open {s : State} {src : R8} (h : s.operandOpen src) :
    exec (.sbb src) s =
      .next ((s.touched src).withAlu (s.a - s.operand src - BitVec.ofNat 8 s.flags.cy.toNat)
        (decide (s.a.toNat < (s.operand src).toNat + s.flags.cy.toNat))) := by
  rw [← State.setAlu_sub8]
  exact readR8_andThen_setAlu h fun a v f => sub8 a v f.cy

/-- Settles O15: as for addition, with the subtractor. -/
theorem subtractionRules : Obligations.SubtractionRules := by
  intro s src d8
  refine ⟨encodes_sub src, encodes_sbb src, encodes_twoBytes d8 rfl, encodes_twoBytes d8 rfl,
    operandFetchFaults 0xD6, operandFetchFaults 0xDE, ?readable, ?unreadable, ?sui, ?sbi⟩
  case readable => exact fun h => ⟨exec_sub_of_open h, exec_sbb_of_open h⟩
  case unreadable => exact fun h => ⟨readR8_andThen_of_not_open h _, readR8_andThen_of_not_open h _⟩
  case sui => exact congrArg Host.Outcome.next (s.setAlu_sub8_false s.a d8)
  case sbi => exact congrArg Host.Outcome.next (s.setAlu_sub8 s.a d8 s.flags.cy)

/-! ## 16-bit arithmetic on a pair -/

theorem exec_dad (rp : Pair) (s : State) :
    exec (.dad rp) s = .next { s.setHL (s.hl + s.pair rp) with
      flags := { s.flags with cy := decide (0xFFFF < s.hl.toNat + (s.pair rp).toNat) } } := by
  have sum_eq : BitVec.ofNat 16 (s.hl.toNat + (s.pair rp).toNat) = s.hl + s.pair rp := by
    rw [BitVec.ofNat_add, BitVec.ofNat_toNat, BitVec.ofNat_toNat, BitVec.setWidth_eq, BitVec.setWidth_eq]
  rw [← sum_eq]
  rfl

theorem exec_inx (rp : Pair) (s : State) : exec (.inx rp) s = .next (s.setPair rp (s.pair rp + 1)) := rfl

theorem exec_dcx (rp : Pair) (s : State) : exec (.dcx rp) s = .next (s.setPair rp (s.pair rp - 1)) := rfl

theorem encodes_dad (rp : Pair) : Encodes (.dad rp) [BitVec.ofNat 8 (0x01 + 8 * rp.codeQ)] := by
  cases rp <;> exact encodes_oneByte rfl

theorem encodes_inx (rp : Pair) : Encodes (.inx rp) [BitVec.ofNat 8 (0x03 + 8 * rp.code)] := by
  cases rp <;> exact encodes_oneByte rfl

theorem encodes_dcx (rp : Pair) : Encodes (.dcx rp) [BitVec.ofNat 8 (0x03 + 8 * rp.codeQ)] := by
  cases rp <;> exact encodes_oneByte rfl

/-- Settles O17: INX and DCX read back what they wrote to the pair, one away modulo 65536. -/
theorem sixteenBitRules : Obligations.SixteenBitRules := by
  intro s rp
  refine ⟨encodes_dad rp, encodes_inx rp, encodes_dcx rp, exec_dad rp s,
    ⟨_, exec_inx rp s, rfl, ?up, State.setPair_flags ..⟩, ⟨_, exec_dcx rp s, rfl, ?down, State.setPair_flags ..⟩⟩
  case up =>
    rw [State.pair_setPair]
    bv_omega
  case down =>
    rw [State.pair_setPair]
    bv_omega

end Sys2Proof.Machine
end

