-- ==== Sys2Proof/Proofs/Logical.lean ====
section
/-! PROOFS. The logical and compare instructions (spec 41 R161 to R169): AND, XOR and OR on a register, memory
or immediate operand, the complement of A, and the comparison. -/

namespace Sys2Proof.Machine

/-! ## AND, XOR and OR -/

theorem encodes_ana (src : R8) : Encodes (.ana src) [BitVec.ofNat 8 (0xA0 + src.code)] := by
  cases src <;> exact encodes_oneByte rfl

theorem encodes_xra (src : R8) : Encodes (.xra src) [BitVec.ofNat 8 (0xA8 + src.code)] := by
  cases src <;> exact encodes_oneByte rfl

theorem encodes_ora (src : R8) : Encodes (.ora src) [BitVec.ofNat 8 (0xB0 + src.code)] := by
  cases src <;> exact encodes_oneByte rfl

theorem exec_ana_of_open {s : State} {src : R8} (h : s.operandOpen src) :
    exec (.ana src) s = .next ((s.touched src).withAlu (s.a &&& s.operand src) false) :=
  readR8_andThen_setAlu h fun a v _ => { value := a &&& v, carry := false }

theorem exec_xra_of_open {s : State} {src : R8} (h : s.operandOpen src) :
    exec (.xra src) s = .next ((s.touched src).withAlu (s.a ^^^ s.operand src) false) :=
  readR8_andThen_setAlu h fun a v _ => { value := a ^^^ v, carry := false }

theorem exec_ora_of_open {s : State} {src : R8} (h : s.operandOpen src) :
    exec (.ora src) s = .next ((s.touched src).withAlu (s.a ||| s.operand src) false) :=
  readR8_andThen_setAlu h fun a v _ => { value := a ||| v, carry := false }

/-- Settles O19: the register forms by whether the operand can be read; the immediate forms are their definitions. -/
theorem logicalRules : Obligations.LogicalRules := by
  intro s src d8
  refine ⟨encodes_ana src, encodes_xra src, encodes_ora src,
    encodes_twoBytes d8 rfl, encodes_twoBytes d8 rfl, encodes_twoBytes d8 rfl,
    operandFetchFaults 0xE6, operandFetchFaults 0xEE, operandFetchFaults 0xF6, ?readable, ?unreadable, rfl, rfl, rfl⟩
  case readable => exact fun h => ⟨exec_ana_of_open h, exec_xra_of_open h, exec_ora_of_open h⟩
  case unreadable =>
    exact fun h => ⟨readR8_andThen_of_not_open h _, readR8_andThen_of_not_open h _, readR8_andThen_of_not_open h _⟩

/-! ## The complement of A -/

theorem exec_cma (s : State) : exec .cma s = .next { s with a := ~~~s.a } := by
  have complement_eq : s.a ^^^ 0xFF = ~~~s.a := BitVec.xor_allOnes
  rw [← complement_eq]
  rfl

theorem exec_cma_complement (s : State) : exec .cma { s with a := ~~~s.a } = .next s := by
  rw [exec_cma, BitVec.not_not]

/-! ## Comparison -/

theorem encodes_cmp (src : R8) : Encodes (.cmp src) [BitVec.ofNat 8 (0xB8 + src.code)] := by
  cases src <;> exact encodes_oneByte rfl

theorem State.setFlags_sub8_false (s : State) (a b : Byte) :
    s.setFlags (sub8 a b false).value (sub8 a b false).carry =
      { s with flags := Flags.ofResult (a - b) (decide (a.toNat < b.toNat)) } := by
  rw [sub8_false]
  rfl

theorem exec_cmp_of_open {s : State} {src : R8} (h : s.operandOpen src) :
    exec (.cmp src) s = .next { s.touched src with
      flags := Flags.ofResult (s.a - s.operand src) (decide (s.a.toNat < (s.operand src).toNat)) } := by
  rw [exec, execCmp, readR8_of_open h, Res.andThen_ok, State.touched_a, State.setFlags_sub8_false]

theorem exec_cpi (d8 : Byte) (s : State) :
    exec (.cpi d8) s = .next { s with flags := Flags.ofResult (s.a - d8) (decide (s.a.toNat < d8.toNat)) } :=
  congrArg Host.Outcome.next (s.setFlags_sub8_false s.a d8)

/-- Z of a discarded difference compares for equality (41 R168). -/
theorem Flags.ofResult_sub_z_iff (a b : Byte) (c : Bool) : (Flags.ofResult (a - b) c).z = true ↔ a = b := by
  rw [Flags.ofResult_z, decide_eq_true_iff]
  exact sub_eq_zero

/-- Settles O20: the comparisons keep only the flags of the difference, whose Z says that it is 0. -/
theorem complementAndCompareRules : Obligations.ComplementAndCompareRules := by
  intro s src d8
  refine ⟨encodes_oneByte rfl, exec_cma s, exec_cma_complement s, encodes_cmp src, encodes_twoBytes d8 rfl,
    operandFetchFaults 0xFE, ?readable, ?unreadable, ?immediate⟩
  case readable => exact fun h => ⟨_, exec_cmp_of_open h, rfl, Flags.ofResult_sub_z_iff ..⟩
  case unreadable => exact fun h => readR8_andThen_of_not_open h _
  case immediate => exact ⟨_, exec_cpi d8 s, rfl, Flags.ofResult_sub_z_iff ..⟩

end Sys2Proof.Machine
end

