-- ==== Sys2Proof/Proofs/Rotate.lean ====
section
/-! PROOFS. The rotate instructions (spec 42 R181 to R184): each through carry as a shift that leaves a place
for CY, and each circular one as the rotate through carry whose incoming bit is the ejected one. -/

namespace Sys2Proof.Machine

/-! ## Shifts by one place -/

/-- The shift leaves bit 0 clear, so the bit brought in there adds to the shifted byte. -/
theorem shiftLeft_one_or_bit (a : Byte) (c : Bool) :
    a <<< 1 ||| BitVec.ofNat 8 c.toNat = BitVec.ofNat 8 (a.toNat * 2 % 256 + c.toNat) := by
  have c_lt : c.toNat < 2 ^ 1 := c.toNat_lt
  have disjoint := Nat.two_pow_add_eq_or_of_lt c_lt (a.toNat % 128)
  have shifted_eq : a.toNat * 2 ^ 1 % 2 ^ 8 = 2 ^ 1 * (a.toNat % 128) := by omega
  have bit_eq : (BitVec.ofNat 8 c.toNat).toNat = c.toNat := Nat.mod_eq_of_lt (by omega)
  apply BitVec.eq_of_toNat_eq
  rw [BitVec.toNat_or, BitVec.toNat_shiftLeft, Nat.shiftLeft_eq, shifted_eq, bit_eq, ← disjoint, BitVec.toNat_ofNat]
  omega

/-- The shift leaves bit 7 clear, so the bit brought in there adds to the shifted byte. -/
theorem ushiftRight_one_or_bit (a : Byte) (c : Bool) :
    a >>> 1 ||| BitVec.ofNat 8 (128 * c.toNat) = BitVec.ofNat 8 (a.toNat / 2 + c.toNat * 128) := by
  have c_le := c.toNat_le
  have half_lt : a.toNat / 2 < 2 ^ 7 := by omega
  have disjoint := Nat.two_pow_add_eq_or_of_lt half_lt c.toNat
  have bit_eq : (BitVec.ofNat 8 (128 * c.toNat)).toNat = 2 ^ 7 * c.toNat := Nat.mod_eq_of_lt (by omega)
  apply BitVec.eq_of_toNat_eq
  rw [BitVec.or_comm, BitVec.toNat_or, BitVec.toNat_ushiftRight, Nat.shiftRight_eq_div_pow, bit_eq, ← disjoint,
    BitVec.toNat_ofNat]
  omega

theorem ushiftRight_seven_eq (a : Byte) : a >>> 7 = BitVec.ofNat 8 (a.getLsbD 7).toNat := by
  have bit_eq : (a.getLsbD 7).toNat = a.toNat / 2 ^ 7 % 2 := Nat.toNat_testBit ..
  rw [bit_eq]
  bv_omega

theorem shiftLeft_seven_eq (a : Byte) : a <<< 7 = BitVec.ofNat 8 (128 * (a.getLsbD 0).toNat) := by
  have bit_eq : (a.getLsbD 0).toNat = a.toNat / 2 ^ 0 % 2 := Nat.toNat_testBit ..
  rw [bit_eq]
  bv_omega

/-! ## The four rotates -/

theorem rotateLeftThroughCarry_eq (a : Byte) (c : Bool) :
    rotateLeftThroughCarry a c = { value := a <<< 1 ||| BitVec.ofNat 8 c.toNat, carry := a.getLsbD 7 } := by
  rw [shiftLeft_one_or_bit, rotateLeftThroughCarry]

theorem rotateRightThroughCarry_eq (a : Byte) (c : Bool) :
    rotateRightThroughCarry a c =
      { value := a >>> 1 ||| BitVec.ofNat 8 (128 * c.toNat), carry := a.getLsbD 0 } := by
  rw [ushiftRight_one_or_bit, rotateRightThroughCarry]

/-- RLC is RAL with the ejected bit for the carry that comes in (42 R181, R183). -/
theorem rotateLeft_eq_throughCarry (a : Byte) : rotateLeft a = rotateLeftThroughCarry a (a.getLsbD 7) := rfl

/-- RRC is RAR with the ejected bit for the carry that comes in (42 R182, R184). -/
theorem rotateRight_eq_throughCarry (a : Byte) : rotateRight a = rotateRightThroughCarry a (a.getLsbD 0) := rfl

theorem rotateLeft_eq (a : Byte) : rotateLeft a = { value := a.rotateLeft 1, carry := a.getLsbD 7 } := by
  have parts : a.rotateLeft 1 = a <<< 1 ||| a >>> 7 := BitVec.rotateLeft_def
  rw [rotateLeft_eq_throughCarry, rotateLeftThroughCarry_eq, ← ushiftRight_seven_eq, parts]

theorem rotateRight_eq (a : Byte) : rotateRight a = { value := a.rotateRight 1, carry := a.getLsbD 0 } := by
  have parts : a.rotateRight 1 = a >>> 1 ||| a <<< 7 := BitVec.rotateRight_def
  rw [rotateRight_eq_throughCarry, rotateRightThroughCarry_eq, ← shiftLeft_seven_eq, parts]

/-! ## The instructions -/

theorem exec_rlc (s : State) : exec .rlc s = .next (s.withAlu (s.a.rotateLeft 1) (s.a.getLsbD 7)) :=
  congrArg Host.Outcome.next (congrArg s.setAlu (rotateLeft_eq s.a))

theorem exec_rrc (s : State) : exec .rrc s = .next (s.withAlu (s.a.rotateRight 1) (s.a.getLsbD 0)) :=
  congrArg Host.Outcome.next (congrArg s.setAlu (rotateRight_eq s.a))

theorem exec_ral (s : State) :
    exec .ral s = .next (s.withAlu (s.a <<< 1 ||| BitVec.ofNat 8 s.flags.cy.toNat) (s.a.getLsbD 7)) :=
  congrArg Host.Outcome.next (congrArg s.setAlu (rotateLeftThroughCarry_eq s.a s.flags.cy))

theorem exec_rar (s : State) :
    exec .rar s = .next (s.withAlu (s.a >>> 1 ||| BitVec.ofNat 8 (128 * s.flags.cy.toNat)) (s.a.getLsbD 0)) :=
  congrArg Host.Outcome.next (congrArg s.setAlu (rotateRightThroughCarry_eq s.a s.flags.cy))

/-- Settles O21: one next state per instruction, from the shift form of its rotate. -/
theorem rotateRules : Obligations.RotateRules :=
  ⟨encodes_oneByte rfl, encodes_oneByte rfl, encodes_oneByte rfl, encodes_oneByte rfl,
    fun s => ⟨exec_rlc s, exec_rrc s, exec_ral s, exec_rar s⟩⟩

end Sys2Proof.Machine
end

