-- ==== Sys2Proof/Proofs/DataMovement.lean ====
section
/-! PROOFS. The data movement instructions on an 8-bit operand, a pair and the accumulator (spec 43 R191 to R198,
R201 to R203): the moves, the loads and stores of A at an address, and the whole-pair loads and the exchange. -/

namespace Sys2Proof.Machine

theorem encodes_threeBytes {op : Byte} (b1 b2 : Byte) (length_eq : instrLength op = 3) :
    Encodes (decodeOp op b1 b2) [op, b1, b2] := by
  intro rest
  simp only [List.cons_append, List.nil_append, decode, length_eq]

/-! ## MOV -/

theorem instrLength_movByte (dst src : R8) : instrLength (BitVec.ofNat 8 (0x40 + 8 * dst.code + src.code)) = 1 := by
  cases dst <;> cases src <;> rfl

/-- Quadrant 1 holds a MOV in every slot but M,M, which is HLT's (30 R104). -/
theorem decodeOp_movByte {dst src : R8} (h : (dst, src) ≠ (R8.m, R8.m)) :
    decodeOp (BitVec.ofNat 8 (0x40 + 8 * dst.code + src.code)) 0 0 = .mov dst src := by
  cases dst
  case m =>
    cases src
    case m => exact absurd rfl h
    all_goals rfl
  all_goals cases src <;> rfl

theorem encodes_mov {dst src : R8} (h : (dst, src) ≠ (R8.m, R8.m)) :
    Encodes (.mov dst src) [BitVec.ofNat 8 (0x40 + 8 * dst.code + src.code)] := by
  rw [← decodeOp_movByte h]
  exact encodes_oneByte (instrLength_movByte dst src)

/-- Every MOV but the unencodable M,M is a read of the source and then a write of the destination. -/
theorem exec_mov {dst src : R8} (h : (dst, src) ≠ (R8.m, R8.m)) (s : State) :
    exec (.mov dst src) s = (readR8 src s).andThen fun v t => (writeR8 dst v t).done := by
  have not_both : ¬ (dst = .m ∧ src = .m) := fun both => h (Prod.ext both.1 both.2)
  rw [exec, execMov, if_neg not_both]

/-- The read of the source moves neither H:L nor MEM_SIZE, so the destination can be written after it exactly
when it could before. -/
theorem State.operandOpen_touched (s : State) (dst src : R8) :
    (s.touched src).operandOpen dst ↔ s.operandOpen dst := by
  cases src <;> exact Iff.rfl

theorem writeR8_of_not_open {s : State} {o : R8} (v : Byte) (h : ¬ s.operandOpen o) :
    writeR8 o v s = .fault (.outOfBounds .dataWrite s.hl.toNat s) := by
  obtain ⟨rfl, past⟩ := (s.not_operandOpen_iff o).1 h
  exact (memWrite_eq_fault ..).2 ⟨past, rfl⟩

theorem State.operandOpen_of_ne {s : State} {o : R8} (h : o ≠ .m) : s.operandOpen o := fun is_m => absurd is_m h

theorem State.touched_of_ne {s : State} {o : R8} (h : o ≠ .m) : s.touched o = s := if_neg h

theorem exec_mov_of_open {s : State} {dst src : R8} (h : (dst, src) ≠ (R8.m, R8.m)) (writable : s.operandOpen dst)
    (readable : s.operandOpen src) :
    exec (.mov dst src) s = .next ((s.touched src).withOperand dst (s.operand src)) := by
  have writable_after := (s.operandOpen_touched dst src).2 writable
  rw [exec_mov h, readR8_of_open readable, Res.andThen_ok, writeR8_of_open _ writable_after, Res.done_ok]

theorem exec_mov_of_source_not_open {s : State} {dst src : R8} (h : (dst, src) ≠ (R8.m, R8.m))
    (unreadable : ¬ s.operandOpen src) : exec (.mov dst src) s = .fault (.outOfBounds .dataRead s.hl.toNat s) := by
  rw [exec_mov h, readR8_andThen_of_not_open unreadable]

/-- A destination that cannot be written is M, so the source is a register, whose read leaves the state as it is. -/
theorem exec_mov_of_destination_not_open {s : State} {dst src : R8} (h : (dst, src) ≠ (R8.m, R8.m))
    (unwritable : ¬ s.operandOpen dst) : exec (.mov dst src) s = .fault (.outOfBounds .dataWrite s.hl.toNat s) := by
  obtain ⟨rfl, -⟩ := (s.not_operandOpen_iff dst).1 unwritable
  have register : src ≠ .m := fun is_m => h (Prod.ext rfl is_m)
  rw [exec_mov h, readR8_of_open (State.operandOpen_of_ne register), Res.andThen_ok, State.touched_of_ne register,
    writeR8_of_not_open _ unwritable, Res.done_fault]

/-! ## MVI -/

theorem encodes_mvi (dst : R8) (d8 : Byte) : Encodes (.mvi dst d8) [BitVec.ofNat 8 (0x06 + 8 * dst.code), d8] := by
  cases dst <;> exact encodes_twoBytes d8 rfl

theorem operandFetchFaults_mvi (dst : R8) : OperandFetchFaults (BitVec.ofNat 8 (0x06 + 8 * dst.code)) 2 := by
  cases dst <;> exact operandFetchFaults _

theorem exec_mvi (dst : R8) (d8 : Byte) (s : State) : exec (.mvi dst d8) s = (writeR8 dst d8 s).done := rfl

/-- Settles O22: MOV by which of its two operands is M outside memory, MVI by whether its one is. -/
theorem moveRules : Obligations.MoveRules := by
  intro s dst src d8
  refine ⟨?mov, encodes_mvi dst d8, operandFetchFaults_mvi dst, ?mviWritable, ?mviUnwritable⟩
  case mov =>
    exact fun h => ⟨encodes_mov h, exec_mov_of_open h, exec_mov_of_source_not_open h,
      exec_mov_of_destination_not_open h⟩
  case mviWritable =>
    intro writable
    rw [exec_mvi, writeR8_of_open d8 writable, Res.done_ok]
  case mviUnwritable =>
    intro unwritable
    rw [exec_mvi, writeR8_of_not_open d8 unwritable, Res.done_fault]

/-! ## LDA, STA, LDAX and STAX -/

/-- LDA and LDAX: a read into A. -/
theorem memRead_andThen_loadA {s : State} {addr : Word} (h : s.byteOpen addr) :
    ((memRead addr s).andThen fun v t => .next { t with a := v }) =
      .next { s with mar := addr, a := s.mem.read addr.toNat } := by
  rw [(memRead_eq_ok ..).2 ⟨h, rfl, rfl⟩, Res.andThen_ok]

theorem memRead_andThen_of_not_open {s : State} {addr : Word} (h : ¬ s.byteOpen addr) (k : Byte → State → Out) :
    (memRead addr s).andThen k = .fault (.outOfBounds .dataRead addr.toNat s) := by
  rw [(memRead_eq_fault ..).2 ⟨Nat.not_lt.1 h, rfl⟩, Res.andThen_fault]

theorem memWrite_done_of_open {s : State} {addr : Word} (v : Byte) (h : s.byteOpen addr) :
    (memWrite addr v s).done = .next { s with mar := addr, mem := s.mem.write addr.toNat v } := by
  rw [(memWrite_eq_ok addr v s _ ()).2 ⟨h, rfl⟩, Res.done_ok]

theorem memWrite_done_of_not_open {s : State} {addr : Word} (v : Byte) (h : ¬ s.byteOpen addr) :
    (memWrite addr v s).done = .fault (.outOfBounds .dataWrite addr.toNat s) := by
  rw [(memWrite_eq_fault ..).2 ⟨Nat.not_lt.1 h, rfl⟩, Res.done_fault]

/-- Settles O24: the direct and the indexed forms are the same access, at the operand and at the pair. -/
theorem accumulatorLoadStoreRules : Obligations.AccumulatorLoadStoreRules := by
  intro s lo hi rp
  refine ⟨encodes_threeBytes lo hi rfl, encodes_threeBytes lo hi rfl, operandFetchFaults 0x3A, operandFetchFaults 0x32,
    encodes_oneByte rfl, encodes_oneByte rfl, encodes_oneByte rfl, encodes_oneByte rfl,
    ?direct, ?directPast, ?indexed, ?indexedPast⟩
  case direct | indexed => exact fun h => ⟨memRead_andThen_loadA h, memWrite_done_of_open s.a h⟩
  case directPast | indexedPast =>
    exact fun h => ⟨memRead_andThen_of_not_open h _, memWrite_done_of_not_open s.a h⟩

/-! ## LXI, SPHL, PCHL and XCHG -/

theorem encodes_lxi (rp : Pair) (lo hi : Byte) :
    Encodes (.lxi rp (joinBytes hi lo)) [BitVec.ofNat 8 (0x01 + 8 * rp.code), lo, hi] := by
  cases rp <;> exact encodes_threeBytes lo hi rfl

theorem operandFetchFaults_lxi (rp : Pair) : OperandFetchFaults (BitVec.ofNat 8 (0x01 + 8 * rp.code)) 3 := by
  cases rp <;> exact operandFetchFaults _

theorem State.setBC_joinBytes (s : State) (hi lo : Byte) : s.setBC (joinBytes hi lo) = { s with b := hi, c := lo } := by
  rw [State.setBC, hiByte_joinBytes, loByte_joinBytes]

theorem State.setDE_joinBytes (s : State) (hi lo : Byte) : s.setDE (joinBytes hi lo) = { s with d := hi, e := lo } := by
  rw [State.setDE, hiByte_joinBytes, loByte_joinBytes]

theorem State.setHL_joinBytes (s : State) (hi lo : Byte) : s.setHL (joinBytes hi lo) = { s with h := hi, l := lo } := by
  rw [State.setHL, hiByte_joinBytes, loByte_joinBytes]

theorem exec_lxi (rp : Pair) (d16 : Word) (s : State) : exec (.lxi rp d16) s = .next (s.setPair rp d16) := rfl

theorem exec_xchg (s : State) : exec .xchg s = .next { s with d := s.h, e := s.l, h := s.d, l := s.e } := by
  rw [exec, execXchg, State.hl, State.de, State.setDE_joinBytes, State.setHL_joinBytes]

/-- Settles O23: each load of a pair splits the word it is given into the two bytes it was joined from. -/
theorem pairLoadRules : Obligations.PairLoadRules := by
  intro s lo hi
  refine ⟨fun rp => ⟨encodes_lxi rp lo hi, operandFetchFaults_lxi rp⟩, ?bc, ?de, ?hl, rfl,
    encodes_oneByte rfl, rfl, encodes_oneByte rfl, rfl, encodes_oneByte rfl, exec_xchg s⟩
  case bc => rw [exec_lxi, State.setPair, State.setBC_joinBytes]
  case de => rw [exec_lxi, State.setPair, State.setDE_joinBytes]
  case hl => rw [exec_lxi, State.setPair, State.setHL_joinBytes]

end Sys2Proof.Machine
end

