-- ==== Sys2Proof/Proofs/Branches.lean ====
section
/-! PROOFS. The branch instructions (spec 44 R222, R223, R226 to R228): the jumps, the returns and RST, with the
faults of the 16-bit push and pop they share with the other stack instructions. -/

namespace Sys2Proof.Machine

/-! ## The faults of the stack operations, for any meaning that passes them on -/

theorem popByte_of_past {s : State} (latch : (Config.topFaults s.cfg && s.spWrapped) = false)
    (past : s.cfg.memSize ≤ s.sp.toNat) : popByte s = .fault (.outOfBounds .stackRead s.sp.toNat s) :=
  (popByte_eq_fault ..).2 (.inr ⟨latch, past, rfl⟩)

/-- The faults of a pop are those of its two reads: the second is one from a state whose SP has gone up (44 R226). -/
theorem popFaults_of_pop16 {s : State} {o : Out} (passed_on : ∀ f, pop16 s = .fault f → o = .fault f) :
    PopFaults s o := by
  refine ⟨?firstRead, ?secondRead⟩
  case firstRead =>
    intro latch past
    exact passed_on _ ((pop16_eq_fault ..).2 (.inl (popByte_of_past latch past)))
  case secondRead =>
    intro latch first past
    rw [Bool.and_or_distrib_left, Bool.or_eq_false_iff] at latch
    obtain ⟨latch_first, latch_second⟩ := latch
    exact ⟨_, passed_on _ ((pop16_eq_fault ..).2 (.inr ⟨latch_first, first, popByte_of_past latch_second past⟩)),
      rfl, rfl, rfl, fun r => by cases r <;> rfl⟩

/-- The faults of a push: SP has nothing below it for the high byte, or for the low byte, or the high byte's
address is outside memory (45 R241). -/
theorem pushFaults_of_push16 {s : State} {v : Word} {o : Out}
    (passed_on : ∀ f, push16 v s = .fault f → o = .fault f) : PushFaults s v o := by
  refine ⟨?noRoom, ?roomForOne, ?outside⟩
  case noRoom =>
    intro sp_eq
    have high := (pushByte_eq_fault (hiByte v) s _).2 (.inl ⟨sp_eq, rfl⟩)
    exact ⟨s, passed_on _ ((push16_eq_fault ..).2 (.inl high)), sp_eq, rfl, rfl⟩
  case roomForOne =>
    intro sp_eq one_le
    have below : s.sp - 1 = 0 := by rw [sp_eq]; rfl
    have nonzero : s.sp ≠ 0 := by rw [sp_eq]; decide
    have inMemory : (s.sp - 1).toNat < s.cfg.memSize := by rw [below]; exact one_le
    refine ⟨_, passed_on _ ((push16_eq_fault ..).2 (.inr ⟨nonzero, inMemory,
      (pushByte_eq_fault ..).2 (.inl ⟨below, rfl⟩)⟩)), below, ?_, rfl⟩
    rw [below]
    rfl
  case outside =>
    intro two_le past
    have nonzero : s.sp ≠ 0 := by bv_omega
    have address : (s.sp - 1).toNat = s.sp.toNat - 1 := by bv_omega
    have high := (pushByte_eq_fault (hiByte v) s _).2 (.inr ⟨nonzero, by omega, rfl⟩)
    rw [address] at high
    exact ⟨_, passed_on _ ((push16_eq_fault ..).2 (.inl high)), rfl, rfl⟩

/-! ## The push of PC with a jump, and the pop of PC -/

theorem pushPCAndJump_done_of_open {s : State} (target : Word) (h : s.pushOpen) :
    (pushPCAndJump target s).done = .next ((s.afterPush s.pc).setPC target) :=
  (Res.done_eq_next ..).2 ((pushPCAndJump_eq_ok ..).2 ⟨h, rfl⟩)

theorem pushFaults_pushPCAndJump (target : Word) (s : State) : PushFaults s s.pc (pushPCAndJump target s).done :=
  pushFaults_of_push16 fun _ push => (Res.done_eq_fault ..).2 ((Res.bind_eq_fault ..).2 (.inl push))

theorem popPC_done_of_open {s : State} (h : s.popOpen) :
    (popPC s).done = .next (s.afterPop.setPC (s.wordAt s.sp)) :=
  (Res.done_eq_next ..).2 ((popPC_eq_ok ..).2 ⟨h, rfl⟩)

theorem popFaults_popPC (s : State) : PopFaults s (popPC s).done :=
  popFaults_of_pop16 fun _ pop => (Res.done_eq_fault ..).2 ((Res.bind_eq_fault ..).2 (.inl pop))

/-! ## The jumps -/

theorem exec_jmp (a16 : Word) (s : State) : exec (.jmp a16) s = .next (s.setPC a16) := rfl

theorem exec_condJump (cond : Cond) (a16 : Word) (s : State) : exec (condJump cond a16) s = jumpIf cond a16 s := by
  cases cond <;> rfl

theorem encodes_condJump (cond : Cond) (lo hi : Byte) :
    Encodes (condJump cond (joinBytes hi lo)) [BitVec.ofNat 8 (0xC2 + 8 * Cond.code cond), lo, hi] := by
  cases cond <;> exact encodes_threeBytes lo hi rfl

theorem operandFetchFaults_condJump (cond : Cond) : OperandFetchFaults (BitVec.ofNat 8 (0xC2 + 8 * Cond.code cond)) 3 := by
  cases cond <;> exact operandFetchFaults _

theorem exec_condJump_of_holds {s : State} {cond : Cond} (a16 : Word) (h : s.flags.holds cond = true) :
    exec (condJump cond a16) s = .next (s.setPC a16) := by
  rw [exec_condJump, jumpIf, if_pos h]

theorem exec_condJump_of_not_holds {s : State} {cond : Cond} (a16 : Word) (h : s.flags.holds cond = false) :
    exec (condJump cond a16) s = .next s := by
  rw [exec_condJump, jumpIf, h, if_neg Bool.false_ne_true]

/-- Settles O28: a taken jump is JMP's write of PC, and one not taken leaves the state the operand fetches left. -/
theorem jumpRules : Obligations.JumpRules := by
  intro s cond lo hi
  exact ⟨encodes_threeBytes lo hi rfl, encodes_threeBytes lo hi rfl, encodes_condJump cond lo hi,
    operandFetchFaults 0xC3, operandFetchFaults 0xCB, operandFetchFaults_condJump cond,
    exec_jmp _ s, exec_condJump_of_holds _, exec_condJump_of_not_holds _⟩

/-! ## The returns -/

theorem exec_ret (s : State) : exec .ret s = (popPC s).done := rfl

theorem exec_condReturn (cond : Cond) (s : State) : exec (condReturn cond) s = returnIf cond s := by
  cases cond <;> rfl

theorem encodes_condReturn (cond : Cond) : Encodes (condReturn cond) [BitVec.ofNat 8 (0xC0 + 8 * Cond.code cond)] := by
  cases cond <;> exact encodes_oneByte rfl

theorem exec_condReturn_of_holds {s : State} {cond : Cond} (h : s.flags.holds cond = true) :
    exec (condReturn cond) s = exec .ret s := by
  rw [exec_condReturn, returnIf, if_pos h, exec_ret]

theorem exec_condReturn_of_not_holds {s : State} {cond : Cond} (h : s.flags.holds cond = false) :
    exec (condReturn cond) s = .next s := by
  rw [exec_condReturn, returnIf, h, if_neg Bool.false_ne_true]

/-- Settles O30: RET is the pop of PC, and a taken conditional return is RET. -/
theorem returnRules : Obligations.ReturnRules := by
  intro s cond
  refine ⟨encodes_oneByte rfl, encodes_oneByte rfl, encodes_condReturn cond, popPC_done_of_open, popFaults_popPC s,
    ?taken, exec_condReturn_of_not_holds⟩
  case taken =>
    intro h
    rw [exec_condReturn_of_holds h]
    exact ⟨popPC_done_of_open, popFaults_popPC s⟩

/-! ## RST -/

theorem exec_rst (n : BitVec 3) (s : State) : exec (.rst n) s = (pushPCAndJump (restartAddr n) s).done := rfl

theorem instrLength_rstByte (n : BitVec 3) : instrLength (BitVec.ofNat 8 (0xC7 + 8 * n.toNat)) = 1 := by
  decide +revert

/-- The restart number is the field `y` of the first byte (30 R106). -/
theorem decodeOp_rstByte (n : BitVec 3) : decodeOp (BitVec.ofNat 8 (0xC7 + 8 * n.toNat)) 0 0 = .rst n := by
  decide +revert

theorem encodes_rst (n : BitVec 3) : Encodes (.rst n) [BitVec.ofNat 8 (0xC7 + 8 * n.toNat)] := by
  rw [← decodeOp_rstByte n]
  exact encodes_oneByte (instrLength_rstByte n)

/-- Settles O31: RST is the push of PC that CALL makes, with the jump to 8 × n. -/
theorem restartRule : Obligations.RestartRule := by
  intro s n
  rw [exec_rst]
  exact ⟨encodes_rst n, pushPCAndJump_done_of_open (restartAddr n), pushFaults_pushPCAndJump (restartAddr n) s⟩

end Sys2Proof.Machine
end

