-- ==== Sys2Proof/Proofs/Push.lean ====
section
/-! PROOFS. PUSH of a pair and of PSW (spec 45 R241, R242): its encoding, its faults, and each byte of memory
after it. -/

namespace Sys2Proof.Machine

/-! ## The instruction -/

theorem encodes_push (rp : StackPair) : Encodes (.push rp) [BitVec.ofNat 8 (0xC5 + 8 * rp.code)] := by
  cases rp <;> exact encodes_oneByte rfl

theorem exec_push (rp : StackPair) (s : State) : exec (.push rp) s = (push16 (s.stackPair rp) s).done := rfl

theorem pushFaults_exec_push (rp : StackPair) (s : State) : PushFaults s (s.stackPair rp) (exec (.push rp) s) := by
  rw [exec_push]
  exact pushFaults_of_push16 fun _ push => (Res.done_eq_fault ..).2 push

/-! ## Memory after a push -/

/-- The write of the low byte, at another address, leaves the high byte. -/
theorem State.read_afterPush_high (s : State) (v : Word) :
    (s.afterPush v).mem.read (s.sp - 1).toNat = hiByte v := by
  have low_ne_high : (s.sp - 2).toNat ≠ (s.sp - 1).toNat := by bv_omega
  rw [State.afterPush, Cells.read_write_ne _ _ low_ne_high, Cells.read_write_self]

theorem State.read_afterPush_low (s : State) (v : Word) :
    (s.afterPush v).mem.read (s.sp - 2).toNat = loByte v := by
  rw [State.afterPush, Cells.read_write_self]

theorem State.read_afterPush_of_ne {s : State} (v : Word) {addr : Nat} (ne_high : addr ≠ (s.sp - 1).toNat)
    (ne_low : addr ≠ (s.sp - 2).toNat) : (s.afterPush v).mem.read addr = s.mem.read addr := by
  rw [State.afterPush, Cells.read_write_ne _ _ ne_low.symm, Cells.read_write_ne _ _ ne_high.symm]

/-- Settles O32: PUSH leaves the state `afterPush`, whose memory holds the pair's two bytes and is otherwise the
old one. -/
theorem pushRules : Obligations.PushRules := by
  intro s rp
  refine ⟨encodes_push rp, pushFaults_exec_push rp s, fun room => ⟨_, exec_push_of_pushOpen rp room, rfl,
    ?high, ?low, fun _ => State.read_afterPush_of_ne _, rfl⟩⟩
  case high =>
    rw [State.read_afterPush_high]
    cases rp <;> exact hiByte_joinBytes ..
  case low =>
    rw [State.read_afterPush_low]
    cases rp <;> exact loByte_joinBytes ..

end Sys2Proof.Machine
end

