-- ==== Sys2Proof/Proofs/Control.lean ====
section
/-! PROOFS. The control instructions (spec 47 R265, R266, R269 to R271): the step at a first byte that is a whole
instruction, NOP's step at each of its eight bytes, and DI, STC and CMC. -/

namespace Sys2Proof.Machine

/-! ## A step at a one-byte instruction -/

theorem fetchOperands_one (s : State) : fetchOperands 1 s = .ok (0, 0) s := rfl

/-- One stream read fetches the whole instruction (30 R90, R92). -/
theorem fetchInstr_oneByte {s : State} {op : Byte} (found : s.fetchOpen) (opcode : s.mem.read s.pc.toNat = op)
    (mapped : dispatchMaps s.cfg op = true) (length_eq : instrLength op = 1) :
    fetchInstr s = .ok (decodeOp op 0 0) s.afterFetch := by
  have mapped_after : dispatchMaps s.afterFetch.cfg op = true := mapped
  rw [fetchInstr, fetchByte_of_open found, Res.bind_ok, opcode, if_pos mapped_after, length_eq, fetchOperands_one,
    Res.bind_ok]

theorem step_oneByte {s : State} {op : Byte} (running : s.halted = false) (found : s.fetchOpen)
    (opcode : s.mem.read s.pc.toNat = op) (mapped : dispatchMaps s.cfg op = true) (length_eq : instrLength op = 1) :
    step s = complete (decodeOp op 0 0) s.afterFetch (exec (decodeOp op 0 0) s.afterFetch) := by
  rw [step, running, if_neg Bool.false_ne_true, fetchInstr_oneByte found opcode mapped length_eq, Res.andThen_ok]

/-! ## NOP -/

theorem exec_nop (s : State) : exec .nop s = .next s := rfl

/-- NOP tests no condition, so its path is the taken one. -/
theorem cycleCost_nop (s : State) : cycleCost .nop s = (cycleEntry s.cfg .nop).taken := rfl

/-- 0x00 and the seven undefined bytes that alias it (47 R266) are whole instructions, each of them NOP. -/
theorem nopByte_length_and_decode : ∀ op ∈ ([0x00, 0x08, 0x10, 0x18, 0x20, 0x28, 0x30, 0x38] : List Byte),
    instrLength op = 1 ∧ decodeOp op 0 0 = .nop := by
  decide

/-- Completing NOP adds only the report to what its stream reads left (47 R265). -/
theorem complete_exec_nop (s : State) :
    complete .nop s (exec .nop s) = .next { s with report := .continuing (cycleEntry s.cfg .nop).taken } := by
  rw [exec_nop, complete, cycleCost_nop]

/-- Settles O39: each byte's step is the one of a one-byte instruction, and NOP keeps what the fetch left. -/
theorem nopRule : Obligations.NopRule := by
  intro s
  refine ⟨exec_nop s, fun op op_mem => ?_⟩
  obtain ⟨length_eq, decodes⟩ := nopByte_length_and_decode op op_mem
  refine ⟨?encoding, fun running found opcode mapped => ?step⟩
  case encoding =>
    rw [← decodes]
    exact encodes_oneByte length_eq
  case step =>
    rw [step_oneByte running found opcode mapped length_eq, decodes, complete_exec_nop]
    rfl

/-! ## DI, STC and CMC -/

theorem exec_di (s : State) : exec .di s = .next { s with inte := false } := rfl

theorem exec_stc (s : State) : exec .stc s = .next { s with flags := { s.flags with cy := true } } := rfl

theorem exec_cmc (s : State) : exec .cmc s = .next { s with flags := { s.flags with cy := !s.flags.cy } } := rfl

/-- Settles O40: the three bytes are whole instructions, and each meaning writes its one bit. -/
theorem flagControlRules : Obligations.FlagControlRules :=
  fun s => ⟨encodes_oneByte rfl, exec_di s, encodes_oneByte rfl, exec_stc s, encodes_oneByte rfl, exec_cmc s⟩

end Sys2Proof.Machine
end

