-- ==== Sys2Proof/Proofs/Codec.lean ====
section
/-! PROOFS. The decoder and the encoder (spec 30 R91 to R112): each inverts the other, the first byte tells the
length, and the twelve undefined bytes. -/

namespace Sys2Proof.Machine

/-! ## Decoding an encoding -/

/-- A 16-bit operand is read back from its two bytes, low byte first (30 R99). -/
theorem encodes_withWord {op : Byte} (make : Word → Instr) (v : Word) (length_eq : instrLength op = 3)
    (decodes : ∀ lo hi, decodeOp op lo hi = make (joinBytes hi lo)) : Encodes (make v) [op, loByte v, hiByte v] := by
  have operand_eq := decodes (loByte v) (hiByte v)
  rw [joinBytes_hiByte_loByte] at operand_eq
  rw [← operand_eq]
  exact encodes_threeBytes _ _ length_eq

theorem firstByte_rst (n : BitVec 3) : firstByte (.rst n) = BitVec.ofNat 8 (0xC7 + 8 * n.toNat) := by
  decide +revert

/-- The cases are the operand shapes: a register or a pair in the first byte, an immediate byte, a 16-bit operand,
and none. -/
theorem encodes_encode (i : Instr) (well_formed : i.wf = true) : Encodes i (encode i) := by
  cases i
  case mov dst src =>
    have not_both : (dst, src) ≠ (R8.m, R8.m) := by
      rintro ⟨⟩
      cases well_formed
    exact encodes_mov not_both
  case rst n =>
    rw [encode, firstByte_rst]
    exact encodes_rst n
  case mvi dst d8 =>
    rw [encode, firstByte]
    cases dst <;> exact encodes_twoBytes d8 rfl
  case lxi rp d16 =>
    rw [encode, firstByte]
    cases rp <;> exact encodes_withWord (.lxi _) d16 rfl fun _ _ => rfl
  case add o | adc o | sub o | sbb o | ana o | xra o | ora o | cmp o | inr o | dcr o =>
    cases o <;> exact encodes_oneByte rfl
  case dad rp | inx rp | dcx rp | ldax rp | stax rp | push rp | pop rp => cases rp <;> exact encodes_oneByte rfl
  case adi v | aci v | sui v | sbi v | ani v | xri v | ori v | cpi v | inp v | out v =>
    rw [encode, firstByte]
    exact encodes_twoBytes v rfl
  case lda a | sta a | lhld a | shld a | jmp a | jnz a | jz a | jnc a | jc a | jpo a | jpe a | jp a | jm a | call a |
      cnz a | cz a | cnc a | cc a | cpo a | cpe a | cp a | cm a =>
    rw [encode, firstByte]
    exact encodes_withWord _ a rfl fun _ _ => rfl
  all_goals exact encodes_oneByte rfl

/-- Settles O1: the bytes of every instruction but MOV M,M, by its operand shape. -/
theorem decodeEncodeRoundTrip : Obligations.DecodeEncodeRoundTrip :=
  fun i rest well_formed => encodes_encode i well_formed rest

/-! ## Encoding what was decoded -/

/-- What a byte sequence decodes to, by the length its first byte tells. -/
theorem decode_cons_eq_ok {op : Byte} {bytes rest : List Byte} {i : Instr} (h : decode (op :: bytes) = .ok (i, rest)) :
    ∃ b1 b2, i = decodeOp op b1 b2 ∧ bytes = [b1, b2].take (instrLength op - 1) ++ rest := by
  unfold decode at h
  simp only at h
  split at h
  case h_1 length_eq =>
    cases h
    exact ⟨0, 0, rfl, by rw [length_eq]; rfl⟩
  case h_2 length_eq =>
    cases h
    exact ⟨_, 0, rfl, by rw [length_eq]; rfl⟩
  case h_3 length_eq =>
    cases h
    exact ⟨_, _, rfl, by rw [length_eq]; rfl⟩
  case h_4 => cases h

theorem operandBytes_decodeOp_word (op : Byte) (w : Word) :
    operandBytes (decodeOp op (loByte w) (hiByte w)) = [loByte w, hiByte w].take (instrLength op - 1) := by
  unfold decodeOp instrLength
  rw [joinBytes_hiByte_loByte]
  generalize fieldX op = x, fieldY op = y, fieldZ op = z
  fin_cases x <;> fin_cases y <;> fin_cases z <;> rfl

/-- The decoder takes as many operand bytes into the instruction as the length tells (30 R100). -/
theorem operandBytes_decodeOp (op b1 b2 : Byte) :
    operandBytes (decodeOp op b1 b2) = [b1, b2].take (instrLength op - 1) := by
  have of_word := operandBytes_decodeOp_word op (joinBytes b2 b1)
  rwa [loByte_joinBytes, hiByte_joinBytes] at of_word

/-- The only instruction term that is not well formed is MOV M,M, whose slot in quadrant 1 is HLT's (30 R104). -/
theorem wf_decodeQuadrant1 (z y : Fin 8) : (decodeQuadrant1 z y).wf = true := by
  decide +revert

theorem wf_decodeOp (op b1 b2 : Byte) : (decodeOp op b1 b2).wf = true := by
  unfold decodeOp
  split
  · unfold decodeQuadrant0
    split <;> rfl
  · exact wf_decodeQuadrant1 ..
  · unfold decodeQuadrant2
    split <;> rfl
  · unfold decodeQuadrant3
    split <;> rfl

/-- The operand bytes do not reach the first byte of what is decoded. -/
theorem firstByte_decodeOp_zero (op b1 b2 : Byte) : firstByte (decodeOp op b1 b2) = firstByte (decodeOp op 0 0) := by
  unfold decodeOp
  split
  · unfold decodeQuadrant0
    split <;> rfl
  · rfl
  · rfl
  · unfold decodeQuadrant3
    split <;> rfl

theorem firstByte_decodeOp_of_defined : ∀ op : Byte, op ∉ undefinedBytes → firstByte (decodeOp op 0 0) = op := by
  decide

/-- Settles O2: the first byte comes back from the 256 slots of the opcode map, the operand bytes from the length. -/
theorem encodeDecodeRoundTrip : Obligations.EncodeDecodeRoundTrip := by
  intro op bytes rest i decoded
  obtain ⟨b1, b2, rfl, rfl⟩ := decode_cons_eq_ok decoded
  refine ⟨wf_decodeOp op b1 b2, fun defined => ?_⟩
  rw [encode, operandBytes_decodeOp, firstByte_decodeOp_zero, firstByte_decodeOp_of_defined op defined,
    List.cons_append]

/-! ## The length, the undefined bytes and some words -/

/-- Settles O3: the classes of 30 R100 are the three lengths, and a decoded instruction leaves what its length
leaves. -/
theorem lengthFromFirstByte : Obligations.LengthFromFirstByte := by
  intro op b1 b2 rest x y z three two
  have length_eq : (three → instrLength op = 3) ∧ (two → instrLength op = 2) ∧
      (¬ three → ¬ two → instrLength op = 1) := by
    clear b1 b2 rest
    decide +revert
  obtain ⟨of_three, of_two, of_neither⟩ := length_eq
  exact ⟨fun h => ⟨_, encodes_threeBytes b1 b2 (of_three h) rest⟩,
    fun h => ⟨_, encodes_twoBytes b1 (of_two h) (b2 :: rest)⟩,
    fun h h' => ⟨_, encodes_oneByte (of_neither h h') (b1 :: b2 :: rest)⟩⟩

/-- Settles O4: the slots of the undefined bytes hold the instructions they stand for. -/
theorem undefinedBytesAreAliases : Obligations.UndefinedBytesAreAliases := by
  refine ⟨?nop, encodes_oneByte rfl, fun lo hi => encodes_threeBytes lo hi rfl, ?call⟩
  case nop =>
    intro op op_mem
    obtain ⟨length_eq, decodes⟩ := nopByte_length_and_decode op (List.mem_cons_of_mem _ op_mem)
    rw [← decodes]
    exact encodes_oneByte length_eq
  case call =>
    intro op op_mem lo hi
    fin_cases op_mem <;> exact encodes_threeBytes lo hi rfl

/-- Settles O5: each word is decoded by evaluation. -/
theorem knownWordsDecode : Obligations.KnownWordsDecode :=
  ⟨rfl, rfl, rfl, rfl, rfl, rfl, rfl, rfl, rfl, rfl, rfl, rfl⟩

end Sys2Proof.Machine
end

