-- ==== Sys2Proof/Proofs/Completion.lean ====
section
/-! PROOFS. What an instruction's meaning answers when it answers a next state: exactly when it does, and which
state it is. The frames, the invariant and the noninterference rules are read off these two. -/

namespace Sys2Proof.Machine

/-! ## The condition and the state -/

/-- When the meaning of an instruction answers a next state: its accesses find their bytes, its push or pop, if its
condition lets one happen, its two bytes, and its port number a cell. -/
def Completes (i : Instr) (s : State) : Prop :=
  match i with
  | .add o | .adc o | .sub o | .sbb o | .ana o | .xra o | .ora o | .cmp o | .inr o | .dcr o | .mvi o _ => s.operandOpen o
  | .mov dst src => (dst, src) ≠ (.m, .m) ∧ s.operandOpen src ∧ s.operandOpen dst
  | .lda a | .sta a => s.byteOpen a
  | .ldax rp | .stax rp => s.byteOpen (s.indexPair rp)
  | .lhld a | .shld a => s.wordOpen a
  | .xthl => s.wordOpen s.sp
  | .call _ | .rst _ | .push _ => s.pushOpen
  | .cnz _ | .cz _ | .cnc _ | .cc _ | .cpo _ | .cpe _ | .cp _ | .cm _ => Instr.taken i s.flags = true → s.pushOpen
  | .ret | .pop _ => s.popOpen
  | .rnz | .rz | .rnc | .rc | .rpo | .rpe | .rp | .rm => Instr.taken i s.flags = true → s.popOpen
  | .inp p | .out p => p.toNat < s.cfg.nPorts
  | .adi _ | .aci _ | .sui _ | .sbi _ | .ani _ | .xri _ | .ori _ | .cpi _ | .dad _ | .inx _ | .dcx _ | .daa => True
  | .cma | .rlc | .rrc | .ral | .rar | .lxi _ _ | .sphl | .pchl | .xchg => True
  | .jmp _ | .jnz _ | .jz _ | .jnc _ | .jc _ | .jpo _ | .jpe _ | .jp _ | .jm _ => True
  | .nop | .hlt | .ei | .di | .stc | .cmc => True

/-- The next state of an instruction that completes. -/
def stateAfter (i : Instr) (s : State) : State :=
  match i with
  | .add o => (s.touched o).setAlu (add8 s.a (s.operand o) false)
  | .adc o => (s.touched o).setAlu (add8 s.a (s.operand o) s.flags.cy)
  | .adi v => s.setAlu (add8 s.a v false)
  | .aci v => s.setAlu (add8 s.a v s.flags.cy)
  | .sub o => (s.touched o).setAlu (sub8 s.a (s.operand o) false)
  | .sbb o => (s.touched o).setAlu (sub8 s.a (s.operand o) s.flags.cy)
  | .sui v => s.setAlu (sub8 s.a v false)
  | .sbi v => s.setAlu (sub8 s.a v s.flags.cy)
  | .inr o => { s.withOperand o (s.operand o + 1) with
      flags := s.flags.afterIncDec s.cfg (s.operand o + 1) (decide (s.operand o = 0xFF)) }
  | .dcr o => { s.withOperand o (s.operand o - 1) with
      flags := s.flags.afterIncDec s.cfg (s.operand o - 1) (decide (s.operand o = 0x00)) }
  | .dad rp => { s.setHL (s.hl + s.pair rp) with
      flags := { s.flags with cy := decide (0xFFFF < s.hl.toNat + (s.pair rp).toNat) } }
  | .inx rp => s.setPair rp (s.pair rp + 1)
  | .dcx rp => s.setPair rp (s.pair rp - 1)
  | .daa => { s with a := daaValue s.a, flags := daaFlags s.cfg s.a s.flags }
  | .ana o => (s.touched o).setAlu { value := s.a &&& s.operand o, carry := false }
  | .ani v => s.setAlu { value := s.a &&& v, carry := false }
  | .xra o => (s.touched o).setAlu { value := s.a ^^^ s.operand o, carry := false }
  | .xri v => s.setAlu { value := s.a ^^^ v, carry := false }
  | .ora o => (s.touched o).setAlu { value := s.a ||| s.operand o, carry := false }
  | .ori v => s.setAlu { value := s.a ||| v, carry := false }
  | .cma => { s with a := s.a ^^^ 0xFF }
  | .cmp o => (s.touched o).setFlags (sub8 s.a (s.operand o) false).value (sub8 s.a (s.operand o) false).carry
  | .cpi v => s.setFlags (sub8 s.a v false).value (sub8 s.a v false).carry
  | .rlc => s.setAlu (rotateLeft s.a)
  | .rrc => s.setAlu (rotateRight s.a)
  | .ral => s.setAlu (rotateLeftThroughCarry s.a s.flags.cy)
  | .rar => s.setAlu (rotateRightThroughCarry s.a s.flags.cy)
  | .mov dst src => (s.touched src).withOperand dst (s.operand src)
  | .mvi dst v => s.withOperand dst v
  | .lxi rp v => s.setPair rp v
  | .lda a => { s with mar := a, a := s.mem.read a.toNat }
  | .sta a => { s with mar := a, mem := s.mem.write a.toNat s.a }
  | .ldax rp => { s with mar := s.indexPair rp, a := s.mem.read (s.indexPair rp).toNat }
  | .stax rp => { s with mar := s.indexPair rp, mem := s.mem.write (s.indexPair rp).toNat s.a }
  | .lhld a => { s with mar := a + 1, l := s.mem.read a.toNat, h := s.mem.read (a + 1).toNat }
  | .shld a => { s with mar := a + 1, mem := (s.mem.write a.toNat s.l).write (a + 1).toNat s.h }
  | .sphl => s.setSP s.hl
  | .pchl => s.setPC s.hl
  | .xchg => (s.setDE s.hl).setHL s.de
  | .xthl => { s with
      mar := s.sp + 1, l := s.mem.read s.sp.toNat, h := s.mem.read (s.sp + 1).toNat,
      mem := (s.mem.write s.sp.toNat s.l).write (s.sp + 1).toNat s.h }
  | .jmp a => s.setPC a
  | .jnz a | .jz a | .jnc a | .jc a | .jpo a | .jpe a | .jp a | .jm a =>
    if Instr.taken i s.flags then s.setPC a else s
  | .call a => (s.afterPush s.pc).setPC a
  | .cnz a | .cz a | .cnc a | .cc a | .cpo a | .cpe a | .cp a | .cm a =>
    if Instr.taken i s.flags then (s.afterPush s.pc).setPC a else s
  | .ret => s.afterPop.setPC (s.wordAt s.sp)
  | .rnz | .rz | .rnc | .rc | .rpo | .rpe | .rp | .rm =>
    if Instr.taken i s.flags then s.afterPop.setPC (s.wordAt s.sp) else s
  | .rst n => (s.afterPush s.pc).setPC (restartAddr n)
  | .push rp => s.afterPush (s.stackPair rp)
  | .pop rp => s.afterPop.setStackPair rp (s.wordAt s.sp)
  | .inp p => { s with a := s.ports.read p.toNat }
  | .out p => if p ∈ s.cfg.outIgnoredPorts then s else { s with ports := s.ports.write p.toNat s.a }
  | .nop => s
  | .hlt => { s with halted := true }
  | .ei => { s with inte := true }
  | .di => { s with inte := false }
  | .stc => { s with flags := { s.flags with cy := true } }
  | .cmc => { s with flags := { s.flags with cy := !s.flags.cy } }

/-! ## The shapes of a meaning -/

theorem next_eq_next (s t : State) : (Host.Outcome.next s : Out) = .next t ↔ True ∧ t = s := by
  rw [Host.Outcome.next.injEq, true_and, eq_comm]

/-- A meaning whose first operation succeeds exactly under `p`, and which then always completes. -/
theorem Res.andThen_eq_next_of_ok_iff {α : Type} {r : Res α} {p : Prop} {x : α} {u t' : State} {k : α → State → Out}
    (ok_iff : ∀ y v, r = .ok y v ↔ p ∧ y = x ∧ v = u) (completes : p → k x u = .next t') (t : State) :
    r.andThen k = .next t ↔ p ∧ t = t' := by
  rw [Res.andThen_eq_next]
  constructor
  · rintro ⟨y, v, succeeds, next⟩
    obtain ⟨h, rfl, rfl⟩ := (ok_iff y v).1 succeeds
    rw [completes h] at next
    exact ⟨h, by injection next with eq; exact eq.symm⟩
  · rintro ⟨h, rfl⟩
    exact ⟨x, u, (ok_iff x u).2 ⟨h, rfl, rfl⟩, completes h⟩

theorem ite_eq_next {c : Prop} [Decidable c] {o : Out} {p : Prop} {s s' t : State} (taken : o = .next t ↔ p ∧ t = s') :
    (if c then o else .next s) = .next t ↔ (c → p) ∧ t = if c then s' else s := by
  by_cases h : c
  · simp only [h, if_true, true_imp_iff, taken]
  · simp only [h, if_false, false_imp_iff, next_eq_next]

theorem memWrite_done_eq_next (addr : Word) (v : Byte) (s t : State) :
    (memWrite addr v s).done = .next t ↔
      s.byteOpen addr ∧ t = { s with mar := addr, mem := s.mem.write addr.toNat v } := by
  rw [Res.done_eq_next, memWrite_eq_ok, State.byteOpen]

theorem writeR8_done_eq_next (o : R8) (v : Byte) (s t : State) :
    (writeR8 o v s).done = .next t ↔ s.operandOpen o ∧ t = s.withOperand o v := by
  rw [Res.done_eq_next, writeR8_eq_ok]

theorem pushPCAndJump_done_eq_next (target : Word) (s t : State) :
    (pushPCAndJump target s).done = .next t ↔ s.pushOpen ∧ t = (s.afterPush s.pc).setPC target := by
  rw [Res.done_eq_next, pushPCAndJump_eq_ok]

theorem popPC_done_eq_next (s t : State) :
    (popPC s).done = .next t ↔ s.popOpen ∧ t = s.afterPop.setPC (s.wordAt s.sp) := by
  rw [Res.done_eq_next, popPC_eq_ok]

theorem selectPort_eq_ok (p : Byte) (s t : State) (k : Nat) :
    selectPort p s = .ok k t ↔ p.toNat < s.cfg.nPorts ∧ k = p.toNat ∧ t = s := by
  unfold selectPort
  split <;> simp [eq_comm] <;> omega

/-! ## The meanings of more than one access -/

/-- INR and DCR write the operand they read, so the write finds it too. -/
theorem readR8_andThen_writeR8_eq_next (o : R8) (s t : State) (v : Byte → Byte) (f : Byte → Flags → Config → Flags) :
    ((readR8 o s).andThen fun b u => (writeR8 o (v b) u).andThen fun _ w =>
      .next { w with flags := f b w.flags w.cfg }) = .next t ↔
      s.operandOpen o ∧
        t = { s.withOperand o (v (s.operand o)) with flags := f (s.operand o) s.flags s.cfg } := by
  refine Res.andThen_eq_next_of_ok_iff (fun b u => readR8_eq_ok o s u b) (fun h => ?_) t
  rw [writeR8_of_open _ ((s.operandOpen_touched o o).2 h), Res.andThen_ok]
  cases o <;> rfl

theorem exec_mov_eq_next (dst src : R8) (s t : State) :
    exec (.mov dst src) s = .next t ↔
      ((dst, src) ≠ (R8.m, R8.m) ∧ s.operandOpen src ∧ s.operandOpen dst) ∧
        t = (s.touched src).withOperand dst (s.operand src) := by
  by_cases both : (dst, src) = (R8.m, R8.m)
  · cases both
    simp [exec, execMov]
  · rw [exec_mov both, Res.andThen_eq_next]
    simp [readR8_eq_ok, writeR8_done_eq_next, State.operandOpen_touched, both, and_assoc]

theorem exec_lhld_eq_next (a16 : Word) (s t : State) :
    exec (.lhld a16) s = .next t ↔ s.wordOpen a16 ∧
      t = { s with mar := a16 + 1, l := s.mem.read a16.toNat, h := s.mem.read (a16 + 1).toNat } := by
  simp only [exec, execLhld, Res.andThen_eq_next, memRead_eq_ok, nextAddr_eq_ok]
  constructor
  · rintro ⟨_, _, ⟨first, rfl, rfl⟩, _, _, ⟨policy, rfl, rfl⟩, _, _, ⟨second, rfl, rfl⟩, ⟨⟩⟩
    exact ⟨⟨first, second, policy⟩, rfl⟩
  · rintro ⟨⟨first, second, policy⟩, rfl⟩
    exact ⟨_, _, ⟨first, rfl, rfl⟩, _, _, ⟨policy, rfl, rfl⟩, _, _, ⟨second, rfl, rfl⟩, rfl⟩

theorem exec_shld_eq_next (a16 : Word) (s t : State) :
    exec (.shld a16) s = .next t ↔ s.wordOpen a16 ∧
      t = { s with mar := a16 + 1, mem := (s.mem.write a16.toNat s.l).write (a16 + 1).toNat s.h } := by
  simp only [exec, execShld, Res.done_eq_next, memWrite16_eq_ok, State.hl, loByte_joinBytes, hiByte_joinBytes]

theorem exec_xthl_eq_next (s t : State) :
    exec .xthl s = .next t ↔ s.wordOpen s.sp ∧
      t = { s with
        mar := s.sp + 1, l := s.mem.read s.sp.toNat, h := s.mem.read (s.sp + 1).toNat,
        mem := (s.mem.write s.sp.toNat s.l).write (s.sp + 1).toNat s.h } := by
  refine Res.andThen_eq_next_of_ok_iff (fun v u => memRead16_eq_ok s.sp v s u) (fun h => ?_) t
  have written := (memWrite16_eq_ok s.sp s.hl { s with mar := s.sp + 1 } _ ()).2 ⟨h, rfl⟩
  change (memWrite16 s.sp s.hl { s with mar := s.sp + 1 }).andThen _ = _
  rw [written, Res.andThen_ok, State.wordAt, State.setHL_joinBytes, State.hl, loByte_joinBytes, hiByte_joinBytes]

theorem exec_out_eq_next (p8 : Byte) (s t : State) :
    exec (.out p8) s = .next t ↔ p8.toNat < s.cfg.nPorts ∧
      t = if p8 ∈ s.cfg.outIgnoredPorts then s else { s with ports := s.ports.write p8.toNat s.a } := by
  refine Res.andThen_eq_next_of_ok_iff (fun k u => selectPort_eq_ok p8 s u k) (fun _ => ?_) t
  simp only [List.contains_iff_mem]
  split <;> rfl

/-! ## Completion -/

/-- An instruction answers a next state exactly when it completes, and it is `stateAfter`. -/
theorem exec_eq_next (i : Instr) (s t : State) : exec i s = .next t ↔ Completes i s ∧ t = stateAfter i s := by
  cases i
  case add o | adc o | sub o | sbb o | ana o | xra o | ora o | cmp o =>
    exact Res.andThen_eq_next_of_ok_iff (fun v u => readR8_eq_ok o s u v) (fun _ => by cases o <;> rfl) t
  case inr o =>
    exact readR8_andThen_writeR8_eq_next o s t (· + 1) fun b f cfg => f.afterIncDec cfg (b + 1) (decide (b = 0xFF))
  case dcr o =>
    exact readR8_andThen_writeR8_eq_next o s t (· - 1) fun b f cfg => f.afterIncDec cfg (b - 1) (decide (b = 0x00))
  case dad rp =>
    rw [exec_dad]
    exact next_eq_next ..
  case mov dst src => exact exec_mov_eq_next dst src s t
  case mvi dst v => exact writeR8_done_eq_next dst v s t
  case lda | ldax =>
    exact Res.andThen_eq_next_of_ok_iff (fun v u => memRead_eq_ok _ s u v) (fun _ => rfl) t
  case sta | stax => exact memWrite_done_eq_next ..
  case lhld a => exact exec_lhld_eq_next a s t
  case shld a => exact exec_shld_eq_next a s t
  case xthl => exact exec_xthl_eq_next s t
  case jnz | jz | jnc | jc | jpo | jpe | jp | jm =>
    exact (ite_eq_next (next_eq_next ..)).trans (and_congr_left' (by rw [imp_true_iff]; rfl))
  case call | rst => exact pushPCAndJump_done_eq_next ..
  case cnz | cz | cnc | cc | cpo | cpe | cp | cm => exact ite_eq_next (pushPCAndJump_done_eq_next ..)
  case ret => exact popPC_done_eq_next s t
  case rnz | rz | rnc | rc | rpo | rpe | rp | rm => exact ite_eq_next (popPC_done_eq_next ..)
  case push rp => exact (Res.done_eq_next ..).trans (push16_eq_ok ..)
  case pop rp => exact Res.andThen_eq_next_of_ok_iff (fun v u => pop16_eq_ok s u v) (fun _ => rfl) t
  case inp p => exact Res.andThen_eq_next_of_ok_iff (fun k u => selectPort_eq_ok p s u k) (fun _ => rfl) t
  case out p => exact exec_out_eq_next p s t
  all_goals exact next_eq_next ..

theorem exec_of_completes {i : Instr} {s : State} (h : Completes i s) : exec i s = .next (stateAfter i s) :=
  (exec_eq_next ..).2 ⟨h, rfl⟩

end Sys2Proof.Machine
end

