-- ==== Sys2Proof/Proofs/Stepping.lean ====
section
/-! PROOFS. One activation of the block (spec 30 R90, R92): what the fetch of an instruction answers, by the bytes at
PC, and what a step answers when it answers a next state. -/

namespace Sys2Proof

theorem instrLength_pos (op : Byte) : 1 ≤ instrLength op := by
  unfold instrLength
  split
  case h_1 | h_2 | h_10 => split <;> decide
  all_goals decide

theorem instrLength_cases (op : Byte) : instrLength op = 1 ∨ instrLength op = 2 ∨ instrLength op = 3 := by
  have pos := instrLength_pos op
  have le_three := instrLength_le_three op
  omega

end Sys2Proof

namespace Sys2Proof.Machine

/-! ## The stream -/

/-- Stream reads reach no field but PC, its note and MAR (00 R11). -/
theorem State.afterFetches_eq (n : Nat) (s : State) :
    s.afterFetches n = { s with
      mar := (s.afterFetches n).mar, pc := (s.afterFetches n).pc, pcWrapped := (s.afterFetches n).pcWrapped } := by
  induction n generalizing s with
  | zero => rfl
  | succ n ih =>
    rw [State.afterFetches, ih s.afterFetch]
    rfl

theorem State.length_streamBytes (n : Nat) (s : State) : (s.streamBytes n).length = n := by
  induction n generalizing s with
  | zero => rfl
  | succ n ih => rw [State.streamBytes, List.length_cons, ih]

/-! ## The fetch of an instruction -/

/-- The number of bytes that the byte at PC tells (30 R100). -/
def State.nextLength (s : State) : Nat := instrLength (s.mem.read s.pc.toNat)

/-- The operand fetches succeed exactly when every byte the length asks for is there; they give what the first byte and
those bytes decode to. -/
theorem fetchOperands_decodeOp_eq_ok (op : Byte) (s u : State) (i : Instr) :
    ((fetchOperands (instrLength op) s).bind fun b t => .ok (decodeOp op b.1 b.2) t) = .ok i u ↔
      s.streamOpen (instrLength op - 1) ∧ decode (op :: s.streamBytes (instrLength op - 1)) = .ok (i, []) ∧
        u = s.afterFetches (instrLength op - 1) := by
  obtain length_eq | length_eq | length_eq := instrLength_cases op
  all_goals
    simp [decode, length_eq, fetchOperands, State.streamOpen, State.streamBytes, State.afterFetches,
      Res.bind_eq_ok, fetchByte_eq_ok, and_assoc, @eq_comm _ u]

/-- The fetch succeeds exactly when DISPATCH maps the first byte and every byte its length asks for is there; it
answers what those bytes decode to, and the state after the reads. -/
theorem fetchInstr_eq_ok (s u : State) (i : Instr) :
    fetchInstr s = .ok i u ↔
      dispatchMaps s.cfg (s.mem.read s.pc.toNat) = true ∧ s.streamOpen s.nextLength ∧
        decode (s.streamBytes s.nextLength) = .ok (i, []) ∧ u = s.afterFetches s.nextLength := by
  unfold State.nextLength
  generalize opcode : s.mem.read s.pc.toNat = op
  obtain ⟨n, length_eq⟩ := Nat.exists_eq_add_of_le' (instrLength_pos op)
  have operands := fetchOperands_decodeOp_eq_ok op s.afterFetch u i
  rw [length_eq, Nat.add_sub_cancel] at operands
  rw [length_eq, State.streamOpen, State.streamBytes, State.afterFetches, opcode, fetchInstr]
  by_cases found : s.fetchOpen
  case neg => simp [Res.bind_eq_ok, fetchByte_eq_ok, found]
  by_cases mapped : dispatchMaps s.cfg op = true
  case neg => simp [fetchByte_of_open found, opcode, State.afterFetch, mapped]
  have mapped_after : dispatchMaps s.afterFetch.cfg op = true := mapped
  rw [fetchByte_of_open found, Res.bind_ok, opcode, if_pos mapped_after, length_eq, operands]
  simp only [mapped, found, true_and]

theorem complete_eq_next (i : Instr) (u t : State) (o : Out) :
    complete i u o = .next t ↔ ∃ v, o = .next v ∧ t = { v with report := .continuing (cycleCost i u) } := by
  cases o <;> simp [complete, @eq_comm _ t]

theorem complete_exec_eq_next (i : Instr) (u t : State) :
    complete i u (exec i u) = .next t ↔
      Completes i u ∧ t = { stateAfter i u with report := .continuing (cycleCost i u) } := by
  rw [complete_eq_next]
  constructor
  · rintro ⟨v, runs, rfl⟩
    obtain ⟨completes, rfl⟩ := (exec_eq_next ..).1 runs
    exact ⟨completes, rfl⟩
  · rintro ⟨completes, rfl⟩
    exact ⟨_, exec_of_completes completes, rfl⟩

/-- The step's two ways to answer a next state: HALTED = 1, and the fetch and the meaning of an instruction. -/
theorem step_eq_next (s t : State) :
    step s = .next t ↔
      (s.halted = true ∧ t = { s with report := .halted }) ∨
      (s.halted = false ∧ ∃ i u, fetchInstr s = .ok i u ∧ Completes i u ∧
        t = { stateAfter i u with report := .continuing (cycleCost i u) }) := by
  rw [step]
  by_cases halted : s.halted = true
  · rw [if_pos halted, reportHalted, next_eq_next]
    simp only [halted, Bool.true_eq_false, false_and, or_false]
  · rw [if_neg halted, Res.andThen_eq_next]
    simp only [complete_exec_eq_next, Bool.eq_false_iff.2 halted, Bool.false_eq_true, false_and, false_or, true_and]

/-! ## Statements about the step -/

/-- Settles O6: bytes that decode to an instruction and to nothing more are as many as the first of them tells. -/
theorem stepRunsDecodedInstruction : Obligations.StepRunsDecodedInstruction := by
  intro s i running mapped found decoded
  have length_eq : i.length = s.nextLength := by
    obtain ⟨n, length_succ⟩ : ∃ n, i.length = n + 1 := ⟨_, List.length_cons⟩
    rw [length_succ, State.streamBytes] at decoded
    obtain ⟨b1, b2, -, bytes_eq⟩ := decode_cons_eq_ok decoded
    have count := congrArg List.length bytes_eq
    have cases_eq := instrLength_cases (s.mem.read s.pc.toNat)
    simp only [List.append_nil, State.length_streamBytes, List.length_take, List.length_cons, List.length_nil] at count
    rw [State.nextLength]
    omega
  rw [length_eq] at found decoded ⊢
  rw [step, running, if_neg Bool.false_ne_true, (fetchInstr_eq_ok ..).2 ⟨mapped, found, decoded, rfl⟩, Res.andThen_ok]

/-- Settles O7: the first test of the step. -/
theorem haltedStepChangesNothing : Obligations.HaltedStepChangesNothing :=
  fun _ halted => (step_eq_next ..).2 (.inl ⟨halted, rfl⟩)

end Sys2Proof.Machine
end

