-- ==== Sys2Proof/Proofs/Frames.lean ====
section
/-! PROOFS. What an instruction that completes leaves unchanged: general registers, flags, pointers, control bits and
ports, memory (spec 10 R20, R29, R33, R39 to R41; 20 R61; 44 R229). Each frame is a case split over the instructions
by the update that `stateAfter` makes. -/

namespace Sys2Proof.Machine

/-! ## The updates by operand -/

theorem State.touched_eq (s : State) (o : R8) : s.touched o = { s with mar := if o = .m then s.hl else s.mar } := by
  cases o <;> rfl

/-- The replacement of an operand reaches no field but the registers, memory and MAR. -/
theorem State.withOperand_eq (s : State) (o : R8) (v : Byte) :
    s.withOperand o v = { s with
      a := (s.withOperand o v).a, b := (s.withOperand o v).b, c := (s.withOperand o v).c, d := (s.withOperand o v).d,
      e := (s.withOperand o v).e, h := (s.withOperand o v).h, l := (s.withOperand o v).l,
      mem := (s.withOperand o v).mem, mar := (s.withOperand o v).mar } := by
  cases o <;> rfl

/-! ## General registers -/

theorem State.reg_withA (s : State) (v : Byte) (f : Flags) (m : Word) {r : RegName} (other : r ∉ [RegName.a]) :
    ({ s with a := v, flags := f, mar := m } : State).reg r = s.reg r := by
  cases r
  case a => exact absurd (List.mem_singleton_self _) other
  all_goals rfl

theorem State.reg_withHL (s : State) (v w : Byte) (f : Flags) (m : Word) (mem : Cells) {r : RegName}
    (other : r ∉ [RegName.h, RegName.l]) :
    ({ s with h := v, l := w, flags := f, mar := m, mem := mem } : State).reg r = s.reg r := by
  cases r
  case h | l => simp at other
  all_goals rfl

theorem State.reg_withDEHL (s : State) (d e h l : Byte) {r : RegName}
    (other : r ∉ [RegName.d, RegName.e, RegName.h, RegName.l]) :
    ({ s with d := d, e := e, h := h, l := l } : State).reg r = s.reg r := by
  cases r
  case d | e | h | l => simp at other
  all_goals rfl

theorem State.reg_withOperand (s : State) (o : R8) (v : Byte) {r : RegName} (other : r ∉ R8.regs o) :
    (s.withOperand o v).reg r = s.reg r := by
  cases o
  case m => rfl
  all_goals
    simp only [R8.regs, List.mem_singleton] at other
    cases r <;> simp_all [State.withOperand, State.reg]

theorem State.reg_setPair (s : State) (rp : Pair) (v : Word) {r : RegName} (other : r ∉ Pair.regs rp) :
    (s.setPair rp v).reg r = s.reg r := by
  cases rp
  case sp => rfl
  all_goals
    simp only [Pair.regs, List.mem_cons, List.not_mem_nil] at other
    cases r <;> simp_all [State.setPair, State.reg]

theorem State.reg_setStackPair (s : State) (rp : StackPair) (v : Word) {r : RegName} (other : r ∉ StackPair.regs rp) :
    (s.setStackPair rp v).reg r = s.reg r := by
  cases rp
  all_goals
    simp only [StackPair.regs, List.mem_cons, List.not_mem_nil] at other
    cases r <;> simp_all [State.setStackPair, State.reg]

theorem reg_stateAfter (i : Instr) (s : State) {r : RegName} (other : r ∉ Instr.destRegs i) :
    (stateAfter i s).reg r = s.reg r := by
  cases i
  case add | adc | sub | sbb | ana | xra | ora =>
    rw [stateAfter, State.touched_eq]
    exact State.reg_withA _ _ _ _ other
  case adi | aci | sui | sbi | ani | xri | ori | daa | cma | rlc | rrc | ral | rar | lda | ldax | inp =>
    exact State.reg_withA _ _ _ _ other
  case cmp =>
    rw [stateAfter, State.touched_eq]
    rfl
  case inr | dcr | mvi => exact State.reg_withOperand s _ _ other
  case mov dst src =>
    rw [stateAfter, State.touched_eq]
    exact State.reg_withOperand _ dst _ other
  case dad | lhld | xthl => exact State.reg_withHL s _ _ _ _ _ other
  case inx | dcx | lxi => exact State.reg_setPair s _ _ other
  case xchg => exact State.reg_withDEHL s _ _ _ _ other
  case pop => exact State.reg_setStackPair s.afterPop _ _ other
  case jnz | jz | jnc | jc | jpo | jpe | jp | jm | cnz | cz | cnc | cc | cpo | cpe | cp | cm | rnz | rz | rnc | rc | rpo |
      rpe | rp | rm | out =>
    rw [stateAfter]
    split <;> rfl
  all_goals rfl

/-- Settles O42: the registers of the state after completion, update by update. -/
theorem generalRegisterFrame : Obligations.GeneralRegisterFrame := by
  intro i s t runs r other
  obtain ⟨-, rfl⟩ := (exec_eq_next ..).1 runs
  exact reg_stateAfter i s other

/-! ## Flags -/

theorem Flags.parts_eq_of_eq {p q : Prop} {f g : Flags} (kept : f = g) :
    (p → f.z = g.z ∧ f.s = g.s ∧ f.p = g.p) ∧ (q → f.cy = g.cy) := by
  subst kept
  exact ⟨fun _ => ⟨rfl, rfl, rfl⟩, fun _ => rfl⟩

/-- Settles O43: an instruction writes the flags the table gives it, or leaves them as a whole. -/
theorem flagFrame : Obligations.FlagFrame := by
  intro i s t runs
  obtain ⟨-, rfl⟩ := (exec_eq_next ..).1 runs
  clear runs
  cases i
  case add | adc | adi | aci | sub | sbb | sui | sbi | daa | ana | ani | xra | xri | ora | ori | cmp | cpi | rlc | rrc |
      ral | rar =>
    exact ⟨nofun, nofun⟩
  case inr | dcr => exact ⟨nofun, fun not_written => if_neg (Bool.eq_false_iff.1 not_written)⟩
  case dad | stc | cmc => exact ⟨fun _ => ⟨rfl, rfl, rfl⟩, nofun⟩
  case pop rp =>
    cases rp
    case psw => exact ⟨nofun, nofun⟩
    all_goals exact Flags.parts_eq_of_eq rfl
  case mov dst src =>
    rw [stateAfter, State.touched_eq, State.withOperand_eq]
    exact Flags.parts_eq_of_eq rfl
  case mvi =>
    rw [stateAfter, State.withOperand_eq]
    exact Flags.parts_eq_of_eq rfl
  case inx | dcx | lxi => exact Flags.parts_eq_of_eq (State.setPair_flags ..)
  case jnz | jz | jnc | jc | jpo | jpe | jp | jm | cnz | cz | cnc | cc | cpo | cpe | cp | cm | rnz | rz | rnc | rc | rpo |
      rpe | rp | rm | out =>
    rw [stateAfter]
    split <;> exact Flags.parts_eq_of_eq rfl
  all_goals exact Flags.parts_eq_of_eq rfl

/-! ## Pointers, control bits, ports and the configuration -/

/-- The control part of the state, SP and PC with their notes, INTE, HALTED, PORT, the configuration and the report,
differs from `s` to `t` only where the instruction is one that writes it. -/
structure ControlKept (i : Instr) (s t : State) : Prop where
  sp : Instr.writesSP i = false → t.sp = s.sp ∧ t.spWrapped = s.spWrapped
  pc : Instr.writesPC i = false → t.pc = s.pc ∧ t.pcWrapped = s.pcWrapped
  inte : i ≠ .ei → i ≠ .di → t.inte = s.inte
  halted : i ≠ .hlt → t.halted = s.halted
  ports : (∀ p8, i ≠ .out p8) → t.ports = s.ports
  cfg : t.cfg = s.cfg
  report : t.report = s.report

/-- Any update of the other fields, of SP and of PC, the last two where the instruction writes them. -/
theorem ControlKept.of_rest {i : Instr} {s t : State}
    (rest : (t.inte, t.halted, t.ports, t.cfg, t.report) = (s.inte, s.halted, s.ports, s.cfg, s.report))
    (sp : Instr.writesSP i = false → t.sp = s.sp ∧ t.spWrapped = s.spWrapped)
    (pc : Instr.writesPC i = false → t.pc = s.pc ∧ t.pcWrapped = s.pcWrapped) : ControlKept i s t := by
  simp only [Prod.mk.injEq] at rest
  obtain ⟨inte, halted, ports, cfg, report⟩ := rest
  exact ⟨sp, pc, fun _ _ => inte, fun _ => halted, fun _ => ports, cfg, report⟩

theorem ControlKept.refl (i : Instr) (s : State) : ControlKept i s s :=
  .of_rest rfl (fun _ => ⟨rfl, rfl⟩) fun _ => ⟨rfl, rfl⟩

theorem ControlKept.ite {i : Instr} {s t : State} {c : Prop} [Decidable c] (taken : ControlKept i s t) :
    ControlKept i s (if c then t else s) := by
  split
  · exact taken
  · exact .refl i s

theorem controlKept_stateAfter (i : Instr) (s : State) : ControlKept i s (stateAfter i s) := by
  cases i
  case add | adc | sub | sbb | ana | xra | ora | cmp =>
    rw [stateAfter, State.touched_eq]
    exact .of_rest rfl (fun _ => ⟨rfl, rfl⟩) fun _ => ⟨rfl, rfl⟩
  case inr | dcr | mvi =>
    rw [stateAfter, State.withOperand_eq]
    exact .of_rest rfl (fun _ => ⟨rfl, rfl⟩) fun _ => ⟨rfl, rfl⟩
  case mov =>
    rw [stateAfter, State.touched_eq, State.withOperand_eq]
    exact .of_rest rfl (fun _ => ⟨rfl, rfl⟩) fun _ => ⟨rfl, rfl⟩
  case lxi rp _ | inx rp | dcx rp =>
    cases rp
    case sp => exact .of_rest rfl nofun fun _ => ⟨rfl, rfl⟩
    all_goals exact .of_rest rfl (fun _ => ⟨rfl, rfl⟩) fun _ => ⟨rfl, rfl⟩
  case sphl | push => exact .of_rest rfl nofun fun _ => ⟨rfl, rfl⟩
  case pop rp => cases rp <;> exact .of_rest rfl nofun fun _ => ⟨rfl, rfl⟩
  case jmp | pchl => exact .of_rest rfl (fun _ => ⟨rfl, rfl⟩) nofun
  case jnz | jz | jnc | jc | jpo | jpe | jp | jm => exact .ite (.of_rest rfl (fun _ => ⟨rfl, rfl⟩) nofun)
  case call | ret | rst => exact .of_rest rfl nofun nofun
  case cnz | cz | cnc | cc | cpo | cpe | cp | cm => exact .ite (.of_rest rfl nofun nofun)
  case rnz | rz | rnc | rc | rpo | rpe | rp | rm => exact .ite (.of_rest rfl nofun nofun)
  case ei =>
    exact ⟨fun _ => ⟨rfl, rfl⟩, fun _ => ⟨rfl, rfl⟩, fun not_ei => absurd rfl not_ei, fun _ => rfl, fun _ => rfl, rfl, rfl⟩
  case di =>
    exact ⟨fun _ => ⟨rfl, rfl⟩, fun _ => ⟨rfl, rfl⟩, fun _ not_di => absurd rfl not_di, fun _ => rfl, fun _ => rfl, rfl,
      rfl⟩
  case hlt =>
    exact ⟨fun _ => ⟨rfl, rfl⟩, fun _ => ⟨rfl, rfl⟩, fun _ _ => rfl, fun not_hlt => absurd rfl not_hlt, fun _ => rfl, rfl,
      rfl⟩
  case out p =>
    rw [stateAfter]
    split
    · exact .refl _ s
    · exact ⟨fun _ => ⟨rfl, rfl⟩, fun _ => ⟨rfl, rfl⟩, fun _ _ => rfl, fun _ => rfl, fun not_out => absurd rfl (not_out p),
        rfl, rfl⟩
  all_goals exact .of_rest rfl (fun _ => ⟨rfl, rfl⟩) fun _ => ⟨rfl, rfl⟩

/-- Settles O44: SP and PC are part of the control part. -/
theorem pointerFrame : Obligations.PointerFrame := by
  intro i s t runs
  obtain ⟨-, rfl⟩ := (exec_eq_next ..).1 runs
  have kept := controlKept_stateAfter i s
  exact ⟨kept.sp, kept.pc⟩

theorem step_cfg {s t : State} (runs : step s = .next t) : t.cfg = s.cfg := by
  obtain ⟨-, rfl⟩ | ⟨-, i, u, fetched, -, rfl⟩ := (step_eq_next ..).1 runs
  · rfl
  · obtain ⟨-, -, -, rfl⟩ := (fetchInstr_eq_ok ..).1 fetched
    calc (stateAfter i (s.afterFetches _)).cfg
      _ = (s.afterFetches _).cfg := (controlKept_stateAfter i _).cfg
      _ = s.cfg := by rw [State.afterFetches_eq]

/-- Settles O45: the control bits, the ports and the configuration are part of the control part, and the fetches write
none of them. -/
theorem controlFrame : Obligations.ControlFrame := by
  refine ⟨fun _ _ => step_cfg, fun i s t runs => ?_⟩
  obtain ⟨-, rfl⟩ := (exec_eq_next ..).1 runs
  have kept := controlKept_stateAfter i s
  exact ⟨kept.inte, kept.halted, kept.ports, kept.cfg, kept.report⟩

/-! ## Memory -/

/-- The second store is the first after some writes, each at one of the keys. -/
inductive Cells.WrittenAt (keys : List Nat) (m : Cells) : Cells → Prop
  | unwritten : WrittenAt keys m m
  | write {m' : Cells} {a : Nat} (v : Byte) : a ∈ keys → WrittenAt keys m m' → WrittenAt keys m (m'.write a v)

theorem Cells.WrittenAt.read_eq {keys : List Nat} {m m' : Cells} (h : WrittenAt keys m m') {a : Nat} (other : a ∉ keys) :
    m'.read a = m.read a := by
  induction h with
  | unwritten => rfl
  | write v key _ ih =>
    have ne := ne_of_mem_of_not_mem key other
    rw [Cells.read_write_ne _ _ ne, ih]

theorem Cells.WrittenAt.one (m : Cells) (a : Nat) (v : Byte) : WrittenAt [a] m (m.write a v) :=
  .write v (List.mem_singleton_self a) .unwritten

theorem Cells.WrittenAt.two (m : Cells) (a b : Nat) (v w : Byte) : WrittenAt [a, b] m ((m.write a v).write b w) :=
  .write w (List.mem_cons_of_mem _ (List.mem_singleton_self b)) (.write v List.mem_cons_self .unwritten)

theorem State.writtenAt_withOperand (s : State) (o : R8) (v : Byte) :
    Cells.WrittenAt (s.operandAddrs o) s.mem (s.withOperand o v).mem := by
  cases o
  case m => exact .one ..
  all_goals exact .unwritten

/-- A conditional call stores the two bytes of its push when it is taken, and none when it is not (44 R225). -/
theorem State.writtenAt_pushAddrsIf (s : State) (cond : Cond) (target : Word) :
    Cells.WrittenAt (s.pushAddrsIf cond) s.mem
      (if s.flags.holds cond then (s.afterPush s.pc).setPC target else s).mem := by
  rw [State.pushAddrsIf]
  split
  · exact .two ..
  · exact .unwritten

theorem writtenAt_stateAfter (i : Instr) (s : State) :
    Cells.WrittenAt (Instr.storeAddrs s i) s.mem (stateAfter i s).mem := by
  cases i
  case add | adc | sub | sbb | ana | xra | ora | cmp =>
    rw [stateAfter, State.touched_eq]
    exact .unwritten
  case inr | dcr | mvi => exact s.writtenAt_withOperand ..
  case mov dst src =>
    have written := (s.touched src).writtenAt_withOperand dst (s.operand src)
    cases src <;> exact written
  case inx | dcx | lxi =>
    rw [stateAfter, State.setPair_mem]
    exact .unwritten
  case pop =>
    rw [stateAfter, State.setStackPair_mem]
    exact .unwritten
  case sta | stax => exact .one ..
  case shld | xthl | push | call | rst => exact .two ..
  case cnz | cz | cnc | cc | cpo | cpe | cp | cm => exact s.writtenAt_pushAddrsIf ..
  case jnz | jz | jnc | jc | jpo | jpe | jp | jm | rnz | rz | rnc | rc | rpo | rpe | rp | rm | out =>
    rw [stateAfter]
    split <;> exact .unwritten
  all_goals exact .unwritten

/-- Settles O46: memory changes by writes at the listed addresses. -/
theorem memoryFrame : Obligations.MemoryFrame := by
  intro i s t runs addr other
  obtain ⟨-, rfl⟩ := (exec_eq_next ..).1 runs
  exact (writtenAt_stateAfter i s).read_eq other

end Sys2Proof.Machine
end

