-- ==== Sys2Proof/Proofs/Invariant.lean ====
section
/-! PROOFS. The invariant (spec 00 R7, R8; 20 R60): the state after reset meets it, every step and every transaction of
the host keeps it. The stores keep it because an instruction that completes writes inside them only. -/

namespace Sys2Proof.Machine

/-! ## Writes inside a store -/

theorem Cells.WrittenAt.keeps_wf {keys : List Nat} {m m' : Cells} (h : WrittenAt keys m m') (wf : m.wf = true) :
    m'.wf = true := by
  induction h with
  | unwritten => exact wf
  | write v _ _ ih => exact Cells.wf_write _ _ v ih

theorem Cells.WrittenAt.keeps_below {keys : List Nat} {m m' : Cells} {n : Nat} (h : WrittenAt keys m m')
    (inside : ∀ a ∈ keys, a < n) (below : m.below n = true) : m'.below n = true := by
  induction h with
  | unwritten => exact below
  | write v key _ ih => exact Cells.below_write _ n _ v ih (inside _ key)

theorem State.operandAddrs_lt {s : State} {o : R8} (h : s.operandOpen o) : ∀ a ∈ s.operandAddrs o, a < s.cfg.memSize := by
  cases o
  case m => exact List.forall_mem_singleton.2 (h rfl)
  all_goals nofun

theorem State.wordAddrs_lt {s : State} {addr : Word} (h : s.wordOpen addr) :
    ∀ a ∈ [addr.toNat, (addr + 1).toNat], a < s.cfg.memSize := by
  obtain ⟨first, second, -⟩ := h
  exact List.forall_mem_cons.2 ⟨first, List.forall_mem_singleton.2 second⟩

theorem State.pushAddrs_lt {s : State} (h : s.pushOpen) : ∀ a ∈ s.pushAddrs, a < s.cfg.memSize := by
  obtain ⟨room, inMemory⟩ := h
  refine List.forall_mem_cons.2 ⟨?_, List.forall_mem_singleton.2 ?_⟩ <;> bv_omega

theorem State.pushAddrsIf_lt {s : State} {cond : Cond} (h : s.flags.holds cond = true → s.pushOpen) :
    ∀ a ∈ s.pushAddrsIf cond, a < s.cfg.memSize := by
  rw [State.pushAddrsIf]
  split
  case isTrue holds => exact State.pushAddrs_lt (h holds)
  case isFalse => nofun

/-- An instruction that completes stores inside memory. -/
theorem Completes.storeAddrs_lt {i : Instr} {s : State} (h : Completes i s) :
    ∀ a ∈ Instr.storeAddrs s i, a < s.cfg.memSize := by
  cases i
  case mov =>
    obtain ⟨-, -, writable⟩ := h
    exact State.operandAddrs_lt writable
  case inr | dcr | mvi => exact State.operandAddrs_lt h
  case sta | stax => exact List.forall_mem_singleton.2 h
  case shld | xthl => exact State.wordAddrs_lt h
  case push | call | rst => exact State.pushAddrs_lt h
  case cnz | cz | cnc | cc | cpo | cpe | cp | cm => exact State.pushAddrsIf_lt h
  all_goals nofun

/-- The port an instruction that completes writes lies inside the port array. -/
theorem Completes.ports_inv {i : Instr} {s : State} (h : Completes i s) (wf : s.ports.wf = true)
    (below : s.ports.below s.cfg.nPorts = true) :
    (stateAfter i s).ports.wf = true ∧ (stateAfter i s).ports.below s.cfg.nPorts = true := by
  by_cases writes : ∀ p8, i ≠ .out p8
  · rw [(controlKept_stateAfter i s).ports writes]
    exact ⟨wf, below⟩
  · push Not at writes
    obtain ⟨p8, rfl⟩ := writes
    rw [stateAfter]
    split
    · exact ⟨wf, below⟩
    · exact ⟨Cells.wf_write _ _ _ wf, Cells.below_write _ _ _ _ below h⟩

theorem Completes.inv_stateAfter {i : Instr} {s : State} (h : Completes i s) (inv : s.Inv) : (stateAfter i s).Inv := by
  obtain ⟨cfg_ok, mem_wf, mem_below, ports_wf, ports_below⟩ := inv
  obtain ⟨ports_wf_after, ports_below_after⟩ := h.ports_inv ports_wf ports_below
  have written := writtenAt_stateAfter i s
  rw [State.Inv, (controlKept_stateAfter i s).cfg]
  exact ⟨cfg_ok, written.keeps_wf mem_wf, written.keeps_below h.storeAddrs_lt mem_below, ports_wf_after, ports_below_after⟩

/-! ## Steps and transactions -/

theorem State.inv_afterFetches {s : State} (n : Nat) (inv : s.Inv) : (s.afterFetches n).Inv := by
  rw [State.afterFetches_eq]
  exact inv

/-- Settles O50: the fetches and the report change no store, and the meaning writes inside them. -/
theorem stepKeepsTheInvariant : Obligations.StepKeepsTheInvariant := by
  intro s t inv runs
  obtain ⟨-, rfl⟩ | ⟨-, i, u, fetched, completes, rfl⟩ := (step_eq_next ..).1 runs
  · exact inv
  · obtain ⟨-, -, -, rfl⟩ := (fetchInstr_eq_ok ..).1 fetched
    exact completes.inv_stateAfter (State.inv_afterFetches _ inv)

/-- Settles O49: no cell is listed after `State.reset`. -/
theorem resetMeetsTheInvariant : Obligations.ResetMeetsTheInvariant :=
  ⟨rfl, rfl, rfl, rfl, rfl⟩

/-- A reset brings its own memory and ports; the rest of the configuration was in range before (70 R324). -/
theorem State.inv_resetImage {cfg : Config} (regs : ResetRegs) {image : List Byte} (nonempty : 1 ≤ image.length)
    (fits : image.length ≤ 65536) (ok : cfg.ok = true) : (State.resetImage cfg regs image).Inv := by
  simp only [Config.ok, Bool.and_eq_true, decide_eq_true_eq] at ok
  obtain ⟨⟨-, one_le_ports⟩, ports_le⟩ := ok
  refine ⟨?_, Cells.wf_ofBytes image, Cells.below_ofBytes image _ (le_refl _), Cells.wf_ofBytes _,
    Cells.below_ofBytes _ _ (List.length_take_le ..)⟩
  simp [Config.ok, nonempty, fits, one_le_ports, ports_le]

theorem acceptInterrupt_cfg {n : BitVec 3} {s t : State} (accepted : acceptInterrupt n s = .ok () t) : t.cfg = s.cfg := by
  obtain ⟨-, rfl⟩ := (acceptInterrupt_eq_ok ..).1 accepted
  rfl

/-- Acceptance writes memory as a push does, and no other store. -/
theorem acceptInterrupt_inv {n : BitVec 3} {s t : State} (accepted : acceptInterrupt n s = .ok () t) (inv : s.Inv) :
    t.Inv := by
  obtain ⟨room, rfl⟩ := (acceptInterrupt_eq_ok ..).1 accepted
  obtain ⟨cfg_ok, mem_wf, mem_below, ports_inv⟩ := inv
  have written : Cells.WrittenAt s.pushAddrs s.mem (s.afterPush s.pc).mem := .two ..
  exact ⟨cfg_ok, written.keeps_wf mem_wf, written.keeps_below (State.pushAddrs_lt room) mem_below, ports_inv⟩

/-- Settles O51: a reset makes its stores anew, a step and an acceptance keep them, and a port load writes a cell in
range. -/
theorem transactionsKeepTheInvariant : Obligations.TransactionsKeepTheInvariant := by
  intro regs tr s t runs
  cases tr with
  | reset image =>
    obtain ⟨nonempty, fits, rfl⟩ := (hostReset_eq_next ..).1 runs
    refine ⟨fun inv => State.inv_resetImage regs nonempty fits inv.1, fun not_reset => absurd rfl (not_reset image), ?_⟩
    rintro _ ⟨⟩
    rfl
  | step => exact ⟨fun inv => stepKeepsTheInvariant s t inv runs, fun _ => step_cfg runs, nofun⟩
  | interrupt n =>
    obtain ⟨-, rfl⟩ | ⟨-, u, accepted, rfl⟩ := (interrupt_eq_next ..).1 runs
    · exact ⟨id, fun _ => rfl, nofun⟩
    · have inv_kept := acceptInterrupt_inv accepted
      have cfg_kept := acceptInterrupt_cfg accepted
      exact ⟨inv_kept, fun _ => cfg_kept, nofun⟩
  | portLoad port v =>
    obtain ⟨in_range, rfl⟩ := (setInputPort_eq_next ..).1 runs
    refine ⟨fun ⟨cfg_ok, mem_wf, mem_below, ports_wf, ports_below⟩ => ?_, fun _ => rfl, nofun⟩
    exact ⟨cfg_ok, mem_wf, mem_below, Cells.wf_write _ _ _ ports_wf, Cells.below_write _ _ _ _ ports_below in_range⟩

end Sys2Proof.Machine
end

