-- ==== Sys2Proof/Proofs/Faults.lean ====
section
/-! PROOFS. How a meaning and a step can end without a next state (spec 60 R280 to R285): which faults an instruction may
raise, that nothing refuses, and the faults of the fetch. -/

namespace Sys2Proof.Machine

/-! ## The faults of the operations -/

/-- The fault of the operation, if it ends in one, meets `P`. -/
def Res.FaultsBy {α : Type} (P : Fault → Prop) : Res α → Prop
  | .ok _ _ => True
  | .fault f => P f

/-- The meaning does not refuse, and its fault, if it ends in one, meets `P`. -/
def StopsBy (P : Fault → Prop) : Out → Prop
  | .next _ => True
  | .fault f => P f
  | .refused _ => False

theorem Res.FaultsBy.of_eq_fault {α : Type} {P : Fault → Prop} {r : Res α} {f : Fault} (faults : r.FaultsBy P)
    (eq : r = .fault f) : P f := by
  rwa [eq] at faults

theorem Res.FaultsBy.mono {α : Type} {P Q : Fault → Prop} {r : Res α} (faults : r.FaultsBy P) (h : ∀ f, P f → Q f) :
    r.FaultsBy Q := by
  cases r with
  | ok x t => trivial
  | fault f => exact h f faults

theorem Res.FaultsBy.bind {α β : Type} {P : Fault → Prop} {r : Res α} {k : α → State → Res β} (first : r.FaultsBy P)
    (rest : ∀ x t, (k x t).FaultsBy P) : (r.bind k).FaultsBy P := by
  cases r with
  | ok x t => exact rest x t
  | fault f => exact first

theorem Res.FaultsBy.andThen {α : Type} {P : Fault → Prop} {r : Res α} {k : α → State → Out} (first : r.FaultsBy P)
    (rest : ∀ x t, StopsBy P (k x t)) : StopsBy P (r.andThen k) := by
  cases r with
  | ok x t => exact rest x t
  | fault f => exact first

theorem Res.FaultsBy.done {P : Fault → Prop} {r : Res Unit} (faults : r.FaultsBy P) : StopsBy P r.done :=
  faults.andThen fun _ _ => trivial

theorem StopsBy.ite {P : Fault → Prop} {c : Prop} [Decidable c] {o : Out} {s : State} (taken : c → StopsBy P o) :
    StopsBy P (if c then o else .next s) := by
  split
  case isTrue h => exact taken h
  case isFalse => trivial

/-- The faults of an access outside memory or the port array (60 R282, R285). -/
def Fault.ofAccess : Fault → Prop
  | .outOfBounds .. | .portOutOfRange .. => True
  | .stackUnderflow .. | .unknownOpcode .. | .unsupportedOperand .. => False

theorem memRead_faults (addr : Word) (s : State) : (memRead addr s).FaultsBy Fault.ofAccess := by
  unfold memRead
  split <;> trivial

theorem memWrite_faults (addr : Word) (v : Byte) (s : State) : (memWrite addr v s).FaultsBy Fault.ofAccess := by
  unfold memWrite
  split <;> trivial

theorem nextAddr_faults (kind : AccessKind) (addr : Word) (s : State) : (nextAddr kind addr s).FaultsBy Fault.ofAccess := by
  unfold nextAddr
  split <;> trivial

theorem popByte_faults (s : State) : (popByte s).FaultsBy Fault.ofAccess := by
  unfold popByte
  split
  · trivial
  · split <;> trivial

theorem selectPort_faults (p8 : Byte) (s : State) : (selectPort p8 s).FaultsBy Fault.ofAccess := by
  unfold selectPort
  split <;> trivial

theorem readR8_faults (o : R8) (s : State) : (readR8 o s).FaultsBy Fault.ofAccess := by
  cases o
  case m => exact memRead_faults ..
  all_goals trivial

theorem writeR8_faults (o : R8) (v : Byte) (s : State) : (writeR8 o v s).FaultsBy Fault.ofAccess := by
  cases o
  case m => exact memWrite_faults ..
  all_goals trivial

theorem memRead16_faults (addr : Word) (s : State) : (memRead16 addr s).FaultsBy Fault.ofAccess :=
  (memRead_faults ..).bind fun _ _ => (nextAddr_faults ..).bind fun _ _ => (memRead_faults ..).bind fun _ _ => trivial

theorem memWrite16_faults (addr v : Word) (s : State) : (memWrite16 addr v s).FaultsBy Fault.ofAccess :=
  (memWrite_faults ..).bind fun _ _ => (nextAddr_faults ..).bind fun _ _ => memWrite_faults ..

theorem pop16_faults (s : State) : (pop16 s).FaultsBy Fault.ofAccess :=
  (popByte_faults _).bind fun _ _ => (popByte_faults _).bind fun _ _ => trivial

theorem popPC_faults (s : State) : (popPC s).FaultsBy Fault.ofAccess :=
  (pop16_faults _).bind fun _ _ => trivial

/-- A push faults by its accesses, or by finding SP = 0 for one of its two bytes (60 R281). -/
theorem push16_eq_fault_cases {v : Word} {s : State} {f : Fault} (faults : push16 v s = .fault f) :
    f.ofAccess ∨ s.sp.toNat ≤ 1 ∧ ∃ left, f = .stackUnderflow 0 left := by
  obtain high | ⟨-, -, low⟩ := (push16_eq_fault ..).1 faults
  · obtain ⟨sp_eq, rfl⟩ | ⟨-, -, rfl⟩ := (pushByte_eq_fault ..).1 high
    · exact .inr ⟨by simp [sp_eq], _, rfl⟩
    · exact .inl trivial
  · obtain ⟨sp_eq, rfl⟩ | ⟨-, -, rfl⟩ := (pushByte_eq_fault ..).1 low
    · exact .inr ⟨by bv_omega, _, rfl⟩
    · exact .inl trivial

/-! ## The faults of an instruction -/

/-- The instructions that push: PUSH, CALL, RST, and a conditional call whose condition holds (60 R281). -/
def Pushes (i : Instr) (s : State) : Prop :=
  (∃ rp, i = .push rp) ∨ (∃ a16, i = .call a16) ∨ (∃ n, i = .rst n) ∨
    (∃ cond a16, i = condCall cond a16 ∧ s.flags.holds cond = true)

/-- The faults an instruction may raise from a state: those of its accesses, StackUnderflow if it pushes, and, for the
term MOV M,M alone, UnsupportedOperand (60 R281 to R285). -/
def MayRaise (i : Instr) (s : State) : Fault → Prop
  | .outOfBounds .. | .portOutOfRange .. => True
  | .stackUnderflow sp _ => sp = 0 ∧ s.sp.toNat ≤ 1 ∧ Pushes i s
  | .unknownOpcode .. => False
  | .unsupportedOperand .. => i = .mov .m .m

theorem Fault.ofAccess.mayRaise {f : Fault} (access : f.ofAccess) (i : Instr) (s : State) : MayRaise i s f := by
  cases f
  case outOfBounds | portOutOfRange => trivial
  all_goals cases access

theorem Res.FaultsBy.mayRaise {α : Type} {r : Res α} (faults : r.FaultsBy Fault.ofAccess) {i : Instr} {s : State} :
    r.FaultsBy (MayRaise i s) :=
  faults.mono fun _ access => access.mayRaise i s

theorem Pushes.push16_faults {i : Instr} {s : State} (pushes : Pushes i s) (v : Word) :
    (push16 v s).FaultsBy (MayRaise i s) := by
  cases pushed : push16 v s with
  | ok x t => trivial
  | fault f =>
    obtain access | ⟨low, left, rfl⟩ := push16_eq_fault_cases pushed
    · exact access.mayRaise i s
    · exact ⟨rfl, low, pushes⟩

theorem Pushes.pushPCAndJump_stops {i : Instr} {s : State} (pushes : Pushes i s) (target : Word) :
    StopsBy (MayRaise i s) (pushPCAndJump target s).done := by
  have faults : (pushPCAndJump target s).FaultsBy (MayRaise i s) :=
    (pushes.push16_faults s.pc).bind fun _ _ => trivial
  exact faults.done

theorem pushes_condCall {s : State} (cond : Cond) (a16 : Word) (h : s.flags.holds cond = true) :
    Pushes (condCall cond a16) s :=
  .inr (.inr (.inr ⟨cond, a16, rfl, h⟩))

theorem exec_mov_stops (dst src : R8) (s : State) : StopsBy (MayRaise (.mov dst src) s) (exec (.mov dst src) s) := by
  by_cases both : (dst, src) = (R8.m, R8.m)
  · cases both
    exact rfl
  · rw [exec_mov both]
    exact (readR8_faults ..).mayRaise.andThen fun _ _ => (writeR8_faults ..).mayRaise.done

/-- Every instruction answers a next state or one of the faults it may raise. -/
theorem exec_stops (i : Instr) (s : State) : StopsBy (MayRaise i s) (exec i s) := by
  cases i
  case add | adc | sub | sbb | ana | xra | ora | cmp =>
    exact (readR8_faults ..).mayRaise.andThen fun _ _ => trivial
  case inr | dcr =>
    exact (readR8_faults ..).mayRaise.andThen fun _ _ => (writeR8_faults ..).mayRaise.andThen fun _ _ => trivial
  case mov dst src => exact exec_mov_stops dst src s
  case mvi => exact (writeR8_faults ..).mayRaise.done
  case lda | ldax => exact (memRead_faults ..).mayRaise.andThen fun _ _ => trivial
  case sta | stax => exact (memWrite_faults ..).mayRaise.done
  case lhld =>
    exact (memRead_faults ..).mayRaise.andThen fun _ _ => (nextAddr_faults ..).mayRaise.andThen fun _ _ =>
      (memRead_faults ..).mayRaise.andThen fun _ _ => trivial
  case shld => exact (memWrite16_faults ..).mayRaise.done
  case xthl =>
    exact (memRead16_faults ..).mayRaise.andThen fun _ _ => (memWrite16_faults ..).mayRaise.andThen fun _ _ => trivial
  case jnz | jz | jnc | jc | jpo | jpe | jp | jm => exact .ite fun _ => trivial
  case push rp => exact (Pushes.push16_faults (.inl ⟨rp, rfl⟩) _).done
  case call a => exact Pushes.pushPCAndJump_stops (.inr (.inl ⟨a, rfl⟩)) _
  case rst n => exact Pushes.pushPCAndJump_stops (.inr (.inr (.inl ⟨n, rfl⟩))) _
  case cnz a | cz a | cnc a | cc a | cpo a | cpe a | cp a | cm a =>
    exact .ite fun h => (pushes_condCall _ a h).pushPCAndJump_stops a
  case ret => exact (popPC_faults _).mayRaise.done
  case rnz | rz | rnc | rc | rpo | rpe | rp | rm => exact .ite fun _ => (popPC_faults _).mayRaise.done
  case pop => exact (pop16_faults _).mayRaise.andThen fun _ _ => trivial
  case inp => exact (selectPort_faults ..).mayRaise.andThen fun _ _ => trivial
  case out =>
    refine (selectPort_faults ..).mayRaise.andThen fun _ _ => ?_
    split <;> trivial
  all_goals trivial

theorem mayRaise_of_exec_eq_fault {i : Instr} {s : State} {f : Fault} (faults : exec i s = .fault f) :
    MayRaise i s f := by
  have stops := exec_stops i s
  rwa [faults] at stops

theorem exec_ne_refused (i : Instr) (s : State) (q : Refusal) : exec i s ≠ .refused q := by
  intro refuses
  have stops := exec_stops i s
  rwa [refuses] at stops

/-- Settles O36: StackUnderflow is the fault of a push alone. -/
theorem stackUnderflowOnlyByPushes : Obligations.StackUnderflowOnlyByPushes :=
  fun _ _ _ _ faults => mayRaise_of_exec_eq_fault faults

/-! ## The faults of the fetch and of the step -/

/-- The byte at PC has no entry: the fetch stops after it, with the address it was read from (60 R283). -/
theorem fetchInstr_of_unmapped {s : State} (found : s.fetchOpen)
    (unmapped : dispatchMaps s.cfg (s.mem.read s.pc.toNat) = false) :
    fetchInstr s = .fault (.unknownOpcode (s.mem.read s.pc.toNat) s.pc s.afterFetch) := by
  have unmapped_after : ¬ dispatchMaps s.afterFetch.cfg (s.mem.read s.pc.toNat) = true := Bool.eq_false_iff.1 unmapped
  have pc_eq : s.afterFetch.pc - 1 = s.pc := BitVec.add_sub_cancel s.pc 1
  rw [fetchInstr, fetchByte_of_open found, Res.bind_ok, if_neg unmapped_after, pc_eq]

theorem fetchByte_faults (s : State) : (fetchByte s).FaultsBy Fault.ofAccess := by
  unfold fetchByte
  split
  · trivial
  · split <;> trivial

theorem fetchOperands_faults (n : Nat) (s : State) : (fetchOperands n s).FaultsBy Fault.ofAccess := by
  unfold fetchOperands
  split
  · exact (fetchByte_faults _).bind fun _ _ => trivial
  · exact (fetchByte_faults _).bind fun _ _ => (fetchByte_faults _).bind fun _ _ => trivial
  · trivial

/-- The fetch faults by its stream reads, or by the DISPATCH lookup of a byte without an entry. -/
theorem fetchInstr_faults (s : State) :
    (fetchInstr s).FaultsBy fun f =>
      f.ofAccess ∨ ∃ op addr left, f = .unknownOpcode op addr left ∧ dispatchMaps s.cfg op = false := by
  cases opcode : fetchByte s with
  | fault f =>
    rw [fetchInstr, opcode, Res.bind_fault]
    exact .inl ((fetchByte_faults s).of_eq_fault opcode)
  | ok op t =>
    obtain ⟨-, -, rfl⟩ := (fetchByte_eq_ok ..).1 opcode
    rw [fetchInstr, opcode, Res.bind_ok]
    split
    case isTrue => exact ((fetchOperands_faults ..).mono fun _ => .inl).bind fun _ _ => trivial
    case isFalse unmapped => exact .inr ⟨op, _, _, rfl, Bool.eq_false_iff.2 unmapped⟩

theorem complete_eq_fault (i : Instr) (u : State) (o : Out) (f : Fault) : complete i u o = .fault f ↔ o = .fault f := by
  cases o <;> simp [complete]

theorem complete_eq_refused (i : Instr) (u : State) (o : Out) (q : Refusal) :
    complete i u o = .refused q ↔ o = .refused q := by
  cases o <;> simp [complete]

/-- A step faults in its fetch, or in the meaning of the instruction it fetched. -/
theorem step_eq_fault_cases {s : State} {f : Fault} (faults : step s = .fault f) :
    fetchInstr s = .fault f ∨ ∃ i u, fetchInstr s = .ok i u ∧ MayRaise i u f := by
  rw [step] at faults
  split at faults
  · cases faults
  · refine ((Res.andThen_eq_fault ..).1 faults).imp_right ?_
    rintro ⟨i, u, fetched, meaning_faults⟩
    exact ⟨i, u, fetched, mayRaise_of_exec_eq_fault ((complete_eq_fault ..).1 meaning_faults)⟩

/-- Settles O11: neither the fetch nor a meaning refuses. -/
theorem stepNeverRefuses : Obligations.StepNeverRefuses := by
  intro s q refuses
  rw [step] at refuses
  split at refuses
  · cases refuses
  · obtain ⟨i, u, -, meaning_refuses⟩ := (Res.andThen_eq_refused ..).1 refuses
    exact exec_ne_refused i u q ((complete_eq_refused ..).1 meaning_refuses)

theorem step_of_opcode_fault {s : State} {f : Fault} (running : s.halted = false) (missing : fetchByte s = .fault f) :
    step s = .fault f := by
  rw [step, running, if_neg Bool.false_ne_true, fetchInstr, missing, Res.bind_fault, Res.andThen_fault]

/-- Settles O8: the opcode's read and the operands' reads. -/
theorem fetchPastMemoryFaults : Obligations.FetchPastMemoryFaults := by
  refine ⟨fun s running latch past => ?_, operandFetchFaults⟩
  exact step_of_opcode_fault running (fetchByte_of_past latch past)

theorem dispatchMaps_eq_false (cfg : Config) (op : Byte) :
    dispatchMaps cfg op = false ↔
      op ∈ cfg.unmappedOpcodes ∨ (cfg.undocCall = .fault ∧ (op = 0xDD ∨ op = 0xED ∨ op = 0xFD)) := by
  simp only [dispatchMaps, Bool.and_eq_false_iff, Bool.not_eq_false', List.contains_iff_mem, Bool.and_eq_true,
    Bool.or_eq_true, decide_eq_true_eq, or_assoc]

/-- Settles O9: the lookup follows the opcode's read, and no meaning raises UnknownOpcode. -/
theorem unmappedOpcodeFaults : Obligations.UnmappedOpcodeFaults := by
  refine ⟨dispatchMaps_eq_false, fun s running found unmapped => ?stops,
    fun s left op addr all_mapped aliased faults => ?never⟩
  case stops =>
    rw [step, running, if_neg Bool.false_ne_true, fetchInstr_of_unmapped found unmapped, Res.andThen_fault]
  case never =>
    obtain in_fetch | ⟨i, u, -, raised⟩ := step_eq_fault_cases faults
    · obtain access | ⟨_, _, _, -, unmapped⟩ := (fetchInstr_faults s).of_eq_fault in_fetch
      · exact access
      · simp [dispatchMaps_eq_false, all_mapped, aliased] at unmapped
    · exact raised

theorem wf_of_fetchInstr_eq_ok {s u : State} {i : Instr} (fetched : fetchInstr s = .ok i u) : i.wf = true := by
  obtain ⟨-, -, decoded, -⟩ := (fetchInstr_eq_ok ..).1 fetched
  obtain ⟨n, length_eq⟩ := Nat.exists_eq_add_of_le' (instrLength_pos (s.mem.read s.pc.toNat))
  rw [State.nextLength, length_eq] at decoded
  obtain ⟨b1, b2, rfl, -⟩ := decode_cons_eq_ok decoded
  exact wf_decodeOp _ b1 b2

/-- Settles O10: the fetch gives well-formed instructions only, and MOV M,M is none. -/
theorem noStepRaisesUnsupportedOperand : Obligations.NoStepRaisesUnsupportedOperand := by
  refine ⟨fun s left op operand faults => ?_, fun _ => rfl⟩
  obtain in_fetch | ⟨i, u, fetched, is_mov⟩ := step_eq_fault_cases faults
  · obtain access | ⟨_, _, _, unknown, -⟩ := (fetchInstr_faults s).of_eq_fault in_fetch
    · exact access
    · cases unknown
  · have well_formed := wf_of_fetchInstr_eq_ok fetched
    rw [show i = .mov .m .m from is_mov] at well_formed
    cases well_formed

end Sys2Proof.Machine
end

