-- ==== Sys2Proof/Proofs/Noninterference.lean ====
section
/-! PROOFS. Nothing reads MAR (spec 10 R42) and no state depends on the CYCLES table (70 R335). Both are read off one
relation between two states, which every part of a step keeps. -/

namespace Sys2Proof.Machine

/-- `s'` is `s` but for the cycle table, which is `table`, and, unless `marKept`, for MAR. -/
def Disguises (table : List (Byte × CycleCost)) (marKept : Prop) (s s' : State) : Prop :=
  ∃ m, s' = { s with mar := m, cfg := { s.cfg with cycleOverrides := table } } ∧ (marKept → m = s.mar)

section
variable {table : List (Byte × CycleCost)} {marKept : Prop} {s s' : State}

/-! ## The fetches -/

theorem Disguises.afterFetch (h : Disguises table marKept s s') : Disguises table marKept s.afterFetch s'.afterFetch := by
  obtain ⟨m, rfl, -⟩ := h
  exact ⟨s.pc, rfl, fun _ => rfl⟩

theorem Disguises.afterFetches (h : Disguises table marKept s s') (n : Nat) :
    Disguises table marKept (s.afterFetches n) (s'.afterFetches n) := by
  induction n generalizing s s' with
  | zero => exact h
  | succ n ih => exact ih h.afterFetch

theorem Disguises.fetchOpen (h : Disguises table marKept s s') (found : s.fetchOpen) : s'.fetchOpen := by
  obtain ⟨m, rfl, -⟩ := h
  exact found

theorem Disguises.streamOpen (h : Disguises table marKept s s') {n : Nat} (found : s.streamOpen n) : s'.streamOpen n := by
  induction n generalizing s s' with
  | zero => trivial
  | succ n ih => exact ⟨h.fetchOpen found.1, ih h.afterFetch found.2⟩

theorem Disguises.streamBytes (h : Disguises table marKept s s') (n : Nat) : s'.streamBytes n = s.streamBytes n := by
  induction n generalizing s s' with
  | zero => rfl
  | succ n ih =>
    rw [State.streamBytes, State.streamBytes, ih h.afterFetch]
    obtain ⟨m, rfl, -⟩ := h
    rfl

theorem Disguises.of_fetchInstr (h : Disguises table marKept s s') {i : Instr} {u : State}
    (fetched : fetchInstr s = .ok i u) : ∃ u', fetchInstr s' = .ok i u' ∧ Disguises table marKept u u' := by
  obtain ⟨mapped, found, decoded, rfl⟩ := (fetchInstr_eq_ok ..).1 fetched
  have mapped' : dispatchMaps s'.cfg (s'.mem.read s'.pc.toNat) = true := by
    obtain ⟨m, rfl, -⟩ := h
    exact mapped
  have length_eq : s'.nextLength = s.nextLength := by
    obtain ⟨m, rfl, -⟩ := h
    rfl
  refine ⟨_, (fetchInstr_eq_ok ..).2 ⟨mapped', ?_, ?_, rfl⟩, ?_⟩
  all_goals rw [length_eq]
  · exact h.streamOpen found
  · rw [h.streamBytes, decoded]
  · exact h.afterFetches _

/-! ## The meaning -/

theorem Disguises.completes (h : Disguises table marKept s s') {i : Instr} (completes : Completes i s) :
    Completes i s' := by
  obtain ⟨m, rfl, -⟩ := h
  cases i <;> exact completes

theorem Disguises.ite {c : Prop} [Decidable c] {t t' u u' : State} (taken : Disguises table marKept t t')
    (not_taken : Disguises table marKept u u') :
    Disguises table marKept (if c then t else u) (if c then t' else u') := by
  split
  · exact taken
  · exact not_taken

/-- An instruction loads MAR with a value of its own, or leaves it. -/
theorem Disguises.of_stateAfter (h : Disguises table marKept s s') (i : Instr) :
    Disguises table marKept (stateAfter i s) (stateAfter i s') := by
  obtain ⟨m, rfl, mar_eq⟩ := h
  cases i
  case add o | adc o | sub o | sbb o | ana o | xra o | ora o | cmp o | inr o | dcr o | mvi o _ =>
    cases o
    case m => exact ⟨_, rfl, fun _ => rfl⟩
    all_goals exact ⟨m, rfl, mar_eq⟩
  case mov dst src =>
    cases dst
    case m => cases src <;> exact ⟨_, rfl, fun _ => rfl⟩
    all_goals
      cases src
      case m => exact ⟨_, rfl, fun _ => rfl⟩
      all_goals exact ⟨m, rfl, mar_eq⟩
  case inx rp | dcx rp | lxi rp _ => cases rp <;> exact ⟨m, rfl, mar_eq⟩
  case pop rp => cases rp <;> exact ⟨_, rfl, fun _ => rfl⟩
  case lda | ldax | sta | stax | lhld | shld | xthl | push | call | rst | ret => exact ⟨_, rfl, fun _ => rfl⟩
  case jnz | jz | jnc | jc | jpo | jpe | jp | jm => exact .ite ⟨m, rfl, mar_eq⟩ ⟨m, rfl, mar_eq⟩
  case cnz | cz | cnc | cc | cpo | cpe | cp | cm => exact .ite ⟨_, rfl, fun _ => rfl⟩ ⟨m, rfl, mar_eq⟩
  case rnz | rz | rnc | rc | rpo | rpe | rp | rm => exact .ite ⟨_, rfl, fun _ => rfl⟩ ⟨m, rfl, mar_eq⟩
  case out => exact .ite ⟨m, rfl, mar_eq⟩ ⟨m, rfl, mar_eq⟩
  all_goals exact ⟨m, rfl, mar_eq⟩

/-! ## The step -/

theorem Disguises.cycleCost_eq (h : Disguises table marKept s s') (same : table = s.cfg.cycleOverrides) (i : Instr) :
    cycleCost i s' = cycleCost i s := by
  obtain ⟨m, rfl, -⟩ := h
  rw [same]
  rfl

/-- The step answers the same state but for the table, MAR and the report; the report differs only by the table. -/
theorem Disguises.of_step (h : Disguises table marKept s s') {t : State} (runs : step s = .next t) :
    ∃ t', step s' = .next t' ∧ Disguises table marKept t { t' with report := t.report } ∧
      (table = s.cfg.cycleOverrides → t'.report = t.report) := by
  have halted_eq : s'.halted = s.halted := by
    obtain ⟨m, rfl, -⟩ := h
    rfl
  obtain ⟨halted, rfl⟩ | ⟨running, i, u, fetched, completes, rfl⟩ := (step_eq_next ..).1 runs
  · refine ⟨_, (step_eq_next ..).2 (.inl ⟨halted_eq.trans halted, rfl⟩), ?_, fun _ => rfl⟩
    obtain ⟨m, rfl, mar_eq⟩ := h
    exact ⟨m, rfl, mar_eq⟩
  · obtain ⟨u', fetched', after_fetch⟩ := h.of_fetchInstr fetched
    have runs' := (step_eq_next s' _).2
      (.inr ⟨halted_eq.trans running, i, u', fetched', after_fetch.completes completes, rfl⟩)
    refine ⟨_, runs', ?_, fun same => congrArg Report.continuing (after_fetch.cycleCost_eq ?_ i)⟩
    · obtain ⟨m, after_eq, mar_eq⟩ := after_fetch.of_stateAfter i
      rw [after_eq]
      exact ⟨m, rfl, mar_eq⟩
    · obtain ⟨-, -, -, rfl⟩ := (fetchInstr_eq_ok ..).1 fetched
      rw [State.afterFetches_eq]
      exact same

end

/-- Settles O52: the step keeps the relation of two states that differ in MAR alone. -/
theorem latchIsNeverRead : Obligations.LatchIsNeverRead := by
  intro s t m runs
  have disguise : Disguises s.cfg.cycleOverrides False s { s with mar := m } := ⟨m, rfl, nofun⟩
  obtain ⟨u, runs_u, ⟨m', u_eq, -⟩, report_eq⟩ := disguise.of_step runs
  have same_report : u = { u with report := t.report } := by rw [← report_eq rfl]
  refine ⟨u, runs_u, ?_⟩
  rw [same_report, u_eq, ← step_cfg runs]

/-- Settles O53: the step keeps the relation of two states that differ in the cycle table alone. -/
theorem cycleTableIsNeverRead : Obligations.CycleTableIsNeverRead := by
  intro s t table runs
  have disguise : Disguises table True s { s with cfg := { s.cfg with cycleOverrides := table } } :=
    ⟨s.mar, rfl, fun _ => rfl⟩
  obtain ⟨u, runs_u, ⟨m, u_eq, mar_eq⟩, -⟩ := disguise.of_step runs
  rw [mar_eq trivial] at u_eq
  exact ⟨u, runs_u, congrArg (fun v : State => { v with cfg := t.cfg }) u_eq⟩

end Sys2Proof.Machine
end

