-- ==== Sys2Proof/Proofs/IncrementAndDecimal.lean ====
section
/-! PROOFS. INR, DCR and DAA (spec 40 R141 to R143, R149, R150). -/

namespace Sys2Proof.Machine

theorem encodes_inr (dst : R8) : Encodes (.inr dst) [BitVec.ofNat 8 (0x04 + 8 * dst.code)] := by
  cases dst <;> exact encodes_oneByte rfl

theorem encodes_dcr (dst : R8) : Encodes (.dcr dst) [BitVec.ofNat 8 (0x05 + 8 * dst.code)] := by
  cases dst <;> exact encodes_oneByte rfl

/-- Settles O16: the operand that can be read can be written, and the next state is `stateAfter`. -/
theorem incrementDecrementRules : Obligations.IncrementDecrementRules := by
  intro s dst
  refine ⟨encodes_inr dst, encodes_dcr dst, fun h => ?readable, fun h => ?unreadable⟩
  case readable => exact ⟨exec_of_completes (i := .inr dst) h, exec_of_completes (i := .dcr dst) h⟩
  case unreadable => exact ⟨readR8_andThen_of_not_open h _, readR8_andThen_of_not_open h _⟩

/-! ## DAA -/

theorem daaStageOne_of_low {a : Byte} (low : a.toNat % 16 ≤ 9) : daaStageOne a = a :=
  if_neg (Nat.not_lt.2 low)

theorem daaStageOne_of_high {a : Byte} (high : 9 < a.toNat % 16) : daaStageOne a = a + 6 := by
  rw [daaStageOne, if_pos high]
  bv_omega

/-- With stage two the byte after stage one is at least 0xA0, so adding 0x60 carries (40 R149). -/
theorem exec_daa_of_stageTwo {s : State} {a1 : Byte} (stage_one : daaStageOne s.a = a1) (runs : 9 < a1.toNat / 16) :
    exec .daa s = .next (s.withAlu (a1 + 0x60) true) := by
  have sum_eq : BitVec.ofNat 8 (a1.toNat + 0x60) = a1 + 0x60 := by bv_omega
  have carries : 255 < a1.toNat + 0x60 := by omega
  simp [exec, execDaa, daaValue, daaFlags, daaStageTwoRuns, stage_one, runs, carries, sum_eq, State.withAlu]

theorem exec_daa_of_no_stageTwo {s : State} {a1 : Byte} (stage_one : daaStageOne s.a = a1) (not_runs : a1.toNat / 16 ≤ 9) :
    (s.cfg.daaNoHighFix = .unchanged → exec .daa s = .next { s with a := a1 }) ∧
    (s.cfg.daaNoHighFix = .setCarryClear → exec .daa s = .next (s.withAlu a1 false)) := by
  constructor
  all_goals
    intro policy
    simp [exec, execDaa, daaValue, daaFlags, daaStageTwoRuns, stage_one, Nat.not_lt.2 not_runs, policy, State.withAlu]

/-- Settles O18: each class says what stage one does and whether stage two runs on its result. -/
theorem decimalAdjustClasses : Obligations.DecimalAdjustClasses := by
  intro s lo hi
  have no_stage (low : lo ≤ 9) (h : hi ≤ 9) := exec_daa_of_no_stageTwo (s := s) (daaStageOne_of_low low) h
  have stage_one (high : 9 < lo) (h : hi ≤ 8 ∨ hi = 15) :=
    exec_daa_of_no_stageTwo (s := s) (daaStageOne_of_high high) (by bv_omega)
  refine ⟨encodes_oneByte rfl, fun policy => ⟨?_, ?_, ?_⟩, fun policy => ⟨?_, ?_, ?_⟩, ?_, ?_⟩
  · exact fun low h => (no_stage low h).1 policy
  · exact fun high h => (stage_one high (.inl h)).1 policy
  · exact fun high h => (stage_one high (.inr h)).1 policy
  · exact fun low h => (no_stage low h).2 policy
  · exact fun high h => (stage_one high (.inl h)).2 policy
  · exact fun high h => (stage_one high (.inr h)).2 policy
  · exact fun low h => exec_daa_of_stageTwo (daaStageOne_of_low low) h
  · intro high h h'
    have sum_eq : s.a + 0x66 = s.a + 6 + 0x60 := by bv_omega
    rw [sum_eq]
    exact exec_daa_of_stageTwo (daaStageOne_of_high high) (by bv_omega)

end Sys2Proof.Machine
end

