-- ==== Sys2Proof/Proofs/WordAccess.lean ====
section
/-! PROOFS. LHLD, SHLD and XTHL (spec 43 R199, R200, R204): the 16-bit access as a whole and its faults. -/

namespace Sys2Proof.Machine

/-- The faults of a 16-bit access, by the three ways its two bytes can be missed, for any meaning that ends in them. -/
theorem wordFaults_of_missed {kind : AccessKind} {s left : State} {addr : Word} {o : Out}
    (faults : ∀ f,
      (s.cfg.memSize ≤ addr.toNat ∧ f = .outOfBounds kind addr.toNat s) ∨
      (addr.toNat < s.cfg.memSize ∧ (Config.topFaults s.cfg && decide (addr = 0xFFFF)) = true ∧
        f = .outOfBounds kind 65536 left) ∨
      (addr.toNat < s.cfg.memSize ∧ (Config.topFaults s.cfg && decide (addr = 0xFFFF)) = false ∧
        s.cfg.memSize ≤ (addr + 1).toNat ∧ f = .outOfBounds kind (addr + 1).toNat left) → o = .fault f) :
    WordFaults kind s addr o := by
  refine ⟨fun past => ⟨s, ?_⟩, fun first policy past => ⟨left, ?_⟩, fun first policy top => ⟨left, ?_⟩⟩
  · exact faults _ (.inl ⟨past, rfl⟩)
  · exact faults _ (.inr (.inr ⟨first, policy, past, rfl⟩))
  · exact faults _ (.inr (.inl ⟨first, by simp [Config.topFaults, policy, top], rfl⟩))

/-- LHLD has loaded L before it looks for the second byte (43 R199). -/
theorem wordFaults_lhld (s : State) (a16 : Word) : WordFaults .dataRead s a16 (exec (.lhld a16) s) := by
  refine wordFaults_of_missed (left := { s with mar := a16, l := s.mem.read a16.toNat }) fun f missed => ?_
  simp only [exec, execLhld, Res.andThen_eq_fault, memRead_eq_fault, memRead_eq_ok, nextAddr_eq_fault, nextAddr_eq_ok]
  obtain first | ⟨found, policy, rfl⟩ | ⟨found, policy, past, rfl⟩ := missed
  · exact .inl first
  · exact .inr ⟨_, _, ⟨found, rfl, rfl⟩, .inl ⟨policy, rfl⟩⟩
  · exact .inr ⟨_, _, ⟨found, rfl, rfl⟩, .inr ⟨_, _, ⟨policy, rfl, rfl⟩, .inl ⟨past, rfl⟩⟩⟩

theorem wordFaults_shld (s : State) (a16 : Word) : WordFaults .dataWrite s a16 (exec (.shld a16) s) :=
  wordFaults_of_missed fun _ missed => (Res.done_eq_fault ..).2 ((memWrite16_eq_fault ..).2 missed)

theorem wordFaults_xthl (s : State) : WordFaults .dataRead s s.sp (exec .xthl s) :=
  wordFaults_of_missed fun _ missed => (Res.andThen_eq_fault ..).2 (.inl ((memRead16_eq_fault ..).2 missed))

/-- Settles O25: the two next states are `stateAfter`, the faults those of the accesses. -/
theorem hlLoadStoreRules : Obligations.HLLoadStoreRules := by
  intro s lo hi
  exact ⟨encodes_threeBytes lo hi rfl, encodes_threeBytes lo hi rfl, operandFetchFaults 0x2A, operandFetchFaults 0x22,
    fun found => ⟨exec_of_completes (i := .lhld _) found, exec_of_completes (i := .shld _) found⟩,
    wordFaults_lhld s _, wordFaults_shld s _⟩

theorem not_pushes_xthl (s : State) : ¬ Pushes .xthl s := by
  rintro (⟨_, ⟨⟩⟩ | ⟨_, ⟨⟩⟩ | ⟨_, ⟨⟩⟩ | ⟨cond, a16, is_call, -⟩)
  cases cond <;> cases is_call

/-- Settles O26: XTHL accesses memory at SP and pushes nothing. -/
theorem exchangeStackTopRule : Obligations.ExchangeStackTopRule := by
  refine ⟨encodes_oneByte rfl, fun s => ⟨exec_of_completes (i := .xthl), wordFaults_xthl s, fun sp left faults => ?_⟩⟩
  obtain ⟨-, -, pushes⟩ := mayRaise_of_exec_eq_fault faults
  exact not_pushes_xthl s pushes

end Sys2Proof.Machine
end

