-- ==== Sys2Proof/Proofs/CallAndPop.lean ====
section
/-! PROOFS. CALL, the conditional calls, and POP (spec 44 R224, R225; 45 R243, R244). -/

namespace Sys2Proof.Machine

theorem exec_condCall (cond : Cond) (a16 : Word) (s : State) : exec (condCall cond a16) s = callIf cond a16 s := by
  cases cond <;> rfl

theorem encodes_condCall (cond : Cond) (lo hi : Byte) :
    Encodes (condCall cond (joinBytes hi lo)) [BitVec.ofNat 8 (0xC4 + 8 * Cond.code cond), lo, hi] := by
  cases cond <;> exact encodes_threeBytes lo hi rfl

theorem operandFetchFaults_condCall (cond : Cond) : OperandFetchFaults (BitVec.ofNat 8 (0xC4 + 8 * Cond.code cond)) 3 := by
  cases cond <;> exact operandFetchFaults _

theorem exec_call (a16 : Word) (s : State) : exec (.call a16) s = (pushPCAndJump a16 s).done := rfl

theorem exec_condCall_of_holds {s : State} {cond : Cond} (a16 : Word) (h : s.flags.holds cond = true) :
    exec (condCall cond a16) s = exec (.call a16) s := by
  rw [exec_condCall, callIf, if_pos h, exec_call]

theorem exec_condCall_of_not_holds {s : State} {cond : Cond} (a16 : Word) (h : s.flags.holds cond = false) :
    exec (condCall cond a16) s = .next s := by
  rw [exec_condCall, callIf, h, if_neg Bool.false_ne_true]

/-- Settles O29: CALL is the push of PC with the jump, and a taken conditional call is CALL. -/
theorem callRules : Obligations.CallRules := by
  intro s cond lo hi
  refine ⟨encodes_threeBytes lo hi rfl, encodes_threeBytes lo hi rfl, encodes_threeBytes lo hi rfl,
    encodes_threeBytes lo hi rfl, encodes_condCall cond lo hi, operandFetchFaults 0xCD, operandFetchFaults 0xDD,
    operandFetchFaults 0xED, operandFetchFaults 0xFD, operandFetchFaults_condCall cond,
    pushPCAndJump_done_of_open _, pushFaults_pushPCAndJump _ s, ?taken, exec_condCall_of_not_holds _⟩
  case taken =>
    intro h
    rw [exec_condCall_of_holds _ h]
    exact ⟨pushPCAndJump_done_of_open _, pushFaults_pushPCAndJump _ s⟩

/-! ## POP -/

theorem encodes_pop (rp : StackPair) : Encodes (.pop rp) [BitVec.ofNat 8 (0xC1 + 8 * rp.code)] := by
  cases rp <;> exact encodes_oneByte rfl

theorem popFaults_exec_pop (rp : StackPair) (s : State) : PopFaults s (exec (.pop rp) s) :=
  popFaults_of_pop16 fun _ pop => (Res.andThen_eq_fault ..).2 (.inl pop)

theorem State.setPSW_joinBytes (s : State) (hi lo : Byte) :
    s.setStackPair .psw (joinBytes hi lo) = { s with a := hi, flags := Flags.ofByte lo } := by
  rw [State.setStackPair, hiByte_joinBytes, loByte_joinBytes]

/-- Settles O33: the word popped is split into the two bytes it was joined from. -/
theorem popRules : Obligations.PopRules := by
  intro s rp lo hi
  refine ⟨encodes_pop rp, popFaults_exec_pop rp s, fun found => ⟨?bc, ?de, ?hl, ?psw⟩⟩
  all_goals rw [exec_pop_of_popOpen _ found, State.wordAt]
  case bc => exact congrArg _ (State.setBC_joinBytes ..)
  case de => exact congrArg _ (State.setDE_joinBytes ..)
  case hl => exact congrArg _ (State.setHL_joinBytes ..)
  case psw => exact congrArg _ (State.setPSW_joinBytes ..)

end Sys2Proof.Machine
end

