-- ==== Sys2Proof/Proofs/InputOutput.lean ====
section
/-! PROOFS. IN, OUT and the host's view of the port array (spec 46 R256 to R259). -/

namespace Sys2Proof.Machine

theorem selectPort_of_past {s : State} {p8 : Byte} (past : s.cfg.nPorts ≤ p8.toNat) :
    selectPort p8 s = .fault (.portOutOfRange p8 s) := by
  rw [selectPort, if_pos past]

theorem exec_inp_of_in_range {s : State} {p8 : Byte} (in_range : p8.toNat < s.cfg.nPorts) :
    exec (.inp p8) s = .next { s with a := s.ports.read p8.toNat } :=
  exec_of_completes (i := .inp p8) in_range

/-- Settles O37: in range the port's cell is read; out of range no cell is selected. -/
theorem inputRule : Obligations.InputRule := by
  intro s p8
  refine ⟨encodes_twoBytes p8 rfl, operandFetchFaults 0xDB, exec_inp_of_in_range, fun past => ?_⟩
  rw [exec, execIn, selectPort_of_past past, Res.andThen_fault]

theorem exec_out_of_not_ignored {s : State} {p8 : Byte} (in_range : p8.toNat < s.cfg.nPorts)
    (not_ignored : p8 ∉ s.cfg.outIgnoredPorts) :
    exec (.out p8) s = .next { s with ports := s.ports.write p8.toNat s.a } :=
  (exec_out_eq_next ..).2 ⟨in_range, (if_neg not_ignored).symm⟩

/-- Settles O38: the range, then the ignored ports. -/
theorem outputRule : Obligations.OutputRule := by
  intro s p8
  refine ⟨encodes_twoBytes p8 rfl, operandFetchFaults 0xD3, fun in_range not_ignored => ?stored, fun in_range ignored => ?kept,
    fun past => ?outside⟩
  case stored =>
    exact ⟨_, exec_out_of_not_ignored in_range not_ignored, Cells.read_write_self ..,
      fun k ne => Cells.read_write_ne _ _ ne.symm, rfl⟩
  case kept => exact (exec_out_eq_next ..).2 ⟨in_range, (if_pos ignored).symm⟩
  case outside => rw [exec, execOut, selectPort_of_past past, Res.andThen_fault]

theorem readOutputPort_write {s : State} {p8 : Byte} (in_range : p8.toNat < s.cfg.nPorts) (v : Byte) :
    readOutputPort p8 { s with ports := s.ports.write p8.toNat v } = some v := by
  rw [readOutputPort, if_pos in_range, Cells.read_write_self]

/-- Settles O60: the host's load and OUT write the one array that IN and the host read. -/
theorem onePortArray : Obligations.OnePortArray := by
  intro s p8 v in_range
  refine ⟨⟨_, (setInputPort_eq_next ..).2 ⟨in_range, rfl⟩, rfl, fun k ne => Cells.read_write_ne _ _ ne.symm,
    readOutputPort_write in_range v, ?input⟩, fun not_ignored => ⟨_, exec_out_of_not_ignored in_range not_ignored,
    readOutputPort_write in_range s.a⟩⟩
  case input =>
    have reads := exec_inp_of_in_range (s := { s with ports := s.ports.write p8.toNat v }) in_range
    rwa [Cells.read_write_self] at reads

end Sys2Proof.Machine
end

