-- ==== Sys2Proof/Proofs/Hosting.lean ====
section
/-! PROOFS. The host's transactions (spec 60 R292 to R295; 70 R321 to R324): reset, the acceptance of an interrupt, and
the return from it. -/

namespace Sys2Proof.Machine

/-! ## Reset -/

theorem Cells.some_read_ofBytes {bytes : List Byte} {k : Nat} (inside : k < bytes.length) :
    some ((Cells.ofBytes bytes).read k) = bytes[k]? := by
  rw [Cells.read_ofBytes, List.getD_eq_getElem _ _ inside, List.getElem?_eq_getElem inside]

/-- Settles O47: the store of the image reads as the image. -/
theorem resetMemoryIsTheImage : Obligations.ResetMemoryIsTheImage := by
  intro s regs image
  refine ⟨fun nonempty fits => ?inside, fun outside => (hostReset_eq_refused ..).2 ⟨outside, rfl⟩⟩
  case inside =>
    exact ⟨_, (hostReset_eq_next ..).2 ⟨nonempty, fits, rfl⟩, rfl, fun a => Cells.some_read_ofBytes⟩

/-- Settles O48: the fields of `State.resetImage`; the ports are those of RESET_REGS below N_PORTS. -/
theorem resetEntryState : Obligations.ResetEntryState := by
  intro s regs image t resets
  obtain ⟨-, -, rfl⟩ := (hostReset_eq_next ..).1 resets
  refine ⟨rfl, rfl, rfl, rfl, rfl, rfl, rfl, rfl, rfl, rfl, rfl, rfl, rfl, rfl, fun n in_range listed => ?_⟩
  have inside : n < (regs.ports.take s.cfg.nPorts).length := by
    rw [List.length_take]
    exact Nat.lt_min.2 ⟨in_range, listed⟩
  rw [State.resetImage_ports, Cells.some_read_ofBytes inside, List.getElem?_take_of_lt in_range]

/-! ## Interrupts -/

/-- Settles O58: the first test of the request. -/
theorem interruptIgnored : Obligations.InterruptIgnored := by
  intro s n ignored
  refine (interrupt_eq_next ..).2 (.inl ⟨?_, rfl⟩)
  obtain halted | ⟨gated, disabled⟩ := ignored
  · rw [halted, Bool.true_or]
  · rw [gated, disabled, Bool.not_false, Bool.and_true, Bool.or_true]

/-- A request to a running block with interrupts enabled, or not gated, is an acceptance (60 R292). -/
theorem interrupt_of_taken {s : State} (n : BitVec 3) (running : s.halted = false)
    (enabled : s.inte = true ∨ s.cfg.intGatedByInte = false) :
    interrupt n s =
      (acceptInterrupt n s).andThen fun _ t => .next { t with report := .accepted s.cfg.intCycles } := by
  have not_ignored : (s.halted || (s.cfg.intGatedByInte && !s.inte)) = false := by
    obtain enabled | ungated := enabled
    · rw [running, enabled, Bool.not_true, Bool.and_false, Bool.or_false]
    · rw [running, ungated, Bool.false_and, Bool.or_false]
  rw [interrupt, not_ignored, if_neg Bool.false_ne_true]

theorem interrupt_of_pushOpen {s : State} (n : BitVec 3) (running : s.halted = false)
    (enabled : s.inte = true ∨ s.cfg.intGatedByInte = false) (room : s.pushOpen) :
    interrupt n s = .next { (({ s with inte := false } : State).afterPush s.pc).setPC (restartAddr n) with
      report := .accepted s.cfg.intCycles } := by
  rw [interrupt_of_taken n running enabled, (acceptInterrupt_eq_ok n s _ ()).2 ⟨room, rfl⟩, Res.andThen_ok]

/-- The push comes first, so its faults are the acceptance's (60 R293). -/
theorem pushFaults_acceptInterrupt (n : BitVec 3) (s : State) (k : Unit → State → Out) :
    PushFaults s s.pc ((acceptInterrupt n s).andThen k) := by
  have of_cleared : PushFaults { s with inte := false } s.pc ((acceptInterrupt n s).andThen k) :=
    pushFaults_of_push16 fun _ pushed => (Res.andThen_eq_fault ..).2 (.inl ((Res.bind_eq_fault ..).2 (.inl pushed)))
  exact of_cleared

/-- Settles O57: acceptance is the push that RST makes, from the state with INTE cleared. -/
theorem interruptAcceptance : Obligations.InterruptAcceptance := by
  intro s n running enabled
  refine ⟨fun room => ?accepted, ?faults⟩
  case accepted =>
    exact ⟨_, interrupt_of_pushOpen n running enabled room, rfl, rfl, rfl, s.read_afterPush_high s.pc,
      s.read_afterPush_low s.pc, fun _ => State.read_afterPush_of_ne s.pc, rfl, rfl⟩
  case faults =>
    rw [interrupt_of_taken n running enabled]
    exact pushFaults_acceptInterrupt n s _

/-- Settles O59: the word RET pops is the PC that the acceptance pushed. -/
theorem returnFromInterrupt : Obligations.ReturnFromInterrupt := by
  intro s n running enabled room
  have popped := State.popOpen_afterPush s.pc room
  refine ⟨_, _, interrupt_of_pushOpen n running (.inl enabled) room, popPC_done_of_open popped, ?pc, ?sp, rfl, rfl,
    fun r => rfl⟩
  case pc => exact s.wordAt_afterPush s.pc
  case sp => exact s.sp_afterPop_afterPush s.pc

end Sys2Proof.Machine
end

