-- ==== Sys2Proof/Proofs/TopOfSpace.lean ====
section
/-! PROOFS. The top of the address space under TOP_OF_SPACE_POLICY = fault (spec 10 R28, R30), and a store seen by the
fetch after it (20 R80). -/

namespace Sys2Proof.Machine

/-! ## Stream reads after PC ran out -/

theorem Config.topFaults_of_fault {cfg : Config} (policy : cfg.topOfSpace = .fault) : Config.topFaults cfg = true :=
  decide_eq_true policy

theorem fetchByte_of_wrapped {s : State} (policy : s.cfg.topOfSpace = .fault) (wrapped : s.pcWrapped = true) :
    fetchByte s = .fault (.outOfBounds .fetch 65536 s) :=
  (fetchByte_eq_fault ..).2 (.inl ⟨by rw [Config.topFaults_of_fault policy, wrapped, Bool.true_and], rfl⟩)

/-- The operand fetches of an instruction of `n` bytes stop at the read, after `k` that find their byte, that faults. -/
theorem fetchOperands_of_fault {s : State} {n k : Nat} {f : Fault} (k_lt : k + 1 < n) (n_le : n ≤ 3)
    (found : s.streamOpen k) (missing : fetchByte (s.afterFetches k) = .fault f) : fetchOperands n s = .fault f := by
  have second_or_third : k = 0 ∧ (n = 2 ∨ n = 3) ∨ k = 1 ∧ n = 3 := by omega
  obtain ⟨rfl, rfl | rfl⟩ | ⟨rfl, rfl⟩ := second_or_third
  all_goals simp only [State.afterFetches] at missing
  · rw [fetchOperands, missing, Res.bind_fault]
  · rw [fetchOperands, missing, Res.bind_fault]
  · rw [fetchOperands, fetchByte_of_open found.1, Res.bind_ok, missing, Res.bind_fault]

theorem step_of_operand_fault {s : State} {k : Nat} {f : Fault} (running : s.halted = false)
    (mapped : dispatchMaps s.cfg (s.mem.read s.pc.toNat) = true) (one_le : 1 ≤ k)
    (k_lt : k < instrLength (s.mem.read s.pc.toNat)) (found : s.streamOpen k)
    (missing : fetchByte (s.afterFetches k) = .fault f) : step s = .fault f := by
  obtain ⟨j, rfl⟩ := Nat.exists_eq_add_of_le' one_le
  obtain ⟨first, rest⟩ := found
  have mapped_after : dispatchMaps s.afterFetch.cfg (s.mem.read s.pc.toNat) = true := mapped
  have operands := fetchOperands_of_fault k_lt (instrLength_le_three _) rest missing
  rw [step, running, if_neg Bool.false_ne_true, fetchInstr, fetchByte_of_open first, Res.bind_ok, if_pos mapped_after,
    operands, Res.bind_fault, Res.andThen_fault]

/-! ## Pops after SP ran out -/

theorem popByte_of_wrapped {s : State} (policy : s.cfg.topOfSpace = .fault) (wrapped : s.spWrapped = true) :
    popByte s = .fault (.outOfBounds .stackRead 65536 s) :=
  (popByte_eq_fault ..).2 (.inl ⟨by rw [Config.topFaults_of_fault policy, wrapped, Bool.true_and], rfl⟩)

theorem exec_pop_of_fault {s : State} {f : Fault} (rp : StackPair) (pop : pop16 s = .fault f) :
    exec (.pop rp) s = .fault f :=
  (Res.andThen_eq_fault ..).2 (.inl pop)

/-- The first read of a pop at 0xFFFF runs SP out, so the second one faults (10 R30). -/
theorem pop16_at_top {s : State} (policy : s.cfg.topOfSpace = .fault) (clear : s.spWrapped = false)
    (full : s.cfg.memSize = 65536) (top : s.sp = 0xFFFF) : ∃ left, pop16 s = .fault (.outOfBounds .stackRead 65536 left) := by
  have latch : (Config.topFaults s.cfg && s.spWrapped) = false := by rw [clear, Bool.and_false]
  have first : s.sp.toNat < s.cfg.memSize := by rw [full]; exact s.sp.isLt
  exact ⟨_, (pop16_eq_fault ..).2 (.inr ⟨latch, first, popByte_of_wrapped policy (decide_eq_true top)⟩)⟩

theorem popOpen_below_top {s : State} (clear : s.spWrapped = false) (full : s.cfg.memSize = 65536) (sp_eq : s.sp = 0xFFFE) :
    s.popOpen := by
  refine ⟨?_, ?_, ?_⟩
  · rw [full]; exact s.sp.isLt
  · rw [full]; exact (s.sp + 1).isLt
  · rw [clear, sp_eq]
    exact Bool.and_false _

/-- Settles O56: the two reads of the stream and the two of the stack, and the writes that clear the notes. -/
theorem topOfSpaceFaultPolicy : Obligations.TopOfSpaceFaultPolicy := by
  intro s a16 rp policy
  refine ⟨?opcode, ?operand, fun top => decide_eq_true top, ⟨_, exec_jmp a16 s, rfl⟩, ?pop, fun clear full => ⟨?top, ?below⟩,
    ⟨_, exec_lxi .sp a16 s, rfl⟩⟩
  case opcode => exact fun running wrapped => ⟨s, step_of_opcode_fault running (fetchByte_of_wrapped policy wrapped)⟩
  case operand =>
    intro k running mapped one_le k_lt found wrapped
    have policy_after : (s.afterFetches k).cfg.topOfSpace = .fault := by
      rw [State.afterFetches_eq]
      exact policy
    exact step_of_operand_fault running mapped one_le k_lt found (fetchByte_of_wrapped policy_after wrapped)
  case pop =>
    exact fun wrapped => ⟨s, exec_pop_of_fault rp ((pop16_eq_fault ..).2 (.inl (popByte_of_wrapped policy wrapped)))⟩
  case top =>
    intro top
    obtain ⟨left, pop⟩ := pop16_at_top policy clear full top
    exact ⟨left, exec_pop_of_fault rp pop⟩
  case below =>
    intro sp_eq
    refine ⟨_, exec_pop_of_popOpen rp (popOpen_below_top clear full sp_eq), ?_, ?_⟩
    · rw [State.setStackPair_sp, State.afterPop, sp_eq]
      rfl
    · rw [State.setStackPair_spWrapped, State.afterPop, sp_eq]
      rfl

/-- Settles O55: the fetch reads the store that STA wrote, at the address JMP gave PC. -/
theorem storeIsSeenByFetch : Obligations.StoreIsSeenByFetch := by
  intro s a16 inMemory
  refine ⟨_, memWrite_done_of_open s.a inMemory, _, exec_jmp .., ?_⟩
  refine (fetchByte_eq_ok ..).2 ⟨⟨Bool.and_false _, inMemory⟩, ?_, rfl⟩
  exact (Cells.read_write_self ..).symm

end Sys2Proof.Machine
end

