-- ==== Sys2Proof/Proofs/ConditionsAndTiming.lean ====
section
/-! PROOFS. The condition table (spec 44 R220), EI and HLT (47 R267, R268), and the default CYCLES table (70 R336). -/

namespace Sys2Proof.Machine

/-- Settles O27: four conditions are a flag, four its complement. -/
theorem conditionTable : Obligations.ConditionTable := by
  intro f
  simp only [Flags.holds, Bool.not_eq_eq_eq_not, Bool.not_true, and_self]

/-- Settles O41: each meaning writes its one bit, and HALTED is the step's first test. -/
theorem enableAndHaltRules : Obligations.EnableAndHaltRules :=
  fun _ => ⟨encodes_oneByte rfl, rfl, encodes_oneByte rfl, _, rfl, rfl, haltedStepChangesNothing _ rfl⟩

/-! ## The cycle table -/

/-- Both paths of the cost lie between 4 and 18. -/
def CostInRange (c : CycleCost) : Prop :=
  (4 ≤ c.taken.toNat ∧ c.taken.toNat ≤ 18) ∧ (4 ≤ c.notTaken.toNat ∧ c.notTaken.toNat ≤ 18)

theorem costInRange_flat {n : Nat} (at_least : 4 ≤ n) (at_most : n ≤ 18) : CostInRange (flat n) := by
  have cost_eq : (BitVec.ofNat 8 n).toNat = n := Nat.mod_eq_of_lt (by omega)
  simp only [CostInRange, flat, cost_eq, at_least, at_most, and_self]

theorem costInRange_byOperand (o : R8) {register memory : Nat} (at_least : 4 ≤ register ∧ 4 ≤ memory)
    (at_most : register ≤ 18 ∧ memory ≤ 18) : CostInRange (byOperand o register memory) := by
  rw [byOperand]
  split
  · exact costInRange_flat at_least.2 at_most.2
  · exact costInRange_flat at_least.1 at_most.1

theorem costInRange_defaultCycles (i : Instr) : CostInRange (defaultCycles i) := by
  cases i
  case add o | adc o | sub o | sbb o | ana o | xra o | ora o | cmp o | inr o | dcr o | mvi o _ =>
    exact costInRange_byOperand o (by decide) (by decide)
  case mov =>
    rw [defaultCycles]
    split <;> exact costInRange_flat (by decide) (by decide)
  case cnz | cz | cnc | cc | cpo | cpe | cp | cm | rnz | rz | rnc | rc | rpo | rpe | rp | rm =>
    rw [defaultCycles]
    exact ⟨by decide, by decide⟩
  all_goals exact costInRange_flat (by decide) (by decide)

section
variable {s : State} (no_overrides : s.cfg.cycleOverrides = [])
include no_overrides

theorem cycleCost_in_range (i : Instr) : 4 ≤ (cycleCost i s).toNat ∧ (cycleCost i s).toNat ≤ 18 := by
  obtain ⟨taken, not_taken⟩ := costInRange_defaultCycles i
  rw [cycleCost_of_default i s no_overrides]
  split
  · exact taken
  · exact not_taken

theorem cycleCost_of_flat {i : Instr} {n : Nat} (cost_eq : defaultCycles i = flat n) :
    cycleCost i s = BitVec.ofNat 8 n := by
  rw [cycleCost_of_default i s no_overrides, cost_eq]
  exact ite_self ..

theorem cycleCost_alu {alu : R8 → Instr} (cost_eq : ∀ r, defaultCycles (alu r) = byOperand r 4 7) :
    (∀ r, r ≠ .m → cycleCost (alu r) s = 4) ∧ cycleCost (alu .m) s = 7 := by
  refine ⟨fun r register => ?_, cycleCost_of_flat no_overrides (cost_eq .m)⟩
  exact cycleCost_of_flat no_overrides ((cost_eq r).trans (if_neg register))

theorem cycleCost_condCall (cond : Cond) (a16 : Word) :
    cycleCost (condCall cond a16) s = if s.flags.holds cond then 17 else 11 := by
  rw [cycleCost_of_default _ s no_overrides, taken_condCall, defaultCycles_condCall]

theorem cycleCost_condReturn (cond : Cond) :
    cycleCost (condReturn cond) s = if s.flags.holds cond then 11 else 5 := by
  rw [cycleCost_of_default _ s no_overrides, taken_condReturn, defaultCycles_condReturn]

end

/-- Settles O54: row by row. -/
theorem defaultCycleTable : Obligations.DefaultCycleTable := by
  intro s no_overrides
  have row {i : Instr} {n : Nat} (cost_eq : defaultCycles i = flat n) := cycleCost_of_flat no_overrides cost_eq
  refine ⟨?plain, ?mov, ?movM, row rfl, ?mvi, fun _ => ?mviM, fun _ _ => row rfl, fun _ => ⟨row rfl, row rfl⟩,
    fun _ => ⟨row rfl, row rfl, row rfl, row rfl⟩, ?alu, ?immediate, ?inr, row rfl, row rfl,
    fun _ => ⟨row rfl, row rfl, row rfl⟩, fun cond a16 => ⟨row rfl, row (defaultCycles_condJump ..), row rfl,
    cycleCost_condCall no_overrides cond a16⟩, row rfl, cycleCost_condReturn no_overrides, fun _ => row rfl, row rfl, row rfl,
    fun _ => ⟨row rfl, row rfl⟩, row rfl, fun _ => ⟨row rfl, row rfl⟩, cycleCost_in_range no_overrides⟩
  case plain =>
    intro i i_mem
    fin_cases i_mem <;> exact row rfl
  case mov =>
    intro dst src dst_ne src_ne
    exact row (if_neg (by simp [dst_ne, src_ne]))
  case movM => exact fun r => ⟨row (if_pos (Or.inr rfl)), row rfl⟩
  case mvi => exact fun r d8 register => row (if_neg register)
  case mviM => exact row rfl
  case alu =>
    intro alu alu_mem
    simp only [List.mem_cons, List.not_mem_nil, or_false] at alu_mem
    rcases alu_mem with rfl | rfl | rfl | rfl | rfl | rfl | rfl | rfl
    all_goals exact cycleCost_alu no_overrides fun _ => rfl
  case immediate =>
    intro alu alu_mem d8
    simp only [List.mem_cons, List.not_mem_nil, or_false] at alu_mem
    rcases alu_mem with rfl | rfl | rfl | rfl | rfl | rfl | rfl | rfl
    all_goals exact row rfl
  case inr => exact fun r register => ⟨row (if_neg register), row (if_neg register)⟩

end Sys2Proof.Machine
end
